-- ==== Sys2Proof/Word.lean ====
section
/-!
DEFINITION. The byte, and the three kinds of word of the block as they lie on its interfaces
(30_encoding.md rule R85): a status code, a command word, a foreground operation code with its
arguments.
-/

namespace Sys2Proof

/-- Every data item the block moves is an 8-bit byte (R14). -/
abbrev Byte := BitVec 8

/-- A `CMD` word: `id[15:12]`, `rsv[11:8]`, `opnd[7:0]` (R85). -/
abbrev CmdWord := BitVec 16

/-- The arguments that travel beside an `FGOP` code (R85, R94): INIT carries `prescale`, EXECUTE
carries `bytes`, `wl` and `rl`; CAPTURE and HALT carry none. -/
structure FgArgs where
  prescale : Byte
  bytes    : List Byte
  wl       : Nat
  rl       : Nat
  deriving DecidableEq, Repr, Inhabited

/-- An operation with no arguments given: the operand words of a bare operation code. -/
def FgArgs.none : FgArgs := { prescale := 0, bytes := [], wl := 0, rl := 0 }

/-- One encoded operation, in one of the three formats of R85 that carry operations. -/
inductive Code where
  /-- `STATUS8`: a controller status code. -/
  | status (c : Byte)
  /-- `CMD`: a controller command word. -/
  | cmd (w : CmdWord)
  /-- `FGOP`: a foreground operation code and its arguments. -/
  | fgop (op : BitVec 4) (args : FgArgs)
  deriving DecidableEq, Repr, Inhabited

end Sys2Proof
end

