-- ==== Sys2Proof/Config.lean ====
section
/-!
DEFINITION. What an implementation fixes (the parameters of 00_scope.md section 4, as plain data
that State carries), the moves the environment and the schedule can make (R103), and the free
values: opaque constants with no body, for everything the spec leaves to a draw or to the schedule.
-/

namespace Sys2Proof

/-- `STATUS_MAP` (R11, R89): the code of each of the eleven mapped bus events. -/
structure StatusMap where
  startSent    : Byte
  repstartSent : Byte
  slawAck      : Byte
  slawNack     : Byte
  dataTxAck    : Byte
  dataTxNack   : Byte
  arbLost      : Byte
  slarAck      : Byte
  slarNack     : Byte
  dataRxAck    : Byte
  dataRxNack   : Byte
  deriving DecidableEq, Repr

/-- The default map of R87. PRESUMED by the spec itself (general knowledge): log 6. -/
def StatusMap.default : StatusMap where
  startSent    := 0x08
  repstartSent := 0x10
  slawAck      := 0x18
  slawNack     := 0x20
  dataTxAck    := 0x28
  dataTxNack   := 0x30
  arbLost      := 0x38
  slarAck      := 0x40
  slarNack     := 0x48
  dataRxAck    := 0x50
  dataRxNack   := 0x58

/-- `SAMPLE_POLL_ORDER` (R12). -/
inductive PollOrder where
  /-- Wait for the clock low, then high, then read the data. -/
  | lowThenHigh
  /-- Wait for the clock high, read the data, then wait for it low. -/
  | highThenLow
  deriving DecidableEq, Repr

/-- The parameters of the implementation (R8 to R12). `CTRL_REGMAP` and `CLK_PRESCALE` are read by
no rule (R13); the latter is INIT's argument. -/
structure Params where
  wbufSize          : Nat
  rbufSize          : Nat
  planeH            : Nat
  planeW            : Nat
  startTimeoutPolls : Nat
  statusMap         : StatusMap
  pollOrder         : PollOrder
  deriving DecidableEq, Repr

/-- `PLANE_SIZE = PLANE_H * PLANE_W` (R9). -/
def Params.planeSize (p : Params) : Nat := p.planeH * p.planeW

/-- An acknowledge bit on the bus. -/
inductive AckBit where
  | ack
  | nack
  deriving DecidableEq, Repr

/-- One entry of `BUSLOG` (R53). -/
inductive BusEvent where
  /-- `S`: a START. -/
  | start
  /-- `Sr`: a repeated START. -/
  | repStart
  /-- `P`: a STOP. -/
  | stop
  /-- `TX(b, ack)`: the master sent `b`, the device returned `ack`. -/
  | tx (b : Byte) (a : AckBit)
  /-- `RX(b, ack)`: the master received `b` and returned `ack`. -/
  | rx (b : Byte) (a : AckBit)
  /-- `LOST`: arbitration lost. -/
  | lost
  deriving DecidableEq, Repr

/-- One step of CTRL (R204). -/
inductive CtrlMove where
  /-- (a): report a status, optionally with a byte in `DAT`, appending one `BUSLOG` entry. -/
  | report (sts : Byte) (dat : Option Byte) (entry : BusEvent)
  /-- (b): clear a pending STOP; `onBus` says whether a STOP appears on the bus. -/
  | stop (onBus : Bool)
  deriving DecidableEq, Repr

/-- One line of the trace syntax of R103: a host request, or a step of one of the four agents. -/
inductive Move where
  /-- A host request: an `FGOP` code with its arguments. -/
  | op (code : BitVec 4) (args : FgArgs)
  /-- One FG step. -/
  | fg
  /-- One ISR invocation. -/
  | isr
  /-- One CTRL step. -/
  | ctrl (c : CtrlMove)
  /-- One SENSOR step; an omitted signal keeps its level. -/
  | sensor (fa la pclk : Option Bool) (d : Option Byte)
  deriving DecidableEq, Repr, Inhabited

/-! ### The free values: nothing constrains them (log 1, log 5, log 7) -/

/-- What the schedule, the environment and the host do next where no move is laid down (R193,
R204, R210, R213): the `n`-th free move. -/
opaque Config.freeMove : Nat → Move

/-- The reset contents of `WB` (R33: "a free draw at reset"). -/
opaque Config.wbDraw : Nat → Byte

/-- The reset contents of `RB` (R33). -/
opaque Config.rbDraw : Nat → Byte

/-- The reset value of `STS` (R48). -/
opaque Config.stsDraw : Byte

/-- The reset value of `DAT` (R48). -/
opaque Config.datDraw : Byte

/-- The reset value of `PRESC` (R48). -/
opaque Config.prescDraw : Byte

/-- The reset value of CTRL's `LAST` (R220). -/
opaque Config.lastDraw : Byte

/-- The level of `FA` at reset (R51: none; driven by SENSOR). -/
opaque Config.faDraw : Bool

/-- The level of `LA` at reset (R51). -/
opaque Config.laDraw : Bool

/-- The level of `PCLK` at reset (R51). -/
opaque Config.pclkDraw : Bool

/-- The level of `D` at reset (R51). -/
opaque Config.dDraw : Byte

/-- `START_TIMEOUT_POLLS` less one: the spec gives no value (R10). -/
opaque Config.startTimeoutPollsLessOne : Nat

/-- `START_TIMEOUT_POLLS`, an integer at least 1 (R10). -/
def Config.startTimeoutPolls : Nat := Config.startTimeoutPollsLessOne + 1

/-- The parameters at their defaults (R8, R9, R11, R12), with the open one left open (R10). -/
def Params.default : Params where
  wbufSize          := 32
  rbufSize          := 32
  planeH            := 120
  planeW            := 160
  startTimeoutPolls := Config.startTimeoutPolls
  statusMap         := StatusMap.default
  pollOrder         := .lowThenHigh

end Sys2Proof
end

