-- ==== Sys2Proof/Syntax.lean ====
section
/-!
DEFINITION. The 26 operations of spec/opcode_table.json, one constructor a row (R3): the 12 arms of
the interrupt state machine, the 10 controller commands, the 4 foreground operations.
-/

namespace Sys2Proof

/-- One operation of the block, with its operands. -/
inductive Instr where
  -- the arms of the state machine (40_bus_events.md)
  /-- A START has been sent (R115). -/
  | startSent
  /-- A repeated START has been sent (R117). -/
  | repstartSent
  /-- SLA+W sent, acknowledged (R119). -/
  | slawAck
  /-- SLA+W sent, not acknowledged (R121). -/
  | slawNack
  /-- A data byte sent, acknowledged (R123). -/
  | dataTxAck
  /-- A data byte sent, not acknowledged (R125). -/
  | dataTxNack
  /-- Arbitration lost (R127). -/
  | arbLost
  /-- SLA+R sent, acknowledged (R128). -/
  | slarAck
  /-- SLA+R sent, not acknowledged (R129). -/
  | slarNack
  /-- A byte received, more expected (R130). -/
  | dataRxAck
  /-- The last byte received (R132). -/
  | dataRxNack
  /-- A status code that STATUS_MAP does not map (R134). -/
  | unrecognized (code : Byte)
  -- the controller commands (41_engine.md section 4)
  /-- Clear the pending interrupt (R154). -/
  | clrInt
  /-- Request a START (R155). -/
  | setSta
  /-- Withdraw the START request (R156). -/
  | clrSta
  /-- Request a STOP (R157). -/
  | setSto
  /-- Arm the acknowledge (R158). -/
  | setAa
  /-- Arm the not-acknowledge (R159). -/
  | clrAa
  /-- Write the data register (R160). -/
  | wrDat (b : Byte)
  /-- Read the data register (R161). -/
  | rdDat
  /-- Read the status register (R162). -/
  | rdSts
  /-- Set the prescale, enable controller and interrupt (R163). -/
  | cfgEn (p : Byte)
  -- the foreground operations (41_engine.md, 42_capture.md)
  /-- The one-time setup (R140). -/
  | init (prescale : Byte)
  /-- One transaction (R143 to R150). -/
  | execute (bytes : List Byte) (wl rl : Nat)
  /-- One frame capture (R170 to R181). -/
  | capture
  /-- Stop the foreground (R153). -/
  | halt
  deriving DecidableEq, Repr

end Sys2Proof
end

