-- ==== Sys2Proof/WellFormed.lean ====
section
/-!
DEFINITION. When the parameters are ones the spec allows (R8, R9, R10, R89), and when an operation
is one the encodings can hold.
-/

namespace Sys2Proof

/-- The eleven codes of a map, in the order of R87. -/
def StatusMap.codes (m : StatusMap) : List Byte :=
  [m.startSent, m.repstartSent, m.slawAck, m.slawNack, m.dataTxAck, m.dataTxNack, m.arbLost,
   m.slarAck, m.slarNack, m.dataRxAck, m.dataRxNack]

/-- R89: the map "must give no code two tags". That each tag has exactly one code is the shape of
the structure. -/
abbrev StatusMap.wf (m : StatusMap) : Prop := m.codes.Nodup

/-- The constraints on the parameters (R8, R9, R10, R89). -/
structure Params.WellFormed (p : Params) : Prop where
  wbuf  : 2 ≤ p.wbufSize
  rbuf  : 1 ≤ p.rbufSize
  plane : 1 ≤ p.planeSize
  polls : 1 ≤ p.startTimeoutPolls
  map   : p.statusMap.wf

/-- An operation that an encoding of R85 holds under the map `m`: the operands of every
constructor are of the width of their field, so the one check is that the code of
`UNRECOGNIZED` is one that the map does not map (R88). A request whose lists or lengths exceed the
buffers is well formed: EXECUTE itself rejects it (R143). -/
def Instr.wellFormed (m : StatusMap) : Instr → Bool
  | .unrecognized c => !m.codes.contains c
  | .startSent => true
  | .repstartSent => true
  | .slawAck => true
  | .slawNack => true
  | .dataTxAck => true
  | .dataTxNack => true
  | .arbLost => true
  | .slarAck => true
  | .slarNack => true
  | .dataRxAck => true
  | .dataRxNack => true
  | .clrInt => true
  | .setSta => true
  | .clrSta => true
  | .setSto => true
  | .setAa => true
  | .clrAa => true
  | .wrDat _ => true
  | .rdDat => true
  | .rdSts => true
  | .cfgEn _ => true
  | .init _ => true
  | .execute _ _ _ => true
  | .capture => true
  | .halt => true

end Sys2Proof
end

