-- ==== Sys2Proof/Decode.lean ====
section
/-!
DEFINITION. The three decoders (R86 to R95), total and rejecting by name, and the encoder written
from the same tables; then the probe interface of the host, `decodeTableWord`.
-/

namespace Sys2Proof

/-- Why a word is no operation. -/
inductive DecodeError where
  /-- A `CMD` word with a nonzero `rsv` field: reserved (R92). -/
  | reservedField
  /-- A `CMD` word with an id from 0xA to 0xF: reserved (R92). -/
  | reservedId
  /-- A `CMD` word of a command without operand whose `opnd` is not 0 (R92). -/
  | strayOperand
  /-- An `FGOP` code 0x0 or 0x5 to 0xF: reserved (R95). -/
  | reservedOp
  deriving DecidableEq, Repr

/-! ### Status codes -/

/-- The decoder of R88: the operation that `STATUS_MAP` gives the code, `UNRECOGNIZED` for every
code it gives none. Total, pure, reads nothing but its argument (and the parameter). -/
def decodeStatus (m : StatusMap) (c : Byte) : Instr :=
  if c = m.startSent then .startSent
  else if c = m.repstartSent then .repstartSent
  else if c = m.slawAck then .slawAck
  else if c = m.slawNack then .slawNack
  else if c = m.dataTxAck then .dataTxAck
  else if c = m.dataTxNack then .dataTxNack
  else if c = m.arbLost then .arbLost
  else if c = m.slarAck then .slarAck
  else if c = m.slarNack then .slarNack
  else if c = m.dataRxAck then .dataRxAck
  else if c = m.dataRxNack then .dataRxNack
  else .unrecognized c

/-! ### Command words -/

/-- `id[15:12]` (R85). -/
def cmdId (w : CmdWord) : BitVec 4 := w.extractLsb' 12 4

/-- `rsv[11:8]` (R85). -/
def cmdRsv (w : CmdWord) : BitVec 4 := w.extractLsb' 8 4

/-- `opnd[7:0]` (R85). -/
def cmdOpnd (w : CmdWord) : Byte := w.extractLsb' 0 8

/-- A command without operand: its `opnd` field is 0 (R92); another is rejected (log 20). -/
def bareCommand (w : CmdWord) (i : Instr) : Except DecodeError Instr :=
  if cmdOpnd w = 0 then .ok i else .error .strayOperand

/-- The `CMD` table of R92. -/
def decodeCmd (w : CmdWord) : Except DecodeError Instr :=
  if cmdRsv w ≠ 0 then .error .reservedField
  else match (cmdId w).toNat with
    | 0 => bareCommand w .clrInt
    | 1 => bareCommand w .setSta
    | 2 => bareCommand w .clrSta
    | 3 => bareCommand w .setSto
    | 4 => bareCommand w .setAa
    | 5 => bareCommand w .clrAa
    | 6 => .ok (.wrDat (cmdOpnd w))
    | 7 => bareCommand w .rdDat
    | 8 => bareCommand w .rdSts
    | 9 => .ok (.cfgEn (cmdOpnd w))
    | _ => .error .reservedId

/-! ### Foreground operations -/

/-- The `FGOP` table of R94; the other codes are reserved (R95). -/
def decodeFgop (op : BitVec 4) (args : FgArgs) : Except DecodeError Instr :=
  match op.toNat with
  | 1 => .ok (.init args.prescale)
  | 2 => .ok (.execute args.bytes args.wl args.rl)
  | 3 => .ok .capture
  | 4 => .ok .halt
  | _ => .error .reservedOp

/-- The decoder of the block: each format by its own table. -/
def decode (m : StatusMap) : Code → Except DecodeError Instr
  | .status c => .ok (decodeStatus m c)
  | .cmd w => decodeCmd w
  | .fgop op args => decodeFgop op args

/-! ### The encoder -/

/-- The word of the command `id` with operand `opnd` and `rsv` 0 (R92). -/
def cmdWord (id : BitVec 4) (opnd : Byte) : CmdWord := id ++ 0#4 ++ opnd

/-- The encoding of each operation: R87 through `m`, R92, R94. -/
def encode (m : StatusMap) : Instr → Code
  | .startSent => .status m.startSent
  | .repstartSent => .status m.repstartSent
  | .slawAck => .status m.slawAck
  | .slawNack => .status m.slawNack
  | .dataTxAck => .status m.dataTxAck
  | .dataTxNack => .status m.dataTxNack
  | .arbLost => .status m.arbLost
  | .slarAck => .status m.slarAck
  | .slarNack => .status m.slarNack
  | .dataRxAck => .status m.dataRxAck
  | .dataRxNack => .status m.dataRxNack
  | .unrecognized c => .status c
  | .clrInt => .cmd (cmdWord 0x0 0)
  | .setSta => .cmd (cmdWord 0x1 0)
  | .clrSta => .cmd (cmdWord 0x2 0)
  | .setSto => .cmd (cmdWord 0x3 0)
  | .setAa => .cmd (cmdWord 0x4 0)
  | .clrAa => .cmd (cmdWord 0x5 0)
  | .wrDat b => .cmd (cmdWord 0x6 b)
  | .rdDat => .cmd (cmdWord 0x7 0)
  | .rdSts => .cmd (cmdWord 0x8 0)
  | .cfgEn p => .cmd (cmdWord 0x9 p)
  | .init p => .fgop 0x1 { FgArgs.none with prescale := p }
  | .execute bytes wl rl => .fgop 0x2 { FgArgs.none with bytes := bytes, wl := wl, rl := rl }
  | .capture => .fgop 0x3 FgArgs.none
  | .halt => .fgop 0x4 FgArgs.none

/-! ### The host's probe of the opcode table (log 16) -/

/-- The code a table word of `nbits` bits stands for. The table's three formats are 8, 16 and 4 bits
wide; a 4-bit operation code counted in whole bytes is an 8-bit word from 1 to 4, which no
default status code is. The arguments of a bare operation code are empty. -/
def tableCode (nbits w : Nat) : Option Code :=
  if nbits = 16 then some (.cmd (BitVec.ofNat 16 w))
  else if nbits = 4 then some (.fgop (BitVec.ofNat 4 w) FgArgs.none)
  else if nbits = 8 then
    if 1 ≤ w ∧ w ≤ 4 then some (.fgop (BitVec.ofNat 4 w) FgArgs.none)
    else some (.status (BitVec.ofNat 8 w))
  else none

/-- The operation the decoder reads from a table word, under the default `STATUS_MAP`. -/
def decodeTableWord (nbits w : Nat) : Option Instr :=
  match tableCode nbits w with
  | none => none
  | some c =>
    match decode StatusMap.default c with
    | .ok i => some i
    | .error _ => none

end Sys2Proof
end

