-- ==== Sys2Proof/Machine/State.lean ====
section
/-!
DEFINITION. The state of the block and its environment (10_state.md), as plain data, and the state
after reset (70_reset_and_hazards.md rule R220).
-/

namespace Sys2Proof.Machine

/-- `TransactionState` (R23). -/
inductive TxState where
  | idle
  | pending
  | ack
  | nack
  | slaNack
  | arbitrationLoss
  deriving DecidableEq, Repr

/-- The four byte arrays of the block (R60). -/
inductive Space where
  /-- The write buffer. -/
  | wb
  /-- The read buffer. -/
  | rb
  /-- Pixel plane A. -/
  | a
  /-- Pixel plane B. -/
  | b
  deriving DecidableEq, Repr

/-- The contents of the four arrays, each a list of (index, byte) with the indexes rising. A plane
lists its nonzero bytes; a buffer lists every element it has (log 18). -/
structure Memory where
  wb : List Host.Cell
  rb : List Host.Cell
  a  : List Host.Cell
  b  : List Host.Cell
  deriving DecidableEq, Repr

/-- The cells of one array. -/
def Memory.cells (m : Memory) : Space → List Host.Cell
  | .wb => m.wb
  | .rb => m.rb
  | .a => m.a
  | .b => m.b

/-- A host request that FG has accepted, with its arguments (R94). -/
inductive Request where
  | init (prescale : Byte)
  | execute (bytes : List Byte) (wl rl : Nat)
  | capture
  | halt
  deriving DecidableEq, Repr

/-- The sub-steps of `sample()` (R177). -/
inductive Sub where
  /-- A poll of the clock for the low level. -/
  | waitLow
  /-- A poll of the clock for the high level. -/
  | waitHigh
  /-- The read of the data bus. -/
  | readD
  /-- The store step, with the pending sample `v` (R178, R179). -/
  | store (v : Byte)
  deriving DecidableEq, Repr

/-- The control position of FG (R21). -/
inductive Phase where
  | off
  | ready
  | xCheck
  /-- The load step `i`: the bytes in turn, then `WL`, then `RL` (R144, R167). -/
  | xLoad (i : Nat)
  | xArmTS
  | xArmWC
  | xArmRC
  | xArmSta
  | xWaitStart
  | xTimeout
  | xWaitTerm
  | xCopy (j : Nat)
  | cInit
  | cWaitFrameEnd
  | cWaitFrameStart
  | cLineHead
  | cWaitLineStart
  /-- `C_PairHead(LA)`. -/
  | cPairHeadLA
  /-- `C_PairHead(FA)`. -/
  | cPairHeadFA
  | cSampleA (s : Sub)
  | cSampleB (s : Sub)
  | cWaitLineEnd
  | halted
  deriving DecidableEq, Repr

/-- The kinds of the sticky `FAULT` register with what each records (R197). -/
inductive FaultRec where
  /-- Index out of a buffer: the buffer, the index, the status code being handled (none where no
  handler runs: log 14). -/
  | bufferOverrun (space : Space) (index : Nat) (code : Option Byte)
  /-- A byte received with `RL = 0`: the status code and `RC`. -/
  | readLengthZero (code : Byte) (rc : Nat)
  /-- Index out of a plane: the plane and `PIX`. -/
  | planeOverflow (space : Space) (pix : Nat)
  /-- EXECUTE before INIT: the request. -/
  | notInitialized (request : Request)
  /-- A second INIT: the request. -/
  | initTwice (request : Request)
  deriving DecidableEq, Repr

/-- CTRL's `CPH` (R205): whether this master owns the bus. -/
inductive Ownership where
  | free
  | owned
  deriving DecidableEq, Repr

/-- One command the block has sent: its word (R92) and, for a read, the byte it returned. -/
structure CmdRecord where
  word : CmdWord
  ret  : Option Byte
  deriving DecidableEq, Repr

/-- The whole machine. Field by field with rules and reset values: INVENTORY.md, "State". -/
structure State where
  /-- The parameters (R8 to R12), fixed through a run (log 5). -/
  cfg     : Params
  /-- `TS` (R23). -/
  ts      : TxState
  /-- `WL` (R27). -/
  wl      : Nat
  /-- `RL` (R29). -/
  rl      : Nat
  /-- `WC` (R30). -/
  wc      : Nat
  /-- `RC` (R31). -/
  rc      : Nat
  /-- `WB`, `RB`, `A`, `B` (R26, R28, R37). -/
  mem     : Memory
  /-- `K` (R34). -/
  k       : Nat
  /-- `RES` (R35). -/
  res     : Byte
  /-- `RBYTES` (R35). -/
  rbytes  : List Byte
  /-- `INITD` (R36). -/
  initd   : Bool
  /-- `HALTED` (R36). -/
  halted  : Bool
  /-- `FGPH` (R21). -/
  fgph    : Phase
  /-- The operation FG runs, with its loaded arguments (R141, R194). -/
  req     : Option Request
  /-- FG's local verdict (`ok` of R143, `f` of R174 and R176): the value that the last FG step has read
  ends the operation, and FG's next step is the return (R142; log 10). -/
  returning : Bool
  /-- `PIX` (R38). -/
  pix     : Nat
  /-- `EN` (R41). -/
  en      : Bool
  /-- `IEN` (R41). -/
  ien     : Bool
  /-- `SI` (R42). -/
  si      : Bool
  /-- `STS` (R43). -/
  sts     : Byte
  /-- `STA` (R44). -/
  sta     : Bool
  /-- `STO` (R45). -/
  sto     : Bool
  /-- `AA` (R46). -/
  aa      : Bool
  /-- `DAT` (R47). -/
  dat     : Byte
  /-- `PRESC` (R41; 8 bits: log 13). -/
  presc   : Byte
  /-- `FA` (R50). -/
  fa      : Bool
  /-- `LA` (R50). -/
  la      : Bool
  /-- `PCLK` (R50). -/
  pclk    : Bool
  /-- `D` (R50). -/
  d       : Byte
  /-- `FAULT` (R52). -/
  fault   : Option FaultRec
  /-- `BUSLOG` (R53), oldest first. -/
  buslog  : List BusEvent
  /-- CTRL's `CPH` (R205). -/
  cph     : Ownership
  /-- CTRL's `LAST` (R205). -/
  last    : Byte
  /-- The model's own: the commands sent so far, oldest first (log 4). -/
  cmdLog  : List CmdRecord
  /-- The model's own: a command word laid at the controller interface (log 3). -/
  cmdPort : Option CmdWord
  /-- The model's own: the moves laid down for the steps to come (log 1). -/
  script  : List Move
  /-- The model's own: how many free moves have been taken (log 1). -/
  tick    : Nat
  deriving DecidableEq, Repr

/-- The faults that stop the machine: none. Every fault kind of R197 is a value of the `FAULT`
register, set by `State.raise` in a next state, after which CTRL and SENSOR still step (R198): no
meaning answers `Outcome.fault`. Nobody raises a constructor of this type, so it is safe. -/
inductive Fault where
  deriving DecidableEq, Repr

/-- The refusals. -/
inductive Refusal where
  /-- Raised by `exec`'s arm of an operation that has no meaning yet, with its mnemonic; safe, the
  machine stops. No arm of this model raises it. -/
  | notModelled (mnemonic : String)
  deriving DecidableEq, Repr

/-- The reset contents of the arrays: planes zero (R39); every element of the buffers a free draw
(R33). -/
def Memory.reset : Memory where
  wb := (List.range Params.default.wbufSize).map fun i => (i, Config.wbDraw i)
  rb := (List.range Params.default.rbufSize).map fun i => (i, Config.rbDraw i)
  a  := []
  b  := []

/-- The state right after reset (R220, R221; log 7, log 8). -/
def State.reset : State where
  cfg     := Params.default
  ts      := .idle
  wl      := 0
  rl      := 0
  wc      := 0
  rc      := 0
  mem     := Memory.reset
  k       := 0
  res     := 0x00
  rbytes  := []
  initd   := false
  halted  := false
  fgph    := .off
  req     := none
  returning := false
  pix     := 0
  en      := false
  ien     := false
  si      := false
  sts     := Config.stsDraw
  sta     := false
  sto     := false
  aa      := false
  dat     := Config.datDraw
  presc   := Config.prescDraw
  fa      := Config.faDraw
  la      := Config.laDraw
  pclk    := Config.pclkDraw
  d       := Config.dDraw
  fault   := none
  buslog  := []
  cph     := .free
  last    := Config.lastDraw
  cmdLog  := []
  cmdPort := none
  script  := []
  tick    := 0

end Sys2Proof.Machine
end

