-- ==== Sys2Proof/Machine/Flags.lean ====
section
/-!
DEFINITION. The status-like values of the block (R55): which transaction states are terminal, the
RESULT encoding, the interrupt request, the fault codes. The block has no arithmetic flags.
-/

namespace Sys2Proof.Machine

/-- `terminal(v)` (R23): "true exactly for Ack, Nack, SlaNack and ArbitrationLoss". -/
def TxState.terminal : TxState → Bool
  | .idle => false
  | .pending => false
  | .ack => true
  | .nack => true
  | .slaNack => true
  | .arbitrationLoss => true

/-- The code of a transaction state in the RESULT table (R96). -/
def TxState.code : TxState → Byte
  | .idle => 0x01
  | .pending => 0x02
  | .ack => 0x03
  | .nack => 0x04
  | .slaNack => 0x05
  | .arbitrationLoss => 0x06

/-- `Timeout`, the "zero/failure sentinel" (R96). -/
def timeoutCode : Byte := 0x00

/-- `Rejected` (R96, R97). -/
def rejectedCode : Byte := 0x07

/-- The code of a fault kind (R197). -/
def FaultRec.code : FaultRec → Nat
  | .bufferOverrun _ _ _ => 1
  | .readLengthZero _ _ => 2
  | .planeOverflow _ _ => 3
  | .notInitialized _ => 4
  | .initTwice _ => 5

/-- `IRQ = SI and EN and IEN` (R49). -/
def State.irq (s : State) : Bool := s.si && s.en && s.ien

/-- An ISR invocation is enabled when `IRQ = 1` and `FAULT = none` (R110). -/
def State.isrEnabled (s : State) : Bool := s.irq && s.fault.isNone

/-- `Off` and `Ready` are the idle phases (R141). -/
def Phase.idle : Phase → Bool
  | .off => true
  | .ready => true
  | _ => false

/-- FG accepts a host request: it stands in an idle phase, no accepted request waits for its step
(log 9), and no fault has stopped it (R141, R198, R200; log 11). -/
def State.accepting (s : State) : Bool := s.fgph.idle && s.req.isNone && s.fault.isNone

end Sys2Proof.Machine
end

