-- ==== Sys2Proof/Machine/Operands.lean ====
section
/-!
DEFINITION. The operand forms of 30_encoding.md section 5: the address byte, the restart index,
EXECUTE's admission check, and the caller's programs (R104, R224).
-/

namespace Sys2Proof.Machine

/-- The address byte `addr[6:0] ++ rw` (R98). The polarity of `rw` is PRESUMED by the spec (general
knowledge): log 22. -/
def addrByte (addr : BitVec 7) (rw : Bool) : Byte := addr ++ BitVec.ofBool rw

/-- Bit 0 of an address byte: 1 is read intent (R98). -/
def readIntent (b : Byte) : Bool := b.getLsbD 0

/-- The index in `WB` of the restart byte, `max(WL, 2)` (R99, R118). -/
def restartIndex (wl : Nat) : Nat := max wl 2

/-- The admission check of `X_Check` (R143): lengths within the buffers, no read intent with a read
length of 0, and the restart byte of a write-then-read inside the write buffer. -/
def admissible (p : Params) (bytes : List Byte) (wl rl : Nat) (b0 : Byte) : Bool :=
  decide (bytes.length ≤ p.wbufSize) && decide (wl ≤ p.wbufSize) && decide (rl ≤ p.rbufSize)
    && !(decide (rl = 0) && readIntent b0)
    && !(decide (0 < rl) && !readIntent b0 && decide (p.wbufSize ≤ restartIndex wl))

/-- `WRITE(a, d1..dn)` (R104). -/
def Request.write (addr : BitVec 7) (payload : List Byte) : Request :=
  .execute (addrByte addr false :: payload) (payload.length + 1) 0

/-- `WRITE_READ(a, k1..kn, m)` (R104), for at least one key byte. -/
def Request.writeRead (addr : BitVec 7) (key : List Byte) (m : Nat) : Request :=
  .execute (addrByte addr false :: key ++ [addrByte addr true]) (key.length + 1) m

/-- `POLL(req)` (R104, R152): what the caller asks for next, once `req` has returned `res`. -/
def Request.pollNext (req : Request) (res : Byte) : Option Request :=
  if res = TxState.slaNack.code then some req else none

/-- The requests of the bus initializer up to its check (R224). -/
def Request.bootStart (prescale : Byte) (probe : Request) : List Request := [.init prescale, probe]

/-- The bus initializer's check (R224): every result of the probe other than `Ack` is a failure, and
its last request is HALT. -/
def Request.bootNext (res : Byte) : Option Request :=
  if res = TxState.ack.code then none else some .halt

/-- The operation a request asks for. -/
def Request.instr : Request → Instr
  | .init p => .init p
  | .execute bytes wl rl => .execute bytes wl rl
  | .capture => .capture
  | .halt => .halt

/-- The request that asks for an operation; only foreground operations are requested (R94). -/
def Request.ofInstr : Instr → Option Request
  | .init p => some (.init p)
  | .execute bytes wl rl => some (.execute bytes wl rl)
  | .capture => some .capture
  | .halt => some .halt
  | _ => none

end Sys2Proof.Machine
end

