-- ==== Sys2Proof/Machine/Ops.lean ====
section
/-!
DEFINITION. The named operations on the state: the byte arrays (20_memory.md), raising a fault
(60_exceptions.md), returning from a foreground operation (R142), and the actions of the
controller commands (41_engine.md section 4).
-/

namespace Sys2Proof.Machine

/-- The outcome of a step of this machine. -/
abbrev Out := Host.Outcome State Fault Refusal

/-! ### Cells of one array -/

/-- The byte listed at an index. -/
def cellsRead : List Host.Cell → Nat → Option Byte
  | [], _ => none
  | (k, v) :: t, i => if k = i then some v else cellsRead t i

/-- List byte `v` at index `i`, in its place among rising indexes. -/
def cellsInsert : List Host.Cell → Nat → Byte → List Host.Cell
  | [], i, v => [(i, v)]
  | (k, w) :: t, i, v =>
    if i < k then (i, v) :: (k, w) :: t
    else if i = k then (i, v) :: t
    else (k, w) :: cellsInsert t i v

/-- Take index `i` off the list. -/
def cellsErase (l : List Host.Cell) (i : Nat) : List Host.Cell := l.filter fun c => c.1 ≠ i

/-! ### The four arrays -/

/-- What an unlisted index reads as: in a plane `0x00`, its reset value (R39); in a buffer nothing,
since a buffer lists every element it has (log 18). -/
def Space.unlisted : Space → Option Byte
  | .wb => none
  | .rb => none
  | .a => some 0x00
  | .b => some 0x00

/-- The capacity of an array (R60). -/
def Space.capacity (p : Params) : Space → Nat
  | .wb => p.wbufSize
  | .rb => p.rbufSize
  | .a => p.planeSize
  | .b => p.planeSize

/-- The memory with the cells of one array replaced. -/
def Memory.setCells (m : Memory) (sp : Space) (l : List Host.Cell) : Memory :=
  match sp with
  | .wb => { m with wb := l }
  | .rb => { m with rb := l }
  | .a => { m with a := l }
  | .b => { m with b := l }

/-- The byte an array holds at an index, if it has that element. -/
def Memory.byte (m : Memory) (sp : Space) (i : Nat) : Option Byte :=
  match cellsRead (m.cells sp) i with
  | some v => some v
  | none => sp.unlisted

/-- Put byte `v` at an index, keeping the canonical form: a value that an unlisted index reads as is
not listed. -/
def Memory.put (m : Memory) (sp : Space) (i : Nat) (v : Byte) : Memory :=
  m.setCells sp
    (if sp.unlisted = some v then cellsErase (m.cells sp) i else cellsInsert (m.cells sp) i v)

/-- A buffer of `n` elements lists the indexes `0 .. n-1`. -/
abbrev bufferWf (n : Nat) (l : List Host.Cell) : Prop := l.map Prod.fst = List.range n

/-- A plane of `n` elements lists rising indexes below `n`, none with the byte `0x00`. -/
abbrev planeWf (n : Nat) (l : List Host.Cell) : Prop :=
  (l.map Prod.fst).Pairwise (· < ·) ∧ ∀ c ∈ l, c.1 < n ∧ c.2 ≠ 0x00

/-- The canonical form of the memory (log 18). -/
abbrev Memory.wf (p : Params) (m : Memory) : Prop :=
  bufferWf p.wbufSize m.wb ∧ bufferWf p.rbufSize m.rb
    ∧ planeWf p.planeSize m.a ∧ planeWf p.planeSize m.b

/-- `MemRead(S, i, 1)` (R65) as the state holds it: the byte of element `i`, `none` where array `S`
has no such element (R66). -/
def State.byteAt (s : State) (sp : Space) (i : Nat) : Option Byte :=
  if sp.capacity s.cfg ≤ i then none else s.mem.byte sp i

/-- `MemWrite(S, i, 1, v)` (R65) on an element that exists. -/
def State.putByte (s : State) (sp : Space) (i : Nat) (v : Byte) : State :=
  { s with mem := s.mem.put sp i v }

/-! ### Faults -/

/-- Taking a fault (R198): `FAULT` is set to its kind with its record; the operation ends where it
stands, so nothing after it is done (R114). -/
def State.raise (s : State) (f : FaultRec) : State := { s with fault := some f }

/-- The fault of an access beyond an array (R66), with what it records (R197). -/
def overrun (sp : Space) (i : Nat) (code : Option Byte) : FaultRec :=
  match sp with
  | .wb => .bufferOverrun .wb i code
  | .rb => .bufferOverrun .rb i code
  | .a => .planeOverflow .a i
  | .b => .planeOverflow .b i

/-- Read element `i` of an array and go on with its byte, or raise the overrun (R65, R66). `code` is
the status code being handled, in a handler. -/
def State.load (s : State) (sp : Space) (i : Nat) (code : Option Byte) (k : Byte → Out) : Out :=
  match s.byteAt sp i with
  | some b => k b
  | none => .next (s.raise (overrun sp i code))

/-- Write element `i` of an array and go on, or raise the overrun (R65, R66). -/
def State.store (s : State) (sp : Space) (i : Nat) (v : Byte) (code : Option Byte)
    (k : State → Out) : Out :=
  match s.byteAt sp i with
  | some _ => k (s.putByte sp i v)
  | none => .next (s.raise (overrun sp i code))

/-! ### Register writes (`R <- v`, R16) -/

/-- `TS <- v`. -/
def State.setTs (s : State) (v : TxState) : State := { s with ts := v }

/-- `WL <- n`. -/
def State.setWl (s : State) (n : Nat) : State := { s with wl := n }

/-- `RL <- n`. -/
def State.setRl (s : State) (n : Nat) : State := { s with rl := n }

/-- `WC <- n`. -/
def State.setWc (s : State) (n : Nat) : State := { s with wc := n }

/-- `RC <- n`. -/
def State.setRc (s : State) (n : Nat) : State := { s with rc := n }

/-- `K <- n`. -/
def State.setK (s : State) (n : Nat) : State := { s with k := n }

/-- `RES <- v`. -/
def State.setRes (s : State) (v : Byte) : State := { s with res := v }

/-- `RBYTES <- l`. -/
def State.setRbytes (s : State) (l : List Byte) : State := { s with rbytes := l }

/-- `PIX <- n`. -/
def State.setPix (s : State) (n : Nat) : State := { s with pix := n }

/-- `INITD <- 1` (never cleared, R36). -/
def State.setInitd (s : State) : State := { s with initd := true }

/-! ### Foreground control -/

/-- Move FG to a phase (`FGPH <- P`, R16). -/
def State.goto (s : State) (ph : Phase) : State := { s with fgph := ph }

/-- FG takes up a request at the first phase of its operation (R141). -/
def State.start (s : State) (r : Request) (ph : Phase) : State :=
  { s with req := some r, fgph := ph }

/-- The idle phase (R142): `Ready` if `INITD = 1`, `Off` otherwise. -/
def State.idlePhase (s : State) : Phase := if s.initd then .ready else .off

/-- `return` (R142): the operation ends, FG goes to its idle phase. The results stand in `RES`,
`RBYTES` and the planes. No step that returns reads `TS`, an array or a sensor input (log 10). -/
def State.ret (s : State) : State := { s with fgph := s.idlePhase, req := none }

/-- The step has read shared state and what it read ends the operation: FG stays in its phase, and its
next step is the return (R142, log 10). -/
def State.returnNext (s : State) : State := { s with returning := true }

/-- That return step. -/
def State.returnNow (s : State) : State := { s.ret with returning := false }

/-! ### Controller commands (R154 to R163), each recorded as it is sent -/

/-- Record a command the block sends. -/
def State.emit (s : State) (w : CmdWord) (r : Option Byte) : State :=
  { s with cmdLog := s.cmdLog ++ [{ word := w, ret := r }] }

/-- `CLR_INT`: `SI <- 0` (R154). -/
def State.cmdClrInt (s : State) : State := { s.emit (cmdWord 0x0 0) none with si := false }

/-- `SET_STA`: `STA <- 1` (R155). -/
def State.cmdSetSta (s : State) : State := { s.emit (cmdWord 0x1 0) none with sta := true }

/-- `CLR_STA`: `STA <- 0` (R156). -/
def State.cmdClrSta (s : State) : State := { s.emit (cmdWord 0x2 0) none with sta := false }

/-- `SET_STO`: `STO <- 1` (R157). -/
def State.cmdSetSto (s : State) : State := { s.emit (cmdWord 0x3 0) none with sto := true }

/-- `SET_AA`: `AA <- 1` (R158). -/
def State.cmdSetAa (s : State) : State := { s.emit (cmdWord 0x4 0) none with aa := true }

/-- `CLR_AA`: `AA <- 0` (R159). -/
def State.cmdClrAa (s : State) : State := { s.emit (cmdWord 0x5 0) none with aa := false }

/-- `WR_DAT(b)`: `DAT <- b` (R160). -/
def State.cmdWrDat (s : State) (b : Byte) : State := { s.emit (cmdWord 0x6 b) none with dat := b }

/-- `RD_DAT` returns `DAT` and changes nothing (R161); the byte returned is in the record. -/
def State.cmdRdDat (s : State) : State := s.emit (cmdWord 0x7 0) (some s.dat)

/-- `RD_STS` returns `STS` and changes nothing (R162); the byte returned is in the record. -/
def State.cmdRdSts (s : State) : State := s.emit (cmdWord 0x8 0) (some s.sts)

/-- `CFG_EN(p)`: `PRESC <- p`, `EN <- 1`, `IEN <- 1` in one action (R163). -/
def State.cmdCfgEn (s : State) (p : Byte) : State :=
  { s.emit (cmdWord 0x9 p) none with presc := p, en := true, ien := true }

/-! ### What the host and the schedule lay down -/

/-- Accepting a request (R141, R94). EXECUTE and CAPTURE go to their first phase; INIT and HALT have
no phase of their own (R21), their one step is taken from the idle phase (log 9). -/
def State.accept (s : State) : Request → State
  | .init p => { s with req := some (.init p) }
  | .execute bytes wl rl => s.start (.execute bytes wl rl) .xCheck
  | .capture => s.start .capture .cInit
  | .halt => { s with req := some .halt }

end Sys2Proof.Machine
end

