-- ==== Sys2Proof/Machine/Controller.lean ====
section
/-!
DEFINITION. The environment agents: the base controller (R203, R204), the well-behaved controller
WBC and the responsive device as restrictions that a claim may assume by name (R205, R206), and the
sensor (R210).
-/

namespace Sys2Proof.Machine

/-- CTRL takes no step while `SI = 1` or while `EN = 0` (R203). -/
def State.ctrlFree (s : State) : Bool := s.en && !s.si

/-- CTRL's `CPH` after a report (R205): owned after the START of W1, free after arbitration loss. -/
def ownershipAfter (m : StatusMap) (sts : Byte) (c : Ownership) : Ownership :=
  if sts = m.startSent then .owned else if sts = m.arbLost then .free else c

/-- Whether the base controller may take a step (R203, R204). -/
def State.ctrlMay (s : State) : CtrlMove → Bool
  | .report _ _ _ => s.ctrlFree
  | .stop _ => s.ctrlFree && s.sto

/-- One step of the base controller (R204); a step it may not take is no step (log 12). `CPH` and
`LAST` follow every step as WBC's rows say (log 15). -/
def ctrlStep (c : CtrlMove) (s : State) : State :=
  if s.ctrlMay c then
    match c with
    | .report sts dat entry =>
      { s with
        sts := sts
        dat := dat.getD s.dat
        buslog := s.buslog ++ [entry]
        si := true
        last := sts
        cph := ownershipAfter s.cfg.statusMap sts s.cph }
    | .stop onBus =>
      { s with
        sto := false
        buslog := if onBus then s.buslog ++ [.stop] else s.buslog
        cph := .free }
  else s

/-- One step of the sensor (R210, R103): each signal given takes its level, the others keep theirs. -/
def sensorStep (fa la pclk : Option Bool) (d : Option Byte) (s : State) : State :=
  { s with
    fa := fa.getD s.fa
    la := la.getD s.la
    pclk := pclk.getD s.pclk
    d := d.getD s.d }

/-! ### The well-behaved controller (R205), row by row -/

/-- The rows of WBC's table. -/
inductive WbcRow where
  /-- W1. -/
  | start
  /-- W2. -/
  | address
  /-- W3. -/
  | dataOut
  /-- W4. -/
  | repStart
  /-- W5. -/
  | dataIn
  /-- W6. -/
  | stop
  /-- W7. -/
  | idleStop
  deriving DecidableEq, Repr

/-- The rows in the table's order. -/
def WbcRow.all : List WbcRow := [.start, .address, .dataOut, .repStart, .dataIn, .stop, .idleStop]

/-- This master owns the bus, the last report is one of `codes`, and no START or STOP is asked for but
the START that `sta` says. -/
def State.owning (s : State) (codes : List Byte) (sta : Bool) : Bool :=
  decide (s.cph = .owned) && decide (s.last ∈ codes) && decide (s.sta = sta) && !s.sto

/-- The condition of a row; every row requires `EN = 1` and `SI = 0`. -/
def WbcRow.enabled (r : WbcRow) (s : State) : Bool :=
  let m := s.cfg.statusMap
  s.ctrlFree && match r with
    | .start => decide (s.cph = .free) && s.sta && !s.sto
    | .address => s.owning [m.startSent, m.repstartSent] false
    | .dataOut => s.owning [m.slawAck, m.dataTxAck] false
    | .repStart => s.owning [m.slawAck, m.slawNack, m.dataTxAck, m.dataTxNack, m.slarAck,
        m.slarNack, m.dataRxAck, m.dataRxNack] true
    | .dataIn => s.owning [m.slarAck, m.dataRxAck] false
    | .stop => s.sto && decide (s.cph = .owned)
    | .idleStop => s.sto && decide (s.cph = .free)

/-- The choices of W2: the byte in `DAT` is the address byte. -/
def addressChoices (m : StatusMap) (a : Byte) : List CtrlMove :=
  (if readIntent a then
    [.report m.slarAck none (.tx a .ack), .report m.slarNack none (.tx a .nack)]
  else [.report m.slawAck none (.tx a .ack), .report m.slawNack none (.tx a .nack)])
    ++ [.report m.arbLost none .lost]

/-- The choices of W3. -/
def dataOutChoices (m : StatusMap) (b : Byte) : List CtrlMove :=
  [.report m.dataTxAck none (.tx b .ack), .report m.dataTxNack none (.tx b .nack),
    .report m.arbLost none .lost]

/-- The choices of W5 for a received byte `v`: `AA` decides the acknowledge. -/
def dataInChoices (m : StatusMap) (aa : Bool) (v : Byte) : List CtrlMove :=
  if aa then [.report m.dataRxAck (some v) (.rx v .ack)]
  else [.report m.dataRxNack (some v) (.rx v .nack), .report m.arbLost (some v) .lost]

/-- Whether a step is one of the choices of a row: its `STS`, its `DAT` and its `BUSLOG` entry. -/
def WbcRow.offers (r : WbcRow) (s : State) (c : CtrlMove) : Bool :=
  let m := s.cfg.statusMap
  match r with
  | .start => decide (c = .report m.startSent none .start)
  | .address => decide (c ∈ addressChoices m s.dat)
  | .dataOut => decide (c ∈ dataOutChoices m s.dat)
  | .repStart => decide (c = .report m.repstartSent none .repStart)
  | .dataIn =>
    match c with
    | .report _ (some v) _ => decide (c ∈ dataInChoices m s.aa v)
    | .report _ none _ => false
    | .stop _ => false
  | .stop => decide (c = .stop true)
  | .idleStop => decide (c = .stop false)

/-- The step takes the row: its condition holds and the step is one of its choices. -/
def WbcRow.takes (r : WbcRow) (s : State) (c : CtrlMove) : Bool := r.enabled s && r.offers s c

/-- The steps WBC may take (R205). In a state no row covers WBC takes none. -/
def State.wbcMay (s : State) (c : CtrlMove) : Bool := WbcRow.all.any fun r => r.takes s c

/-- The steps of `ResponsiveDevice` (R206): WBC's, but no refused byte and no lost arbitration. -/
def State.responsiveMay (s : State) (c : CtrlMove) : Bool :=
  s.wbcMay c && match c with
    | .report sts _ _ =>
      decide (sts ∉ [s.cfg.statusMap.slawNack, s.cfg.statusMap.dataTxNack,
        s.cfg.statusMap.slarNack, s.cfg.statusMap.arbLost])
    | .stop _ => true

end Sys2Proof.Machine
end

