-- ==== Sys2Proof/Machine/BusEvents.lean ====
section
/-!
DEFINITION. The twelve arms of the interrupt state machine (40_bus_events.md section 2), each from
the status code on: the invocation's `RD_STS` and the decoding come before it (`isrStep`, R110).
No arm reads `TS`, `FGPH` or `INITD` (R112); every arm that raises no fault ends with `CLR_INT`
(R113).
-/

namespace Sys2Proof.Machine

/-- `START_SENT` (R115). -/
def execStartSent (s : State) : Out :=
  let s := s.setWc 0
  s.load .wb s.wc (some s.sts) fun b =>
    let s := s.cmdWrDat b
    let s := s.setWc (s.wc + 1)
    .next (s.cmdClrSta.cmdClrInt.setTs .pending)

/-- `REPSTART_SENT` (R117). -/
def execRepstartSent (s : State) : Out :=
  let s := s.setRc 0
  let i := s.wc
  s.load .wb i (some s.sts) fun b =>
    .next ((s.cmdWrDat b).setWc (i + 1)).cmdClrSta.cmdClrInt

/-- `SLAW_ACK` (R119): no comparison of `WC` with `WL` (R120). -/
def execSlawAck (s : State) : Out :=
  let i := s.wc
  s.load .wb i (some s.sts) fun b =>
    .next ((s.cmdWrDat b).setWc (i + 1)).cmdClrInt

/-- `SLAW_NACK` (R121). -/
def execSlawNack (s : State) : Out :=
  .next (s.cmdSetSto.cmdClrInt.setTs .slaNack)

/-- `DATA_TX_ACK` (R123). -/
def execDataTxAck (s : State) : Out :=
  if s.wc < s.wl then
    let i := s.wc
    s.load .wb i (some s.sts) fun b =>
      .next ((s.cmdWrDat b).setWc (i + 1)).cmdClrInt
  else if 0 < s.rl then
    .next s.cmdSetSta.cmdClrInt
  else
    .next (s.cmdSetSto.cmdClrInt.setTs .ack)

/-- `DATA_TX_NACK` (R125). -/
def execDataTxNack (s : State) : Out :=
  .next (s.cmdSetSto.cmdClrInt.setTs .nack)

/-- `ARB_LOST` (R127): no STOP is issued. -/
def execArbLost (s : State) : Out :=
  .next (s.cmdClrInt.setTs .arbitrationLoss)

/-- `SLAR_ACK` (R128). -/
def execSlarAck (s : State) : Out :=
  let s := if s.rl = 1 then s.cmdClrAa else s.cmdSetAa
  .next s.cmdClrInt

/-- `SLAR_NACK` (R129). -/
def execSlarNack (s : State) : Out :=
  .next (s.cmdSetSto.cmdClrInt.setTs .slaNack)

/-- `DATA_RX_ACK` (R130): the read length is checked before the buffer (R196). -/
def execDataRxAck (s : State) : Out :=
  if s.rl = 0 then .next (s.raise (.readLengthZero s.sts s.rc))
  else
    let s := s.cmdRdDat
    let i := s.rc
    s.store .rb i s.dat (some s.sts) fun s =>
      let s := s.setRc (i + 1)
      let s := if s.rc < s.rl - 1 then s.cmdSetAa else s.cmdClrAa
      .next s.cmdClrInt

/-- `DATA_RX_NACK` (R132): `RL` is not read, `RC` advances. -/
def execDataRxNack (s : State) : Out :=
  let s := s.cmdRdDat
  let i := s.rc
  s.store .rb i s.dat (some s.sts) fun s =>
    .next ((s.setRc (i + 1)).cmdSetSto.cmdClrInt.setTs .ack)

/-- `UNRECOGNIZED` (R134): "clear the interrupt condition only; no state change". The code is not
used. -/
def execUnrecognized (_code : Byte) (s : State) : Out :=
  .next s.cmdClrInt

end Sys2Proof.Machine
end

