-- ==== Sys2Proof/Machine/Capture.lean ====
section
/-!
DEFINITION. The foreground operation CAPTURE (42_capture.md), one FG step in the phase `FGPH` stands
at (log 24). Every poll reads one sensor input (R67).
-/

namespace Sys2Proof.Machine

/-- The first sub-step of `sample()` (R177). -/
def Sub.first : PollOrder → Sub
  | .lowThenHigh => .waitLow
  | .highThenLow => .waitHigh

/-- One sub-step of `sample()` and the store that follows it (R177). `at_` puts FG at a sub-step of
the phase, `put v` is the store step of R178 or R179 (it says where FG goes when the sample is done
with the store), `after` the phase that follows the whole sample. -/
def sampleStep (sub : Sub) (at_ : Sub → Phase) (after : Phase) (put : Byte → Phase → Out)
    (s : State) : Out :=
  match s.cfg.pollOrder, sub with
  | .lowThenHigh, .waitLow => if s.pclk then .next s else .next (s.goto (at_ .waitHigh))
  | .lowThenHigh, .waitHigh => if s.pclk then .next (s.goto (at_ .readD)) else .next s
  | .lowThenHigh, .readD => .next (s.goto (at_ (.store s.d)))
  | .lowThenHigh, .store v => put v after
  | .highThenLow, .waitHigh => if s.pclk then .next (s.goto (at_ .readD)) else .next s
  | .highThenLow, .readD => .next (s.goto (at_ (.store s.d)))
  | .highThenLow, .store v => put v (at_ .waitLow)
  | .highThenLow, .waitLow => if s.pclk then .next s else .next (s.goto after)

/-- `C_SampleA(sub)` (R178). -/
def execCSampleA (sub : Sub) (s : State) : Out :=
  sampleStep sub .cSampleA (.cSampleB (Sub.first s.cfg.pollOrder))
    (fun v ph => s.store .a s.pix v none fun s => .next (s.goto ph)) s

/-- `C_SampleB(sub)` (R179): its store step also performs `PIX <- PIX + 1`. -/
def execCSampleB (sub : Sub) (s : State) : Out :=
  sampleStep sub .cSampleB .cPairHeadLA
    (fun v ph => s.store .b s.pix v none fun s => .next ((s.setPix (s.pix + 1)).goto ph)) s

/-- CAPTURE (R170 to R181). A head that finds the frame ended has read `FA`, so the return is a step of
its own (R142, log 10). -/
def execCapture (s : State) : Out :=
  match s.fgph with
  | .off => .next (s.start .capture .cInit)
  | .ready => .next (s.start .capture .cInit)
  | .cInit => .next ((s.setPix 0).goto .cWaitFrameEnd)
  | .cWaitFrameEnd => if s.fa then .next s else .next (s.goto .cWaitFrameStart)
  | .cWaitFrameStart => if s.fa then .next (s.goto .cLineHead) else .next s
  | .cLineHead =>
    if s.returning then .next s.returnNow
    else if s.fa then .next (s.goto .cWaitLineStart) else .next s.returnNext
  | .cWaitLineStart => if s.la then .next (s.goto .cPairHeadLA) else .next (s.goto .cLineHead)
  | .cPairHeadLA => if s.la then .next (s.goto .cPairHeadFA) else .next (s.goto .cWaitLineEnd)
  | .cPairHeadFA =>
    if s.returning then .next s.returnNow
    else if s.fa then .next (s.goto (.cSampleA (Sub.first s.cfg.pollOrder))) else .next s.returnNext
  | .cSampleA sub => execCSampleA sub s
  | .cSampleB sub => execCSampleB sub s
  | .cWaitLineEnd => if s.la then .next s else .next (s.goto .cLineHead)
  | .xCheck => .next s
  | .xLoad _ => .next s
  | .xArmTS => .next s
  | .xArmWC => .next s
  | .xArmRC => .next s
  | .xArmSta => .next s
  | .xWaitStart => .next s
  | .xTimeout => .next s
  | .xWaitTerm => .next s
  | .xCopy _ => .next s
  | .halted => .next s

end Sys2Proof.Machine
end

