-- ==== Sys2Proof/Machine/Commands.lean ====
section
/-!
DEFINITION. The ten controller commands as operations of their own (41_engine.md section 4): each is
its one action on the controller interface, the same action the arms and the engine perform.
-/

namespace Sys2Proof.Machine

/-- `CLR_INT` (R154). -/
def execClrInt (s : State) : Out := .next s.cmdClrInt

/-- `SET_STA` (R155). -/
def execSetSta (s : State) : Out := .next s.cmdSetSta

/-- `CLR_STA` (R156). -/
def execClrSta (s : State) : Out := .next s.cmdClrSta

/-- `SET_STO` (R157). -/
def execSetSto (s : State) : Out := .next s.cmdSetSto

/-- `SET_AA` (R158). -/
def execSetAa (s : State) : Out := .next s.cmdSetAa

/-- `CLR_AA` (R159). -/
def execClrAa (s : State) : Out := .next s.cmdClrAa

/-- `WR_DAT(b)` (R160). -/
def execWrDat (b : Byte) (s : State) : Out := .next (s.cmdWrDat b)

/-- `RD_DAT` (R161). -/
def execRdDat (s : State) : Out := .next s.cmdRdDat

/-- `RD_STS` (R162). -/
def execRdSts (s : State) : Out := .next s.cmdRdSts

/-- `CFG_EN(p)` (R163). -/
def execCfgEn (p : Byte) (s : State) : Out := .next (s.cmdCfgEn p)

end Sys2Proof.Machine
end

