-- ==== Sys2Proof/Machine/Engine.lean ====
section
/-!
DEFINITION. The foreground operations INIT, EXECUTE and HALT (41_engine.md). The meaning of a
foreground operation is ONE FG step of it, in the phase `FGPH` stands at (log 24): in an idle phase
the first thing it does, in a phase of its own that phase's step, in any other phase nothing, for
there it would be refused (R200).
-/

namespace Sys2Proof.Machine

/-- INIT (R140): one step, from an idle phase; it returns in it (log 10). -/
def execInit (prescale : Byte) (s : State) : Out :=
  match s.fgph.idle with
  | true =>
    if s.initd then .next (s.raise (.initTwice (.init prescale)))
    else
      .next (s.cmdCfgEn prescale).setInitd.ret
  | false => .next s

/-! ### The phases of EXECUTE -/

/-- The verdict of `X_Check` on the first byte (R143): on to the load steps, or `Rejected` and
`leave`. -/
def execXVerdict (bytes : List Byte) (wl rl : Nat) (leave : State → State) (s : State) (b0 : Byte) :
    Out :=
  if admissible s.cfg bytes wl rl b0 then .next (s.goto (.xLoad 0))
  else .next (leave ((s.setRes rejectedCode).setRbytes []))

/-- `X_Check` (R143). The read of `WB[0]` when no bytes are given is the one shared read; a rejection
after it returns in a step of its own, since the step that returns performs no shared access (R142,
log 10). -/
def execXCheck (bytes : List Byte) (wl rl : Nat) (s : State) : Out :=
  if s.initd then
    match bytes with
    | b0 :: _ => execXVerdict bytes wl rl State.ret s b0
    | [] => s.load .wb 0 none (execXVerdict [] wl rl State.returnNext s)
  else .next (s.raise (.notInitialized (.execute bytes wl rl)))

/-- `X_Load(i)` (R144, R167): `WB[i] <- bytes[i]` for each byte, then `WL <- wl`, then `RL <- rl`. -/
def execXLoad (bytes : List Byte) (wl rl i : Nat) (s : State) : Out :=
  if h : i < bytes.length then
    s.store .wb i bytes[i] none fun s => .next (s.goto (.xLoad (i + 1)))
  else if i = bytes.length then .next ((s.setWl wl).goto (.xLoad (i + 1)))
  else .next ((s.setRl rl).goto .xArmTS)

/-- `X_WaitStart`, one poll (R147). -/
def execXWaitStart (s : State) : Out :=
  if s.ts = .pending then .next (s.goto .xWaitTerm)
  else
    let s := s.setK (s.k + 1)
    if s.cfg.startTimeoutPolls ≤ s.k then .next (s.goto .xTimeout) else .next s

/-- `X_Timeout` (R148): a command and the return in one step, as in program P4 (log 10). -/
def execXTimeout (s : State) : Out :=
  .next ((s.cmdSetSto.setRes timeoutCode).setRbytes []).ret

/-- `X_WaitTerm`, one poll (R149). -/
def execXWaitTerm (s : State) : Out :=
  if s.ts.terminal then .next ((s.setRes s.ts.code).goto (.xCopy 0)) else .next s

/-- `X_Copy(j)` (R150): `RBYTES[j] <- RB[j]` for `j < RL`; past the last, or at once when `RL = 0`,
the return, with `RBYTES` of length `RL` (log 19). The bound is the register `RL` (log 21). -/
def execXCopy (j : Nat) (s : State) : Out :=
  if j < s.rl then
    s.load .rb j none fun b => .next
      ((s.setRbytes (s.rbytes.take j ++ [b])).goto (.xCopy (j + 1)))
  else .next (s.setRbytes (s.rbytes.take s.rl)).ret

/-- EXECUTE (R143 to R150, R167). -/
def execExecute (bytes : List Byte) (wl rl : Nat) (s : State) : Out :=
  match s.fgph with
  | .off => .next (s.start (.execute bytes wl rl) .xCheck)
  | .ready => .next (s.start (.execute bytes wl rl) .xCheck)
  | .xCheck => if s.returning then .next s.returnNow else execXCheck bytes wl rl s
  | .xLoad i => execXLoad bytes wl rl i s
  | .xArmTS => .next ((s.setTs .idle).goto .xArmWC)
  | .xArmWC => .next ((s.setWc 0).goto .xArmRC)
  | .xArmRC => .next ((s.setRc 0).goto .xArmSta)
  | .xArmSta => .next ((s.setK 0).cmdSetSta.goto .xWaitStart)
  | .xWaitStart => execXWaitStart s
  | .xTimeout => execXTimeout s
  | .xWaitTerm => execXWaitTerm s
  | .xCopy j => execXCopy j s
  | .cInit => .next s
  | .cWaitFrameEnd => .next s
  | .cWaitFrameStart => .next s
  | .cLineHead => .next s
  | .cWaitLineStart => .next s
  | .cPairHeadLA => .next s
  | .cPairHeadFA => .next s
  | .cSampleA _ => .next s
  | .cSampleB _ => .next s
  | .cWaitLineEnd => .next s
  | .halted => .next s

/-- HALT (R153): one step, from an idle phase. -/
def execHalt (s : State) : Out :=
  match s.fgph.idle with
  | true => .next { s with halted := true, fgph := .halted, req := none }
  | false => .next s

end Sys2Proof.Machine
end

