-- ==== Sys2Proof/Machine/Dispatch.lean ====
section
/-!
DEFINITION. One arm per constructor of Instr, each one direct call of its meaning.
-/

namespace Sys2Proof.Machine

def exec (i : Instr) (s : State) : Host.Outcome State Fault Refusal :=
  match i with
  | .startSent => Sys2Proof.Machine.execStartSent s
  | .repstartSent => Sys2Proof.Machine.execRepstartSent s
  | .slawAck => Sys2Proof.Machine.execSlawAck s
  | .slawNack => Sys2Proof.Machine.execSlawNack s
  | .dataTxAck => Sys2Proof.Machine.execDataTxAck s
  | .dataTxNack => Sys2Proof.Machine.execDataTxNack s
  | .arbLost => Sys2Proof.Machine.execArbLost s
  | .slarAck => Sys2Proof.Machine.execSlarAck s
  | .slarNack => Sys2Proof.Machine.execSlarNack s
  | .dataRxAck => Sys2Proof.Machine.execDataRxAck s
  | .dataRxNack => Sys2Proof.Machine.execDataRxNack s
  | .unrecognized code => Sys2Proof.Machine.execUnrecognized code s
  | .clrInt => Sys2Proof.Machine.execClrInt s
  | .setSta => Sys2Proof.Machine.execSetSta s
  | .clrSta => Sys2Proof.Machine.execClrSta s
  | .setSto => Sys2Proof.Machine.execSetSto s
  | .setAa => Sys2Proof.Machine.execSetAa s
  | .clrAa => Sys2Proof.Machine.execClrAa s
  | .wrDat b => Sys2Proof.Machine.execWrDat b s
  | .rdDat => Sys2Proof.Machine.execRdDat s
  | .rdSts => Sys2Proof.Machine.execRdSts s
  | .cfgEn p => Sys2Proof.Machine.execCfgEn p s
  | .init prescale => Sys2Proof.Machine.execInit prescale s
  | .execute bytes wl rl => Sys2Proof.Machine.execExecute bytes wl rl s
  | .capture => Sys2Proof.Machine.execCapture s
  | .halt => Sys2Proof.Machine.execHalt s

end Sys2Proof.Machine
end

