-- ==== Sys2Proof/Machine/Agents.lean ====
section
/-!
DEFINITION. The steps of the agents (00_scope.md section 3) and what the machine does next: the
fetch of each format (STS for a status code, the accepted request for a foreground operation, the
command port for a command word) and its execution.
-/

namespace Sys2Proof.Machine

/-- A host request (R94, R141, R200): accepted when FG accepts one and the operation code is not
reserved; else refused, and no state changes. -/
def hostRequest (code : BitVec 4) (args : FgArgs) (s : State) : State :=
  match decodeFgop code args with
  | .error _ => s
  | .ok i =>
    match Request.ofInstr i with
    | none => s
    | some r => if s.accepting then s.accept r else s

/-- One FG step: the operation FG runs takes its step. With no operation (idle or halted) or after a
fault FG has no step (R198, R153). -/
def fgStep (s : State) : Out :=
  match s.req, s.fault with
  | some r, none => exec r.instr s
  | some _, some _ => .next s
  | none, _ => .next s

/-- One ISR invocation (R110), where it is enabled: `RD_STS`, decode, the arm. -/
def isrStep (s : State) : Out :=
  if s.isrEnabled then exec (decodeStatus s.cfg.statusMap s.sts) s.cmdRdSts else .next s

/-- A move of the trace (R103). -/
def perform (m : Move) (s : State) : Out :=
  match m with
  | .op code args => .next (hostRequest code args s)
  | .fg => fgStep s
  | .isr => isrStep s
  | .ctrl c => .next (ctrlStep c s)
  | .sensor fa la pclk d => .next (sensorStep fa la pclk d s)

/-- The next move: the first of the script, or the next free move where the script is empty. -/
def nextMove (s : State) : Move :=
  match s.script with
  | m :: _ => m
  | [] => Config.freeMove s.tick

/-- The state once the next move has been taken off. -/
def afterMove (s : State) : State :=
  match s.script with
  | _ :: rest => { s with script := rest }
  | [] => { s with tick := s.tick + 1 }

/-- A command word at the controller interface (log 3): the command, or nothing for a reserved word,
which "a CTRL model may treat … as absent" (R92, log 20). -/
def portStep (w : CmdWord) (s : State) : Out :=
  match decodeCmd w with
  | .ok i => exec i { s with cmdPort := none }
  | .error _ => .next { s with cmdPort := none }

/-- What the machine does in one step. -/
def advance (s : State) : Out :=
  match s.cmdPort with
  | some w => portStep w s
  | none => perform (nextMove s) (afterMove s)

/-- Lay a code where its format is fetched, and let the next step be the one that runs it (log 2): a
command word at the port; a status code in `STS` with the interrupt requested; an operation as a
request that FG accepts, with FG's step next. Other words change nothing. -/
def layCode (c : Code) (s : State) : State :=
  match c with
  | .cmd w => { s with cmdPort := some w }
  | .status code =>
    { s with sts := code, si := true, en := true, ien := true, fault := none, cmdPort := none,
             script := .isr :: s.script }
  | .fgop op args =>
    match decodeFgop op args with
    | .error _ => s
    | .ok i =>
      match Request.ofInstr i with
      | none => s
      | some r =>
        { s with fgph := s.idlePhase, returning := false, fault := none, cmdPort := none,
                 script := .fg :: s.script }.accept r

end Sys2Proof.Machine
end

