-- ==== Sys2Proof/Machine/Step.lean ====
section
/-!
DEFINITION. The step of the machine, and the host's way to place a table word where the next step
runs it.
-/

namespace Sys2Proof.Machine

/-- One step: the command at the port, else the next move of the trace. -/
def step (s : State) : Host.Outcome State Fault Refusal := advance s

/-- `s` with the table word laid where it is fetched, its step next (log 2, log 16). -/
def State.withFetchWord (s : State) (nbits w : Nat) : State :=
  match tableCode nbits w with
  | some c => layCode c s
  | none => s

end Sys2Proof.Machine
end

