-- ==== Sys2Proof/Safety.lean ====
section
/-!
DEFINITION. What claims are about: the end of a run (R212), runs, and the named premises of
60_exceptions.md that a claim may assume (R193, R205 to R207, R210); none of them restrains the step.
-/

namespace Sys2Proof

open Sys2Proof.Machine

/-- The state `n` steps on; every step of this machine has a next state, so the other cases do not
arise. -/
def stateAfter : Nat → State → State
  | 0, s => s
  | n + 1, s =>
    match step s with
    | .next t => stateAfter n t
    | .fault _ => s
    | .refused _ => s

/-- Meanings in sequence, each from the state the one before left. -/
def execSeq : List Instr → State → Out
  | [], s => .next s
  | i :: is, s =>
    match exec i s with
    | .next t => execSeq is t
    | .fault f => .fault f
    | .refused r => .refused r

/-! ### What a step of a run is -/

/-- The next step performs the move `m`. -/
def Machine.State.moves (s : State) (m : Move) : Bool :=
  s.cmdPort.isNone && decide (nextMove s = m)

/-- The next step is an FG step of an operation (R141, R198). -/
def Machine.State.fgMoves (s : State) : Bool := s.moves .fg && s.req.isSome && s.fault.isNone

/-- The next step is an ISR invocation (R110). -/
def Machine.State.isrMoves (s : State) : Bool := s.moves .isr && s.isrEnabled

/-- The next step is an ISR invocation that runs the arm `i`. -/
def Machine.State.runsArm (s : State) (i : Instr) : Bool :=
  s.isrMoves && decide (decodeStatus s.cfg.statusMap s.sts = i)

/-- The next step is an FG step in the phase `ph`. -/
def Machine.State.fgMovesIn (s : State) (ph : Phase) : Bool := s.fgMoves && decide (s.fgph = ph)

/-! ### The end of a run (R212) -/

/-- A host request. -/
def Move.isRequest : Move → Bool
  | .op _ _ => true
  | .fg => false
  | .isr => false
  | .ctrl _ => false
  | .sensor _ _ _ _ => false

/-- No step of the run from here on is a host request (log 25). -/
def NoFurtherRequest (s : State) : Prop :=
  ∀ n m, (stateAfter n s).moves m = true → m.isRequest = false

/-- FG stands in `Off` or `Ready` with no step to come: no operation waits for its step there, or a
fault has ended it (R198). -/
def Machine.State.atRest (s : State) : Bool := s.fgph.idle && (s.req.isNone || s.fault.isSome)

/-- A final state (R212). -/
def Machine.State.final (s : State) : Prop :=
  (s.atRest = true ∧ NoFurtherRequest s) ∨ s.fgph = .halted

/-- A successful end (R212): final, `FAULT = none` and `HALTED = 0`. -/
def Machine.State.successful (s : State) : Prop := s.final ∧ s.fault = none ∧ s.halted = false

/-! ### The schedule and the controller -/

/-- Weak fairness for the handler (R193, log 17): an invocation that stays enabled is eventually
taken. -/
def HandlerFair (s : State) : Prop :=
  ∀ n, ∃ m, n ≤ m ∧
    ((stateAfter m s).isrEnabled = false ∨ (stateAfter m s).isrMoves = true)

/-- Weak fairness for WBC (R205, log 17): a row that stays enabled is eventually taken. -/
def WbcFair (s : State) : Prop :=
  ∀ (r : WbcRow) (n : Nat), ∃ m, n ≤ m ∧
    (r.enabled (stateAfter m s) = false ∨
      ∃ c, (stateAfter m s).moves (.ctrl c) = true ∧ r.takes (stateAfter m s) c = true)

/-- CTRL follows WBC (R205): each of its steps takes a row, and it is weakly fair. -/
def WellBehaved (s : State) : Prop :=
  (∀ n c, (stateAfter n s).moves (.ctrl c) = true → (stateAfter n s).wbcMay c = true) ∧ WbcFair s

/-- `ResponsiveDevice` (R206): CTRL follows WBC and never chooses a refused byte or a lost
arbitration. -/
def ResponsiveDevice (s : State) : Prop :=
  WellBehaved s ∧
    ∀ n c, (stateAfter n s).moves (.ctrl c) = true → (stateAfter n s).responsiveMay c = true

/-! ### `StartWithin` (R207, log 23) -/

/-- The next step is a CTRL step that takes W1. -/
def Machine.State.startsBus (s : State) : Prop :=
  ∃ c, s.moves (.ctrl c) = true ∧ WbcRow.start.takes s c = true

/-- The next step is an invocation of a terminal arm: one that writes a terminal value to `TS`. -/
def Machine.State.runsTerminalArm (s : State) : Bool :=
  s.runsArm .slawNack || s.runsArm .dataTxNack || s.runsArm .arbLost || s.runsArm .slarNack
    || s.runsArm .dataRxNack
    || (s.runsArm .dataTxAck && decide (s.wl ≤ s.wc) && decide (s.rl = 0))

/-- The next step is a poll of `X_WaitStart` that reads `Pending`. -/
def Machine.State.pollsPending (s : State) : Bool :=
  s.fgMovesIn .xWaitStart && decide (s.ts = .pending)

/-- How many polls of `X_WaitStart` the steps `n + 1` to `q - 1` of the run are. -/
def pollsBetween (s : State) (n q : Nat) : Nat :=
  (List.range q).countP fun m => decide (n < m) && (stateAfter m s).fgMovesIn .xWaitStart

/-- `StartWithin` of a run (R207): after each `X_ArmSta` step `n` W1 and the `START_SENT` invocation
both happen before FG has completed `START_TIMEOUT_POLLS - 1` polls, and no terminal arm runs before
FG's first poll that reads `Pending`. -/
def StartWithin (s : State) : Prop :=
  ∀ n, (stateAfter n s).fgMovesIn .xArmSta = true →
    (∃ p q, n < p ∧ p < q ∧ (stateAfter p s).startsBus
      ∧ (stateAfter q s).runsArm .startSent = true
      ∧ pollsBetween s n q + 1 < s.cfg.startTimeoutPolls)
    ∧ ∀ m, n < m → (stateAfter m s).runsTerminalArm = true →
      ∃ p, n < p ∧ p < m ∧ (stateAfter p s).pollsPending = true

/-! ### `SamplerKeepsUp` (R210, R231, log 23) -/

/-- The sub-step of `sample()` FG is in, if any: FG is within a pixel pair. -/
def Machine.Phase.sub : Phase → Option Sub
  | .cSampleA sub => some sub
  | .cSampleB sub => some sub
  | _ => none

/-- The sub-step of `sample()` that waits for a level of the clock (R177). -/
def Machine.Sub.waitFor : Bool → Sub
  | true => .waitHigh
  | false => .waitLow

/-- CAPTURE is past its wait for the end of a frame in progress: the phases of the frame to be captured
(R173). -/
def Machine.Phase.inFrame : Phase → Bool
  | .cWaitFrameStart => true
  | .cLineHead => true
  | .cWaitLineStart => true
  | .cPairHeadLA => true
  | .cPairHeadFA => true
  | .cSampleA _ => true
  | .cSampleB _ => true
  | .cWaitLineEnd => true
  | _ => false

/-- The sampler is at work on the frame to be captured: no step has ended it (R142, R198). -/
def Machine.State.inFrame (s : State) : Bool :=
  s.fgph.inFrame && !s.returning && s.fault.isNone

/-- The next step is a poll of a sampler wait for the level of the clock, and reads that level. -/
def Machine.State.readsLevel (s : State) (level : Bool) : Bool :=
  s.fgMoves && decide (s.fgph.sub = some (Sub.waitFor level)) && decide (s.pclk = level)

/-- The next step is the sampler's read of `D`. -/
def Machine.State.readsData (s : State) : Bool := s.fgMoves && decide (s.fgph.sub = some .readD)

/-- Step `m` of the run gives the clock this level. -/
def clockTakes (s : State) (m : Nat) (level : Bool) : Prop :=
  (stateAfter m s).pclk ≠ level ∧ (stateAfter (m + 1) s).pclk = level

/-- From step `m` up to step `p` of the run the clock keeps a level and the sampler stays in the frame,
and step `p` is a poll of a sampler wait for that level. -/
def keepsLevelUntilRead (s : State) (m p : Nat) (level : Bool) : Prop :=
  (stateAfter p s).readsLevel level = true ∧
    ∀ q, m < q → q ≤ p → (stateAfter q s).pclk = level ∧ (stateAfter q s).inFrame = true

/-- Part (i): every level the clock takes in the frame is read by a poll of a sampler wait for it. The
high level of every rising edge (step `m`) is read, whatever follows; a low level (taken at step `m`)
is read if a rising edge (step `n`) follows it in the frame. Where the sampler waits for the low level
first, the low level before every rising edge is read, since before the frame too. -/
def EveryLevelIsRead (s : State) : Prop :=
  (∀ m, clockTakes s m true → (stateAfter m s).inFrame = true →
    ∃ p, m < p ∧ keepsLevelUntilRead s m p true)
  ∧ (∀ m n, m < n → clockTakes s m false → clockTakes s n true →
    (∀ q, m < q → q ≤ n → (stateAfter q s).pclk = false) →
    (∀ q, m ≤ q → q ≤ n → (stateAfter q s).inFrame = true) →
    ∃ p, m < p ∧ p < n ∧ keepsLevelUntilRead s m p false)
  ∧ (s.cfg.pollOrder = .lowThenHigh → ∀ n, clockTakes s n true →
    (stateAfter n s).inFrame = true →
    ∃ p, p < n ∧ (stateAfter p s).readsLevel false = true ∧
      ∀ q, p ≤ q → q ≤ n → (stateAfter q s).pclk = false ∧ (stateAfter q s).inFrame = true)

/-- Part (ii): `D` does not change between a rising edge and the sampler's read of `D` for it. The
edge is step `m`, the poll that finds it `p`, the read that follows `r`. -/
def DataHeldUntilRead (s : State) : Prop :=
  ∀ m p r, m < p → p < r → clockTakes s m true →
    (∀ q, m < q → q ≤ p → (stateAfter q s).pclk = true) →
    (stateAfter p s).readsLevel true = true → (stateAfter r s).readsData = true →
    (∀ q, p < q → q < r → (stateAfter q s).fgMoves = false) →
    ∀ q, m < q → q ≤ r → (stateAfter q s).d = (stateAfter (m + 1) s).d

/-- Part (iii): the frame and line signals change outside pixel pairs only. -/
def FramingOutsidePairs (s : State) : Prop :=
  ∀ n, ((stateAfter (n + 1) s).fa ≠ (stateAfter n s).fa
      ∨ (stateAfter (n + 1) s).la ≠ (stateAfter n s).la) →
    (stateAfter n s).fgph.sub = none

/-- `SamplerKeepsUp` of a run (R210). -/
def SamplerKeepsUp (s : State) : Prop :=
  EveryLevelIsRead s ∧ DataHeldUntilRead s ∧ FramingOutsidePairs s

/-! ### The vocabulary of the statements -/

/-- The record of a command that returns nothing. -/
abbrev sent (w : CmdWord) : CmdRecord := { word := w, ret := none }

/-- The record of a read command with the byte it returned. -/
abbrev readBack (w : CmdWord) (b : Byte) : CmdRecord := { word := w, ret := some b }

/-- The twelve arms of the interrupt state machine. -/
def Instr.isArm : Instr → Bool
  | .startSent => true
  | .repstartSent => true
  | .slawAck => true
  | .slawNack => true
  | .dataTxAck => true
  | .dataTxNack => true
  | .arbLost => true
  | .slarAck => true
  | .slarNack => true
  | .dataRxAck => true
  | .dataRxNack => true
  | .unrecognized _ => true
  | _ => false

/-- The four foreground operations. -/
def Instr.isForeground (i : Instr) : Bool := (Request.ofInstr i).isSome

/-- The ten controller commands. -/
def Instr.isCommand (i : Instr) : Bool := !i.isArm && !i.isForeground

/-- The bytes the block has written to `DAT`, oldest first: the operands of its `WR_DAT` commands. -/
def Machine.State.sentBytes (s : State) : List Byte :=
  s.cmdLog.filterMap fun r => if cmdId r.word = 0x6 then some (cmdOpnd r.word) else none

/-- A read phase: the bytes arrive in `DAT` one after another, each but the last with ACK returned,
the last with NOT ACK. -/
def receiveSeq : List Byte → State → Out
  | [], s => .next s
  | [v], s => exec .dataRxNack { s with dat := v }
  | v :: w :: vs, s =>
    match exec .dataRxAck { s with dat := v } with
    | .next t => receiveSeq (w :: vs) t
    | .fault f => .fault f
    | .refused r => .refused r

/-- `n` polls of the post-START wait (R147). -/
def pollSeq (bytes : List Byte) (wl rl n : Nat) (s : State) : Out :=
  execSeq (List.replicate n (.execute bytes wl rl)) s

/-! ### Invariants -/

/-- The phases of EXECUTE. -/
def Machine.Phase.inEngine : Phase → Bool
  | .xCheck => true
  | .xLoad _ => true
  | .xArmTS => true
  | .xArmWC => true
  | .xArmRC => true
  | .xArmSta => true
  | .xWaitStart => true
  | .xTimeout => true
  | .xWaitTerm => true
  | .xCopy _ => true
  | _ => false

/-- The phases of CAPTURE. -/
def Machine.Phase.inCapture : Phase → Bool
  | .cInit => true
  | .cWaitFrameEnd => true
  | .cWaitFrameStart => true
  | .cLineHead => true
  | .cWaitLineStart => true
  | .cPairHeadLA => true
  | .cPairHeadFA => true
  | .cSampleA _ => true
  | .cSampleB _ => true
  | .cWaitLineEnd => true
  | _ => false

/-- The phase FG stands at is one of the operation it runs (R21, R141). -/
def phaseFits : Phase → Option Request → Bool
  | ph, some (.execute _ _ _) => ph.inEngine
  | ph, some .capture => ph.inCapture
  | ph, some (.init _) => ph.idle
  | ph, some .halt => ph.idle
  | ph, none => ph.idle || decide (ph = .halted)

/-- The control of the block is consistent: FG's phase belongs to its operation, `Ready` and the
engine past its check mean INIT has run, the enables are up exactly when it has (R36, R41, R142,
R143), a return is due only after a check or a head (R142), `HALTED` marks the phase `Halted` (R153), an interrupt is pending only from an enabled
controller (R203), and no command word was laid at the port from outside (log 3). -/
structure Machine.State.ControlOk (s : State) : Prop where
  port    : s.cmdPort = none
  fits    : phaseFits s.fgph s.req = true
  off     : s.fgph = .off → s.initd = false
  ready   : s.fgph = .ready → s.initd = true
  engine  : s.fgph.inEngine = true → s.fgph ≠ .xCheck → s.initd = true
  en      : s.en = s.initd
  ien     : s.ien = s.initd
  pending : s.si = true → s.en = true
  halted  : s.halted = true ↔ s.fgph = .halted
  returns : s.returning = true → s.fgph ∈ [.xCheck, .cLineHead, .cPairHeadFA]

/-- Lengths and cursors stay within the arrays (R27, R29, R66, R143), the poll counter below its
bound while FG polls (R147), and `RES` is a code EXECUTE returns (R151). -/
structure Machine.State.BoundsOk (s : State) : Prop where
  polls  : 1 ≤ s.cfg.startTimeoutPolls
  wl     : s.wl ≤ s.cfg.wbufSize
  rl     : s.rl ≤ s.cfg.rbufSize
  wc     : s.wc ≤ s.cfg.wbufSize
  rc     : s.rc ≤ s.cfg.rbufSize
  pix    : s.pix ≤ s.cfg.planeSize
  k      : s.fgph = .xWaitStart → s.k < s.cfg.startTimeoutPolls
  loaded : ∀ bytes wl rl, s.req = some (.execute bytes wl rl) → s.fgph.inEngine = true →
    s.fgph ≠ .xCheck →
    bytes.length ≤ s.cfg.wbufSize ∧ wl ≤ s.cfg.wbufSize ∧ rl ≤ s.cfg.rbufSize
  res    : s.res ∈ [0x00, 0x03, 0x04, 0x05, 0x06, 0x07]

end Sys2Proof
end

