-- ==== Sys2Proof/Certificates/Slice0/Obligations.lean ====
section
/-!
DEFINITION. The statements for the provers. `t` is the state after; `byteAt` is the model's read of
one element of an array. `cmdLog` is the model's own record of the commands sent (log 4), the
"commands" columns of 95_test_vectors.md.
-/

open Sys2Proof Sys2Proof.Machine

/-! ### Encodings -/

/-- R87, R92, R94: encoding a well-formed operation and decoding it again gives the operation, with
every operand, under every allowed STATUS_MAP. -/
def Obligations.DecodeOfEncodeIsIdentity : Prop :=
  ∀ (m : StatusMap) (i : Instr), m.wf → i.wellFormed m = true → decode m (encode m i) = .ok i

/-- R92: a command word that decodes is the word the encoder gives for that command. -/
def Obligations.DecodedCommandEncodesBack : Prop :=
  ∀ (m : StatusMap) (w : CmdWord) (i : Instr), decodeCmd w = .ok i → encode m i = .cmd w

/-- A word of each format, written out from the tables of R87, R92 and R94. -/
def Obligations.WordsFromTheTablesDecode : Prop :=
  decodeStatus StatusMap.default 0x28 = .dataTxAck
    ∧ decodeStatus StatusMap.default 0xF8 = .unrecognized 0xF8
    ∧ decodeCmd 0x60A1 = .ok (.wrDat 0xA1)
    ∧ decodeCmd 0x9020 = .ok (.cfgEn 0x20)
    ∧ decodeFgop 0x2 { prescale := 0, bytes := [0xA0], wl := 1, rl := 0 }
        = .ok (.execute [0xA0] 1 0)

/-- R88: the decoder gives each mapped code its tag and every other code `UNRECOGNIZED`. -/
def Obligations.StatusDecoderFollowsTheMap : Prop :=
  ∀ (m : StatusMap), m.wf → ∀ c : Byte,
    (decodeStatus m c = .startSent ↔ c = m.startSent)
    ∧ (decodeStatus m c = .repstartSent ↔ c = m.repstartSent)
    ∧ (decodeStatus m c = .slawAck ↔ c = m.slawAck)
    ∧ (decodeStatus m c = .slawNack ↔ c = m.slawNack)
    ∧ (decodeStatus m c = .dataTxAck ↔ c = m.dataTxAck)
    ∧ (decodeStatus m c = .dataTxNack ↔ c = m.dataTxNack)
    ∧ (decodeStatus m c = .arbLost ↔ c = m.arbLost)
    ∧ (decodeStatus m c = .slarAck ↔ c = m.slarAck)
    ∧ (decodeStatus m c = .slarNack ↔ c = m.slarNack)
    ∧ (decodeStatus m c = .dataRxAck ↔ c = m.dataRxAck)
    ∧ (decodeStatus m c = .dataRxNack ↔ c = m.dataRxNack)
    ∧ (decodeStatus m c = .unrecognized c ↔ c ∉ m.codes)

/-- R95: a request with a reserved operation code is refused, and no state changes. -/
def Obligations.ReservedOperationIsRefused : Prop :=
  ∀ (op : BitVec 4) (args : FgArgs) (s : State), (op = 0 ∨ 5 ≤ op.toNat) →
    decodeFgop op args = .error .reservedOp ∧ perform (.op op args) s = .next s

/-! ### The step -/

/-- The bytes each format is fetched from decode to an operation, and the step is `exec` of it: a
handler invocation, enabled when `IRQ = 1` and `FAULT = none`, sends `RD_STS` first (R110); an FG step runs the accepted request; a command word
at the port (log 3) is taken off it. The step takes the move off the script (log 1). -/
def Obligations.StepRunsTheDecodedOperation : Prop :=
  (∀ (s : State) (rest : List Move) (i : Instr), s.cmdPort = none → s.script = .isr :: rest →
    s.si = true → s.en = true → s.ien = true → s.fault = none → decodeStatus s.cfg.statusMap s.sts = i →
    step s = exec i { s with script := rest, cmdLog := s.cmdLog ++ [readBack 0x8000 s.sts] })
  ∧ (∀ (s : State) (rest : List Move) (r : Request), s.cmdPort = none → s.script = .fg :: rest →
    s.fault = none → s.req = some r → step s = exec r.instr { s with script := rest })
  ∧ (∀ (s : State) (w : CmdWord) (i : Instr), s.cmdPort = some w → decodeCmd w = .ok i →
    step s = exec i { s with cmdPort := none })

/-- Every step has a next state: nothing the spec describes stops the machine as a whole. -/
def Obligations.EveryStepHasANextState : Prop :=
  ∀ s : State, ∃ t, step s = .next t

/-- R220, R221: the state after reset, at the values the spec gives. -/
def Obligations.ResetStateIsAsSpecified : Prop :=
  let s := State.reset
  s.fgph = .off ∧ s.ts = .idle ∧ s.wl = 0 ∧ s.rl = 0 ∧ s.wc = 0 ∧ s.rc = 0 ∧ s.k = 0
    ∧ s.res = 0x00 ∧ s.rbytes = [] ∧ s.initd = false ∧ s.halted = false
    ∧ (∀ i, i < s.cfg.planeSize → s.byteAt .a i = some 0x00 ∧ s.byteAt .b i = some 0x00)
    ∧ s.pix = 0 ∧ s.en = false ∧ s.ien = false ∧ s.si = false ∧ s.sta = false ∧ s.sto = false
    ∧ s.aa = false ∧ s.fault = none ∧ s.buslog = [] ∧ s.cph = .free
    ∧ s.isrEnabled = false ∧ (∀ c, s.ctrlMay c = false)

/-! ### Memory -/

/-- R66: an array has exactly the elements below its capacity. -/
def Obligations.ElementsAreThoseBelowCapacity : Prop :=
  ∀ (s : State) (sp : Space) (i : Nat), s.mem.wf s.cfg →
    (s.byteAt sp i = none ↔ sp.capacity s.cfg ≤ i)

/-- R65: a write changes only the one element it names, which then reads as the byte written. -/
def Obligations.WriteChangesOnlyTheOneElement : Prop :=
  ∀ (s : State) (sp : Space) (i : Nat) (v : Byte), i < sp.capacity s.cfg →
    (s.putByte sp i v).byteAt sp i = some v
    ∧ ∀ sp' j, (sp' ≠ sp ∨ j ≠ i) → (s.putByte sp i v).byteAt sp' j = s.byteAt sp' j

/-! ### The arms of the state machine: completion and results -/

/-- With `IRQ = 1` (R49) and `FAULT = none` the handler runs this arm on this code of the map, after
`RD_STS` (R110). -/
def RunsOnCode (i : Instr) (code : StatusMap → Byte) : Prop :=
  ∀ s : State, s.cfg.statusMap.wf → s.si = true → s.en = true → s.ien = true → s.fault = none →
    s.sts = code s.cfg.statusMap →
    isrStep s = exec i { s with cmdLog := s.cmdLog ++ [readBack 0x8000 s.sts] }

/-- R115. -/
def Obligations.StartSentSendsTheFirstByte : Prop :=
  RunsOnCode .startSent (·.startSent)
  ∧ ∀ s : State, s.mem.wf s.cfg → 2 ≤ s.cfg.wbufSize →
    ∃ b, s.byteAt .wb 0 = some b ∧ exec .startSent s = .next { s with
      dat := b, wc := 1, sta := false, si := false, ts := .pending
      cmdLog := s.cmdLog ++ [sent (cmdWord 0x6 b), sent 0x2000, sent 0x0000] }

/-- R117. -/
def Obligations.RepstartSentSendsTheNextByte : Prop :=
  RunsOnCode .repstartSent (·.repstartSent)
  ∧ ∀ s : State, s.mem.wf s.cfg →
    (s.wc < s.cfg.wbufSize → ∃ b, s.byteAt .wb s.wc = some b ∧ exec .repstartSent s = .next { s with
      rc := 0, dat := b, wc := s.wc + 1, sta := false, si := false
      cmdLog := s.cmdLog ++ [sent (cmdWord 0x6 b), sent 0x2000, sent 0x0000] })
    ∧ (s.cfg.wbufSize ≤ s.wc → exec .repstartSent s = .next { s with
      rc := 0, fault := some (.bufferOverrun .wb s.wc (some s.sts)) })

/-- R119. -/
def Obligations.SlawAckSendsTheNextByte : Prop :=
  RunsOnCode .slawAck (·.slawAck)
  ∧ ∀ s : State, s.mem.wf s.cfg →
    (s.wc < s.cfg.wbufSize → ∃ b, s.byteAt .wb s.wc = some b ∧ exec .slawAck s = .next { s with
      dat := b, wc := s.wc + 1, si := false
      cmdLog := s.cmdLog ++ [sent (cmdWord 0x6 b), sent 0x0000] })
    ∧ (s.cfg.wbufSize ≤ s.wc → exec .slawAck s = .next { s with
      fault := some (.bufferOverrun .wb s.wc (some s.sts)) })

/-- R123: the three cases and the overrun. -/
def Obligations.DataTxAckContinuesOrEndsTheWrite : Prop :=
  RunsOnCode .dataTxAck (·.dataTxAck)
  ∧ ∀ s : State, s.mem.wf s.cfg →
    (s.wc < s.wl → s.wc < s.cfg.wbufSize →
      ∃ b, s.byteAt .wb s.wc = some b ∧ exec .dataTxAck s = .next { s with
        dat := b, wc := s.wc + 1, si := false
        cmdLog := s.cmdLog ++ [sent (cmdWord 0x6 b), sent 0x0000] })
    ∧ (s.wc < s.wl → s.cfg.wbufSize ≤ s.wc → exec .dataTxAck s = .next { s with
        fault := some (.bufferOverrun .wb s.wc (some s.sts)) })
    ∧ (s.wl ≤ s.wc → 0 < s.rl → exec .dataTxAck s = .next { s with
        sta := true, si := false, cmdLog := s.cmdLog ++ [sent 0x1000, sent 0x0000] })
    ∧ (s.wl ≤ s.wc → s.rl = 0 → exec .dataTxAck s = .next { s with
        sto := true, si := false, ts := .ack
        cmdLog := s.cmdLog ++ [sent 0x3000, sent 0x0000] })

/-- R121, R125, R127, R129. -/
def Obligations.RefusalArmsEndTheTransaction : Prop :=
  RunsOnCode .slawNack (·.slawNack) ∧ RunsOnCode .dataTxNack (·.dataTxNack)
  ∧ RunsOnCode .arbLost (·.arbLost) ∧ RunsOnCode .slarNack (·.slarNack)
  ∧ ∀ s : State,
    exec .slawNack s = .next { s with sto := true, si := false, ts := .slaNack
                                      cmdLog := s.cmdLog ++ [sent 0x3000, sent 0x0000] }
    ∧ exec .dataTxNack s = .next { s with sto := true, si := false, ts := .nack
                                          cmdLog := s.cmdLog ++ [sent 0x3000, sent 0x0000] }
    ∧ exec .arbLost s = .next { s with si := false, ts := .arbitrationLoss
                                       cmdLog := s.cmdLog ++ [sent 0x0000] }
    ∧ exec .slarNack s = .next { s with sto := true, si := false, ts := .slaNack
                                        cmdLog := s.cmdLog ++ [sent 0x3000, sent 0x0000] }

/-- R134: every code the map does not map, and nothing but the interrupt is cleared. -/
def Obligations.UnrecognizedOnlyClearsTheInterrupt : Prop :=
  (∀ s : State, s.si = true → s.en = true → s.ien = true → s.fault = none → s.sts ∉ s.cfg.statusMap.codes →
    isrStep s = exec (.unrecognized s.sts)
      { s with cmdLog := s.cmdLog ++ [readBack 0x8000 s.sts] })
  ∧ ∀ (code : Byte) (s : State), exec (.unrecognized code) s = .next { s with
      si := false, cmdLog := s.cmdLog ++ [sent 0x0000] }

/-- R128. -/
def Obligations.SlarAckArmsTheAcknowledge : Prop :=
  RunsOnCode .slarAck (·.slarAck)
  ∧ ∀ s : State,
    (s.rl = 1 → exec .slarAck s = .next { s with
      aa := false, si := false, cmdLog := s.cmdLog ++ [sent 0x5000, sent 0x0000] })
    ∧ (s.rl ≠ 1 → exec .slarAck s = .next { s with
      aa := true, si := false, cmdLog := s.cmdLog ++ [sent 0x4000, sent 0x0000] })

/-- R130: the byte is stored, the cursor advances, the acknowledge follows `RC < RL - 1` after the
advance; a read length of 0 is a fault before anything is done, an index beyond the buffer one after
`RD_DAT`. -/
def Obligations.DataRxAckStoresAndArms : Prop :=
  RunsOnCode .dataRxAck (·.dataRxAck)
  ∧ ∀ s : State, s.mem.wf s.cfg →
    (s.rl = 0 → exec .dataRxAck s = .next { s with
      fault := some (.readLengthZero s.sts s.rc) })
    ∧ (s.rl ≠ 0 → s.cfg.rbufSize ≤ s.rc → exec .dataRxAck s = .next { s with
      fault := some (.bufferOverrun .rb s.rc (some s.sts))
      cmdLog := s.cmdLog ++ [readBack 0x7000 s.dat] })
    ∧ (s.rl ≠ 0 → s.rc < s.cfg.rbufSize → exec .dataRxAck s = .next { s.putByte .rb s.rc s.dat with
      rc := s.rc + 1, si := false
      aa := decide (s.rc + 1 < s.rl - 1)
      cmdLog := s.cmdLog ++ [readBack 0x7000 s.dat,
        sent (if s.rc + 1 < s.rl - 1 then 0x4000 else 0x5000), sent 0x0000] })

/-- R132. -/
def Obligations.DataRxNackStoresAndCompletes : Prop :=
  RunsOnCode .dataRxNack (·.dataRxNack)
  ∧ ∀ s : State, s.mem.wf s.cfg →
    (s.rc < s.cfg.rbufSize → exec .dataRxNack s = .next { s.putByte .rb s.rc s.dat with
      rc := s.rc + 1, sto := true, si := false, ts := .ack
      cmdLog := s.cmdLog ++ [readBack 0x7000 s.dat, sent 0x3000, sent 0x0000] })
    ∧ (s.cfg.rbufSize ≤ s.rc → exec .dataRxNack s = .next { s with
      fault := some (.bufferOverrun .rb s.rc (some s.sts))
      cmdLog := s.cmdLog ++ [readBack 0x7000 s.dat] })

/-! ### The arms together -/

/-- R113: an arm that ends without a fault sends `CLR_INT` exactly once, as its last command. -/
def Obligations.ArmsClearTheInterruptOnceAndLast : Prop :=
  ∀ (i : Instr) (s t : State), i.isArm = true → s.fault = none → exec i s = .next t →
    t.fault = none →
    t.si = false ∧ ∃ before, t.cmdLog = s.cmdLog ++ before ++ [sent 0x0000]
      ∧ ∀ r ∈ before, r.word ≠ 0x0000

/-- R114: an arm that raises a fault ends there: the faulting access is not done, the interrupt stays
pending, and no command is sent after it (only `RD_DAT` can have been sent before it). -/
def Obligations.FaultedArmLeavesTheInterruptPending : Prop :=
  ∀ (i : Instr) (s t : State), i.isArm = true → s.fault = none → exec i s = .next t →
    t.fault ≠ none →
    t.si = s.si ∧ t.sta = s.sta ∧ t.sto = s.sto ∧ t.aa = s.aa ∧ t.dat = s.dat ∧ t.mem = s.mem
      ∧ t.ts = s.ts ∧ ∃ earlier, t.cmdLog = s.cmdLog ++ earlier
        ∧ ∀ r ∈ earlier, r = readBack 0x7000 s.dat

/-- R112: no arm reads `TS`, `FGPH` or `INITD`: with other values there, the arm does the same. -/
def Obligations.ArmsDoNotReadTheTransactionState : Prop :=
  ∀ (i : Instr) (s t : State) (ts : TxState) (ph : Phase) (b : Bool), i.isArm = true →
    exec i s = .next t →
    exec i { s with ts := ts, fgph := ph, initd := b }
        = .next { t with ts := ts, fgph := ph, initd := b }
    ∨ exec i { s with ts := ts, fgph := ph, initd := b }
        = .next { t with fgph := ph, initd := b }

/-- R116: `START_SENT` is the only arm that writes `Pending`. R133: `Ack` is written by
`DATA_TX_ACK`, when the write phase ends with `RL = 0`, and by `DATA_RX_NACK` only. -/
def Obligations.PendingAndAckHaveTheirArms : Prop :=
  ∀ (i : Instr) (s t : State), i.isArm = true → exec i s = .next t → t.ts ≠ s.ts →
    (t.ts = .pending → i = .startSent)
    ∧ (t.ts = .ack → (i = .dataTxAck ∧ s.wl ≤ s.wc ∧ s.rl = 0) ∨ i = .dataRxNack)
    ∧ t.ts ≠ .idle

/-- The frame of the arms: what no arm changes, and which registers each may. The two receiving arms
store at most to `RB[RC]`, with `RC` as it was on entry; the others store nothing. -/
def Obligations.ArmsFrame : Prop :=
  ∀ (i : Instr) (s t : State), i.isArm = true → exec i s = .next t →
    t = { s with
      ts := t.ts, wc := t.wc, rc := t.rc, mem := t.mem, si := t.si, sta := t.sta, sto := t.sto
      aa := t.aa, dat := t.dat, fault := t.fault, cmdLog := t.cmdLog }
    ∧ (i ∉ [.startSent, .slawNack, .dataTxAck, .dataTxNack, .arbLost, .slarNack, .dataRxNack] →
        t.ts = s.ts)
    ∧ (i ∉ [.startSent, .repstartSent, .slawAck, .dataTxAck] → t.wc = s.wc ∧ t.dat = s.dat)
    ∧ (i ∉ [.repstartSent, .dataRxAck, .dataRxNack] → t.rc = s.rc)
    ∧ (i ∉ [.startSent, .repstartSent, .dataTxAck] → t.sta = s.sta)
    ∧ (i ∉ [.slawNack, .dataTxAck, .dataTxNack, .slarNack, .dataRxNack] → t.sto = s.sto)
    ∧ (i ∉ [.slarAck, .dataRxAck] → t.aa = s.aa)
    ∧ (∀ sp a, ¬ ((i = .dataRxAck ∨ i = .dataRxNack) ∧ sp = .rb ∧ a = s.rc) →
        t.byteAt sp a = s.byteAt sp a)

/-- R194: an invocation alters neither FG's phase, nor its locals, nor any sensor input. R110: without
`IRQ = 1` and `FAULT = none` there is none; that such a move of the trace is then a step with nothing
changed is the model's choice (log 12). -/
def Obligations.InvocationLeavesTheForegroundAlone : Prop :=
  ∀ s t : State, perform .isr s = .next t →
    t.fgph = s.fgph ∧ t.k = s.k ∧ t.req = s.req ∧ t.returning = s.returning ∧ t.fa = s.fa ∧ t.la = s.la ∧ t.pclk = s.pclk
      ∧ t.d = s.d ∧ t.wl = s.wl ∧ t.rl = s.rl ∧ t.pix = s.pix ∧ t.res = s.res
      ∧ t.rbytes = s.rbytes ∧ t.initd = s.initd ∧ t.halted = s.halted
      ∧ (¬ (s.si = true ∧ s.en = true ∧ s.ien = true ∧ s.fault = none) → t = s)

/-! ### The commands -/

/-- R154 to R163: each command does its one action, for every state; the two reads return the
register (in the model's record, log 4) and change nothing. -/
def Obligations.CommandsDoTheirOneAction : Prop :=
  ∀ (s : State) (b : Byte),
    exec .clrInt s = .next { s with si := false, cmdLog := s.cmdLog ++ [sent 0x0000] }
    ∧ exec .setSta s = .next { s with sta := true, cmdLog := s.cmdLog ++ [sent 0x1000] }
    ∧ exec .clrSta s = .next { s with sta := false, cmdLog := s.cmdLog ++ [sent 0x2000] }
    ∧ exec .setSto s = .next { s with sto := true, cmdLog := s.cmdLog ++ [sent 0x3000] }
    ∧ exec .setAa s = .next { s with aa := true, cmdLog := s.cmdLog ++ [sent 0x4000] }
    ∧ exec .clrAa s = .next { s with aa := false, cmdLog := s.cmdLog ++ [sent 0x5000] }
    ∧ exec (.wrDat b) s = .next { s with dat := b, cmdLog := s.cmdLog ++ [sent (cmdWord 0x6 b)] }
    ∧ exec .rdDat s = .next { s with cmdLog := s.cmdLog ++ [readBack 0x7000 s.dat] }
    ∧ exec .rdSts s = .next { s with cmdLog := s.cmdLog ++ [readBack 0x8000 s.sts] }
    ∧ exec (.cfgEn b) s = .next { s with
        presc := b, en := true, ien := true, cmdLog := s.cmdLog ++ [sent (cmdWord 0x9 b)] }

/-- The frame of the commands: nothing but the controller interface (and the model's record) changes,
no element of an array, and `STS` never. -/
def Obligations.CommandsFrame : Prop :=
  ∀ (i : Instr) (s t : State), i.isCommand = true → exec i s = .next t →
    t = { s with
      si := t.si, sta := t.sta, sto := t.sto, aa := t.aa, dat := t.dat, presc := t.presc
      en := t.en, ien := t.ien, cmdLog := t.cmdLog }
    ∧ (∀ sp a, t.byteAt sp a = s.byteAt sp a)
    ∧ (i ≠ .clrInt → t.si = s.si) ∧ (i ≠ .setSta → i ≠ .clrSta → t.sta = s.sta)
    ∧ (i ≠ .setSto → t.sto = s.sto) ∧ (i ≠ .setAa → i ≠ .clrAa → t.aa = s.aa)
    ∧ ((∀ b, i ≠ .wrDat b) → t.dat = s.dat)
    ∧ ((∀ p, i ≠ .cfgEn p) → t.presc = s.presc ∧ t.en = s.en ∧ t.ien = s.ien)

/-! ### INIT, HALT and requests -/

/-- R140: INIT from an idle phase enables the controller and its interrupt; a second INIT faults. That
INIT returns (R142) in the step that sends `CFG_EN` is the model's choice (log 10). -/
def Obligations.InitEnablesTheController : Prop :=
  (∀ args, decodeFgop 0x1 args = .ok (.init args.prescale))
  ∧ ∀ (p : Byte) (s : State), s.fgph.idle = true →
    (s.initd = false → exec (.init p) s = .next { s with
      presc := p, en := true, ien := true, initd := true, fgph := .ready, req := none
      cmdLog := s.cmdLog ++ [sent (cmdWord 0x9 p)] })
    ∧ (s.initd = true → exec (.init p) s = .next { s with
      fault := some (.initTwice (.init p)) })

/-- R153: HALT from an idle phase; in `Halted` FG takes no further step and accepts no request, the
handler stays enabled while `IRQ = 1` (and no fault, R110), and the state is a final one that counts
as a failure. -/
def Obligations.HaltStopsTheForeground : Prop :=
  (∀ args, decodeFgop 0x4 args = .ok .halt)
  ∧ (∀ s : State, s.fgph.idle = true →
    exec .halt s = .next { s with halted := true, fgph := .halted, req := none })
  ∧ ∀ s : State, s.fgph = .halted →
    fgStep s = .next s ∧ (∀ op args, perform (.op op args) s = .next s)
      ∧ (s.isrEnabled = true ↔ s.si = true ∧ s.en = true ∧ s.ien = true ∧ s.fault = none)
      ∧ s.final ∧ (s.halted = true → ¬ s.successful)

/-- The frame of INIT and HALT, wherever they run: what neither writes, and no element of an
array. -/
def Obligations.InitAndHaltFrame : Prop :=
  ∀ (i : Instr) (s t : State), ((∃ p, i = .init p) ∨ i = .halt) → exec i s = .next t →
    t = { s with
      presc := t.presc, en := t.en, ien := t.ien, initd := t.initd, halted := t.halted
      fgph := t.fgph, req := t.req, fault := t.fault, cmdLog := t.cmdLog }
    ∧ (∀ sp a, t.byteAt sp a = s.byteAt sp a)
    ∧ (i = .halt → t.presc = s.presc ∧ t.en = s.en ∧ t.ien = s.ien ∧ t.initd = s.initd
        ∧ t.fault = s.fault ∧ t.cmdLog = s.cmdLog)
    ∧ (i ≠ .halt → t.halted = s.halted)

/-- R141, R200: a request is accepted in an idle phase with nothing accepted and no fault, and then
EXECUTE and CAPTURE stand at their first phase; any other request changes nothing. That FG accepts
none while an accepted INIT or HALT waits for its step or after a fault is the model's choice
(log 9, log 11). -/
def Obligations.RequestsAreAcceptedOnlyWhenIdle : Prop :=
  ∀ (s : State) (args : FgArgs),
    ((s.fgph = .off ∨ s.fgph = .ready) ∧ s.req = none ∧ s.fault = none →
      perform (.op 0x1 args) s = .next { s with req := some (.init args.prescale) }
      ∧ perform (.op 0x2 args) s = .next { s with
          req := some (.execute args.bytes args.wl args.rl), fgph := .xCheck }
      ∧ perform (.op 0x3 args) s = .next { s with req := some .capture, fgph := .cInit }
      ∧ perform (.op 0x4 args) s = .next { s with req := some .halt })
    ∧ (¬ ((s.fgph = .off ∨ s.fgph = .ready) ∧ s.req = none ∧ s.fault = none) → ∀ op, perform (.op op args) s = .next s)

/-- A foreground operation outside its own phases (R141, R200; log 24): EXECUTE and CAPTURE begin in an
idle phase; in any other phase that is not its own an operation does nothing. -/
def Obligations.ForegroundOperationOutsideItsPhases : Prop :=
  ∀ (s : State) (p : Byte) (bytes : List Byte) (wl rl : Nat),
    (s.fgph.idle = true →
      exec (.execute bytes wl rl) s = .next { s with
        req := some (.execute bytes wl rl), fgph := .xCheck }
      ∧ exec .capture s = .next { s with req := some .capture, fgph := .cInit })
    ∧ (s.fgph.idle = false →
      exec (.init p) s = .next s ∧ exec .halt s = .next s
      ∧ (s.fgph.inEngine = false → exec (.execute bytes wl rl) s = .next s)
      ∧ (s.fgph.inCapture = false → exec .capture s = .next s))

/-! ### EXECUTE, phase by phase -/

/-- R143: `X_Check`, and the return of a rejected request. That a rejection returns (R142) within the
check where the request brings bytes, and in a step of its own where the check has read `WB[0]`, is
the model's choice (log 10). -/
def Obligations.ExecuteChecksTheRequest : Prop :=
  (∀ args, decodeFgop 0x2 args = .ok (.execute args.bytes args.wl args.rl))
  ∧ ∀ (s : State) (bytes : List Byte) (wl rl : Nat), s.fgph = .xCheck →
    (s.returning = false → s.initd = false → exec (.execute bytes wl rl) s = .next { s with
      fault := some (.notInitialized (.execute bytes wl rl)) })
    ∧ (∀ b0 : Byte, s.returning = false → s.initd = true →
      (bytes.head? = some b0 ∨ (bytes = [] ∧ s.byteAt .wb 0 = some b0)) →
      exec (.execute bytes wl rl) s =
        if bytes.length ≤ s.cfg.wbufSize ∧ wl ≤ s.cfg.wbufSize ∧ rl ≤ s.cfg.rbufSize
            ∧ ¬ (rl = 0 ∧ b0.getLsbD 0 = true)
            ∧ ¬ (0 < rl ∧ b0.getLsbD 0 = false ∧ s.cfg.wbufSize ≤ max wl 2)
        then .next { s with fgph := .xLoad 0 }
        else if bytes = [] then .next { s with res := 0x07, rbytes := [], returning := true }
        else .next { s with res := 0x07, rbytes := [], fgph := .ready, req := none })
    ∧ (s.returning = true → exec (.execute bytes wl rl) s = .next { s with
        fgph := if s.initd then .ready else .off, req := none, returning := false })

/-- R144, R145, R146: the load steps, the arm steps and the START. -/
def Obligations.ExecuteLoadsArmsAndStarts : Prop :=
  ∀ (s : State) (bytes : List Byte) (wl rl i : Nat),
    (s.fgph = .xLoad i → ∀ b, bytes[i]? = some b → s.mem.wf s.cfg → i < s.cfg.wbufSize →
      exec (.execute bytes wl rl) s = .next { s.putByte .wb i b with fgph := .xLoad (i + 1) })
    ∧ (s.fgph = .xLoad i → i = bytes.length → exec (.execute bytes wl rl) s = .next { s with
        wl := wl, fgph := .xLoad (i + 1) })
    ∧ (s.fgph = .xLoad i → bytes.length < i → exec (.execute bytes wl rl) s = .next { s with
        rl := rl, fgph := .xArmTS })
    ∧ (s.fgph = .xArmTS → exec (.execute bytes wl rl) s = .next { s with
        ts := .idle, fgph := .xArmWC })
    ∧ (s.fgph = .xArmWC → exec (.execute bytes wl rl) s = .next { s with
        wc := 0, fgph := .xArmRC })
    ∧ (s.fgph = .xArmRC → exec (.execute bytes wl rl) s = .next { s with
        rc := 0, fgph := .xArmSta })
    ∧ (s.fgph = .xArmSta → exec (.execute bytes wl rl) s = .next { s with
        k := 0, sta := true, fgph := .xWaitStart, cmdLog := s.cmdLog ++ [sent 0x1000] })

/-- R147, R148: one poll of the post-START wait, and the timeout. That the timeout step, which sends
`SET_STO`, is also the one that returns (R142) is the model's choice (log 10). -/
def Obligations.ExecutePollsForTheStart : Prop :=
  ∀ (s : State) (bytes : List Byte) (wl rl : Nat),
    (s.fgph = .xWaitStart → s.ts = .pending → exec (.execute bytes wl rl) s = .next { s with
      fgph := .xWaitTerm })
    ∧ (s.fgph = .xWaitStart → s.ts ≠ .pending → s.k + 1 < s.cfg.startTimeoutPolls →
      exec (.execute bytes wl rl) s = .next { s with k := s.k + 1 })
    ∧ (s.fgph = .xWaitStart → s.ts ≠ .pending → s.cfg.startTimeoutPolls ≤ s.k + 1 →
      exec (.execute bytes wl rl) s = .next { s with k := s.k + 1, fgph := .xTimeout })
    ∧ (s.fgph = .xTimeout → exec (.execute bytes wl rl) s = .next { s with
      sto := true, res := 0x00, rbytes := []
      fgph := if s.initd then .ready else .off
      req := none, cmdLog := s.cmdLog ++ [sent 0x3000] })

/-- R149, R150: one poll of the terminal wait, the copy of the bytes read, and the return (R142). The
model's choices in it: the return after the last copy is a step of its own (log 10), step `j` makes
`RBYTES` its first `j` bytes followed by `RB[j]` (log 19), and the bound is the register `RL`
(log 21). -/
def Obligations.ExecuteWaitsAndReturnsTheBytes : Prop :=
  ∀ (s : State) (bytes : List Byte) (wl rl j : Nat),
    (s.fgph = .xWaitTerm → s.ts ∈ [.idle, .pending] → exec (.execute bytes wl rl) s = .next s)
    ∧ (s.fgph = .xWaitTerm → s.ts ∈ [.ack, .nack, .slaNack, .arbitrationLoss] →
      exec (.execute bytes wl rl) s = .next { s with res := s.ts.code, fgph := .xCopy 0 })
    ∧ (s.fgph = .xCopy j → j < s.rl → ∀ b, s.byteAt .rb j = some b →
      exec (.execute bytes wl rl) s = .next { s with
        rbytes := s.rbytes.take j ++ [b], fgph := .xCopy (j + 1) })
    ∧ (s.fgph = .xCopy j → s.rl ≤ j → exec (.execute bytes wl rl) s = .next { s with
        rbytes := s.rbytes.take s.rl
        fgph := if s.initd then .ready else .off
        req := none })

/-- R66 in the engine: an access of EXECUTE beyond its buffer raises the overrun and is not done. That
the record holds no status code there is the model's choice (log 14). -/
def Obligations.EngineAccessBeyondABufferFaults : Prop :=
  ∀ (s : State) (bytes : List Byte) (wl rl i : Nat), s.mem.wf s.cfg →
    (s.fgph = .xCheck → s.returning = false → s.initd = true → bytes = [] → s.cfg.wbufSize = 0 →
      exec (.execute bytes wl rl) s = .next { s with fault := some (.bufferOverrun .wb 0 none) })
    ∧ (s.fgph = .xLoad i → i < bytes.length → s.cfg.wbufSize ≤ i →
      exec (.execute bytes wl rl) s = .next { s with fault := some (.bufferOverrun .wb i none) })
    ∧ (s.fgph = .xCopy i → i < s.rl → s.cfg.rbufSize ≤ i →
      exec (.execute bytes wl rl) s = .next { s with fault := some (.bufferOverrun .rb i none) })

/-- The frame of EXECUTE: what no step of it changes; `WB[i]` in the load step `i` is the only
element it stores to. -/
def Obligations.ExecuteFrame : Prop :=
  ∀ (s t : State) (bytes : List Byte) (wl rl : Nat), exec (.execute bytes wl rl) s = .next t →
    t = { s with
      ts := t.ts, wl := t.wl, rl := t.rl, wc := t.wc, rc := t.rc, mem := t.mem, k := t.k
      res := t.res, rbytes := t.rbytes, fgph := t.fgph, req := t.req, returning := t.returning
      sta := t.sta, sto := t.sto, fault := t.fault, cmdLog := t.cmdLog }
    ∧ (∀ sp a, ¬ (sp = .wb ∧ s.fgph = .xLoad a ∧ a < bytes.length) →
        t.byteAt sp a = s.byteAt sp a)
    ∧ (s.fgph ≠ .xArmTS → t.ts = s.ts)
    ∧ (s.fgph ≠ .xArmWC → t.wc = s.wc) ∧ (s.fgph ≠ .xArmRC → t.rc = s.rc)
    ∧ (s.fgph ≠ .xArmSta → t.sta = s.sta) ∧ (s.fgph ≠ .xTimeout → t.sto = s.sto)
    ∧ ((∀ i, s.fgph ≠ .xLoad i) → t.wl = s.wl ∧ t.rl = s.rl)

/-! ### CAPTURE, phase by phase -/

/-- R171 to R176, R180: the wait for a frame, the line and pair heads; with the frame ended CAPTURE
returns (R181, R142), the planes left as they are. That the return is a step of its own, after the
one that has read `FA`, is the model's choice (log 10). -/
def Obligations.CaptureFollowsFrameAndLines : Prop :=
  ∀ s : State,
    (s.fgph = .cInit → exec .capture s = .next { s with pix := 0, fgph := .cWaitFrameEnd })
    ∧ (s.fgph = .cWaitFrameEnd → exec .capture s =
        .next { s with fgph := if s.fa then .cWaitFrameEnd else .cWaitFrameStart })
    ∧ (s.fgph = .cWaitFrameStart → exec .capture s =
        .next { s with fgph := if s.fa then .cLineHead else .cWaitFrameStart })
    ∧ (s.fgph = .cLineHead → s.returning = false → exec .capture s =
      if s.fa then .next { s with fgph := .cWaitLineStart } else .next { s with returning := true })
    ∧ (s.fgph = .cWaitLineStart → exec .capture s =
      .next { s with fgph := if s.la then .cPairHeadLA else .cLineHead })
    ∧ (s.fgph = .cPairHeadLA → exec .capture s =
      .next { s with fgph := if s.la then .cPairHeadFA else .cWaitLineEnd })
    ∧ (s.fgph = .cPairHeadFA → s.returning = false → exec .capture s =
      if s.fa then .next { s with
        fgph := .cSampleA (if s.cfg.pollOrder = .lowThenHigh then .waitLow else .waitHigh) }
      else .next { s with returning := true })
    ∧ (s.fgph = .cWaitLineEnd → exec .capture s =
      .next { s with fgph := if s.la then .cWaitLineEnd else .cLineHead })
    ∧ (s.fgph = .cLineHead ∨ s.fgph = .cPairHeadFA → s.returning = true → exec .capture s =
      .next { s with fgph := if s.initd then .ready else .off, req := none, returning := false })

/-- R177: the polls and the read of `sample()`, in both poll orders and for both samples. -/
def Obligations.SampleReadsDataAtTheRisingEdge : Prop :=
  ∀ s : State,
    (s.fgph = .cSampleA .waitHigh → exec .capture s =
      .next { s with fgph := if s.pclk then .cSampleA .readD else .cSampleA .waitHigh })
    ∧ (s.fgph = .cSampleB .waitHigh → exec .capture s =
      .next { s with fgph := if s.pclk then .cSampleB .readD else .cSampleB .waitHigh })
    ∧ (s.fgph = .cSampleA .readD → exec .capture s =
      .next { s with fgph := .cSampleA (.store s.d) })
    ∧ (s.fgph = .cSampleB .readD → exec .capture s =
      .next { s with fgph := .cSampleB (.store s.d) })
    ∧ (s.fgph = .cSampleA .waitLow → exec .capture s =
      .next { s with fgph := if s.pclk then .cSampleA .waitLow
                             else if s.cfg.pollOrder = .lowThenHigh then .cSampleA .waitHigh
                             else .cSampleB .waitHigh })
    ∧ (s.fgph = .cSampleB .waitLow → exec .capture s =
      .next { s with fgph := if s.pclk then .cSampleB .waitLow
                             else if s.cfg.pollOrder = .lowThenHigh then .cSampleB .waitHigh
                             else .cPairHeadLA })

/-- R178, R179: the store steps: the first sample to plane A, the second to plane B at the same
index, which then advances; an index beyond the plane faults. -/
def Obligations.SamplesGoToThePlanes : Prop :=
  ∀ (s : State) (v : Byte), s.mem.wf s.cfg →
    (s.fgph = .cSampleA (.store v) → s.pix < s.cfg.planeSize → exec .capture s =
      .next { s.putByte .a s.pix v with
        fgph := if s.cfg.pollOrder = .lowThenHigh then .cSampleB .waitLow else .cSampleA .waitLow })
    ∧ (s.fgph = .cSampleB (.store v) → s.pix < s.cfg.planeSize → exec .capture s =
      .next { s.putByte .b s.pix v with
        pix := s.pix + 1
        fgph := if s.cfg.pollOrder = .lowThenHigh then .cPairHeadLA else .cSampleB .waitLow })
    ∧ (s.fgph = .cSampleA (.store v) → s.cfg.planeSize ≤ s.pix → exec .capture s =
      .next { s with fault := some (.planeOverflow .a s.pix) })
    ∧ (s.fgph = .cSampleB (.store v) → s.cfg.planeSize ≤ s.pix → exec .capture s =
      .next { s with fault := some (.planeOverflow .b s.pix) })

/-- The frame of CAPTURE (R170: no command, no transaction state): only `PIX`, FG's control, `FAULT`
and one plane element change, and the element is `A[PIX]` or `B[PIX]` in the store step of its
sample. -/
def Obligations.CaptureFrame : Prop :=
  ∀ s t : State, exec .capture s = .next t →
    t = { s with
      mem := t.mem, fgph := t.fgph, req := t.req, returning := t.returning, pix := t.pix
      fault := t.fault }
    ∧ (∀ sp a, ¬ (a = s.pix ∧ ((sp = .a ∧ ∃ v, s.fgph = .cSampleA (.store v))
          ∨ (sp = .b ∧ ∃ v, s.fgph = .cSampleB (.store v)))) →
        t.byteAt sp a = s.byteAt sp a)

/-- R184: a pixel pair in progress goes on whatever the line and the frame do meanwhile: within a
pair the step does not depend on `LA` or `FA`. -/
def Obligations.PairInProgressIgnoresLineAndFrame : Prop :=
  ∀ (s t : State) (sub : Sub) (fa la : Bool), (s.fgph = .cSampleA sub ∨ s.fgph = .cSampleB sub) →
    exec .capture s = .next t →
    exec .capture { s with fa := fa, la := la } = .next { t with fa := fa, la := la }

/-! ### The environment -/

/-- R203, R204, R210: CTRL takes no step while `SI = 1` or while `EN = 0`; else its two steps are the
report and the stop; SENSOR sets each signal it names. The values of `CPH` and `LAST` (R205: owned
after the START code, free after the arbitration loss, else as before) are WBC's bookkeeping, general
knowledge by the spec's own mark (log 15). -/
def Obligations.EnvironmentStepsAsTheRulesSay : Prop :=
  (∀ (s : State) (c : CtrlMove), (s.si = true ∨ s.en = false) → perform (.ctrl c) s = .next s)
  ∧ (∀ s : State, s.en = true → s.si = false →
    (∀ sts dat entry, perform (.ctrl (.report sts dat entry)) s = .next { s with
      sts := sts, dat := dat.getD s.dat, buslog := s.buslog ++ [entry], si := true
      last := sts
      cph := if sts = s.cfg.statusMap.startSent then .owned
             else if sts = s.cfg.statusMap.arbLost then .free else s.cph })
    ∧ (s.sto = true → perform (.ctrl (.stop true)) s = .next { s with
        sto := false, buslog := s.buslog ++ [.stop], cph := .free })
    ∧ (s.sto = true → perform (.ctrl (.stop false)) s = .next { s with
        sto := false, cph := .free })
    ∧ (s.sto = false → ∀ b, perform (.ctrl (.stop b)) s = .next s))
  ∧ ∀ (s : State) (fa la pclk : Option Bool) (d : Option Byte),
    perform (.sensor fa la pclk d) s = .next { s with
      fa := fa.getD s.fa, la := la.getD s.la, pclk := pclk.getD s.pclk, d := d.getD s.d }

/-- R205: WBC is a restriction of the base controller. -/
def Obligations.WellBehavedControllerIsABaseController : Prop :=
  ∀ (s : State) (c : CtrlMove), s.wbcMay c = true → s.ctrlMay c = true

/-- R122: after `SLAW_NACK`, `SLAR_NACK`, `DATA_TX_NACK` or `DATA_RX_NACK` has run without a fault,
`STO` is set and every bus action WBC may take is the STOP. -/
def Obligations.StopFollowsTheTerminalArms : Prop :=
  ∀ (i : Instr) (s t : State), i ∈ [.slawNack, .slarNack, .dataTxNack, .dataRxNack] →
    s.fault = none → exec i s = .next t → t.fault = none →
    t.sto = true ∧ ∀ c, t.wbcMay c = true → ∃ onBus, c = .stop onBus

/-! ### Rules of the whole machine -/

/-- R91, R50, R53: no operation of the block writes `STS`, a sensor input or the bus log, and none
changes the parameters. -/
def Obligations.BlockNeverWritesTheEnvironment : Prop :=
  ∀ (i : Instr) (s t : State), exec i s = .next t →
    t.sts = s.sts ∧ t.fa = s.fa ∧ t.la = s.la ∧ t.pclk = s.pclk ∧ t.d = s.d
      ∧ t.buslog = s.buslog ∧ t.cfg = s.cfg

/-- R36, R41: no step of any agent clears `INITD`, `HALTED`, `EN` or `IEN`. -/
def Obligations.EnablesAndFlagsAreNeverCleared : Prop :=
  ∀ (m : Move) (s t : State), perform m s = .next t →
    (s.initd = true → t.initd = true) ∧ (s.halted = true → t.halted = true)
    ∧ (s.en = true → t.en = true) ∧ (s.ien = true → t.ien = true)

/-- R24: `TS` is written by FG in the arm step of EXECUTE, which writes `Idle`, and by the handler,
and by nothing else. -/
def Obligations.OnlyTheArmStepAndTheHandlerWriteTS : Prop :=
  ∀ (m : Move) (s t : State), perform m s = .next t → t.ts ≠ s.ts →
    (m = .fg ∧ s.fgph = .xArmTS ∧ t.ts = .idle) ∨ (m = .isr ∧ t.ts ≠ .idle)

/-- R42, R192: `SI` is set by a report of CTRL only and cleared by the handler only. -/
def Obligations.OnlyControllerSetsAndHandlerClearsSI : Prop :=
  ∀ (m : Move) (s t : State), perform m s = .next t →
    (s.si = false → t.si = true → ∃ sts dat entry, m = .ctrl (.report sts dat entry))
    ∧ (s.si = true → t.si = false → m = .isr)

/-- R61, R62, R63: `WB` is written by FG's load steps, `RB` by the handler, `A` and `B` by CAPTURE's
store steps, and by nothing else. -/
def Obligations.ArraysAreWrittenByTheirOwnersOnly : Prop :=
  ∀ (m : Move) (s t : State) (sp : Space) (i : Nat), perform m s = .next t →
    t.byteAt sp i ≠ s.byteAt sp i →
    (sp = .wb ∧ m = .fg ∧ s.fgph = .xLoad i)
    ∨ (sp = .rb ∧ m = .isr ∧ i = s.rc)
    ∨ (sp = .a ∧ m = .fg ∧ i = s.pix ∧ ∃ v, s.fgph = .cSampleA (.store v))
    ∨ (sp = .b ∧ m = .fg ∧ i = s.pix ∧ ∃ v, s.fgph = .cSampleB (.store v))

/-- R198: a fault is never cleared, and after it neither FG nor the handler changes anything; only
CTRL's and SENSOR's registers move. The premise is that no command word was laid at the port. -/
def Obligations.FaultIsStickyAndStopsTheBlock : Prop :=
  ∀ s t : State, s.cmdPort = none → s.fault ≠ none → step s = .next t →
    t = { s with
      sts := t.sts, dat := t.dat, si := t.si, sto := t.sto, buslog := t.buslog, last := t.last
      cph := t.cph, fa := t.fa, la := t.la, pclk := t.pclk, d := t.d
      script := t.script, tick := t.tick }
    ∧ ((nextMove s = .fg ∨ nextMove s = .isr) → t = afterMove s)

/-! ### Whole phases of a transaction -/

/-- R120, R124, R136: with `RL = 0` and every byte acknowledged, the write phase sends
`WB[0] .. WB[max(WL,2)-1]` in order and ends in `Ack`, with the STOP, at exactly the
`max(WL,2)-1`-th `DATA_TX_ACK`. -/
def Obligations.WritePhaseSendsTheBytesAndEndsInAck : Prop :=
  ∀ s : State, s.mem.wf s.cfg → 2 ≤ s.cfg.wbufSize → s.wl ≤ s.cfg.wbufSize → s.rl = 0 →
    (∀ n, n < max s.wl 2 - 1 →
      ∃ t, execSeq (.startSent :: .slawAck :: List.replicate n .dataTxAck) s = .next t
        ∧ t.ts = .pending)
    ∧ ∃ t, execSeq (.startSent :: .slawAck :: List.replicate (max s.wl 2 - 1) .dataTxAck) s = .next t
        ∧ t.ts = .ack ∧ t.sto = true ∧ t.fault = s.fault
        ∧ t.sentBytes = s.sentBytes ++ (List.range (max s.wl 2)).filterMap (s.byteAt .wb)

/-- R131, R137: with `RL = n` at least 1 and `n` bytes received, the read phase stores them in
`RB[0 .. n-1]` in order, writes no other element, and ends in `Ack` with the STOP. -/
def Obligations.ReadPhaseStoresTheBytesAndEndsInAck : Prop :=
  ∀ (s : State) (vs : List Byte), s.mem.wf s.cfg → vs ≠ [] → s.rl = vs.length →
    s.rl ≤ s.cfg.rbufSize → s.rc = 0 →
    ∃ t, receiveSeq vs s = .next t ∧ t.ts = .ack ∧ t.sto = true ∧ t.rc = s.rl
      ∧ t.fault = s.fault
      ∧ (∀ i, i < s.rl → t.byteAt .rb i = vs[i]?)
      ∧ (∀ sp i, ¬ (sp = .rb ∧ i < s.rl) → t.byteAt sp i = s.byteAt sp i)

/-- R147: FG times out exactly when `START_TIMEOUT_POLLS` consecutive polls have each read a value
other than `Pending`. -/
def Obligations.TimeoutAfterExactlyTheBound : Prop :=
  ∀ (s : State) (bytes : List Byte) (wl rl : Nat), s.fgph = .xWaitStart → s.k = 0 →
    s.ts ≠ .pending → 1 ≤ s.cfg.startTimeoutPolls →
    (∀ n, n < s.cfg.startTimeoutPolls → pollSeq bytes wl rl n s = .next { s with k := n })
    ∧ pollSeq bytes wl rl s.cfg.startTimeoutPolls s = .next { s with
        k := s.cfg.startTimeoutPolls, fgph := .xTimeout }

/-! ### Invariants -/

/-- Reset meets the three invariants. -/
def Obligations.ResetMeetsTheInvariants : Prop :=
  State.reset.mem.wf State.reset.cfg ∧ State.reset.ControlOk ∧ State.reset.BoundsOk

/-- Every step keeps the canonical form of the memory. -/
def Obligations.StepKeepsTheMemoryCanonical : Prop :=
  ∀ s t : State, s.mem.wf s.cfg → step s = .next t → t.mem.wf t.cfg

/-- Every step keeps the control of the block consistent. -/
def Obligations.StepKeepsTheControlConsistent : Prop :=
  ∀ s t : State, s.ControlOk → step s = .next t → t.ControlOk

/-- Every step keeps lengths, cursors, the poll counter and the result within their bounds. -/
def Obligations.StepKeepsTheBounds : Prop :=
  ∀ s t : State, s.BoundsOk → step s = .next t → t.BoundsOk

/-- R143, R123: under the invariants the steps of EXECUTE raise no fault but `NotInitialized`, and
`DATA_TX_ACK` raises none. (The other arms can still overrun: R117, R119, R130, R132.) -/
def Obligations.EngineAndDataTxAckNeverOverrun : Prop :=
  ∀ s t : State, s.mem.wf s.cfg → 2 ≤ s.cfg.wbufSize → s.BoundsOk →
    (∀ bytes wl rl, s.req = some (.execute bytes wl rl) → s.fault = none → fgStep s = .next t →
      t.fault = none
        ∨ (s.fgph = .xCheck ∧ t.fault = some (.notInitialized (.execute bytes wl rl))))
    ∧ (exec .dataTxAck s = .next t → t.fault = s.fault)
end

