-- ==== Sys2Proof/Laws/Memory.lean ====
section
/-!
SUPPORT. The laws of the byte arrays: a read after a write, the other elements, the canonical form.
-/

namespace Sys2Proof.Machine

/-! ### Cells -/

theorem cellsRead_insert_same (l : List Host.Cell) (i : Nat) (v : Byte) :
    cellsRead (cellsInsert l i v) i = some v := by
  induction l with
  | nil => simp [cellsInsert, cellsRead]
  | cons c t ih =>
    obtain ⟨k, w⟩ := c
    by_cases h : i < k
    · simp [cellsInsert, h, cellsRead]
    · by_cases h' : i = k
      · simp [cellsInsert, h', cellsRead]
      · simp [cellsInsert, h, h', cellsRead, ih, Ne.symm h']

theorem cellsRead_insert_other (l : List Host.Cell) {i j : Nat} (v : Byte) (h : j ≠ i) :
    cellsRead (cellsInsert l i v) j = cellsRead l j := by
  induction l with
  | nil => simp [cellsInsert, cellsRead, Ne.symm h]
  | cons c t ih =>
    obtain ⟨k, w⟩ := c
    by_cases h1 : i < k
    · simp [cellsInsert, h1, cellsRead, Ne.symm h]
    · by_cases h2 : i = k
      · subst h2; simp [cellsInsert, cellsRead, Ne.symm h]
      · simp [cellsInsert, h1, h2, cellsRead, ih]

theorem cellsRead_erase_same (l : List Host.Cell) (i : Nat) :
    cellsRead (cellsErase l i) i = none := by
  induction l with
  | nil => rfl
  | cons c t ih =>
    obtain ⟨k, w⟩ := c
    by_cases h : k = i
    · simpa [cellsErase, h] using ih
    · simpa [cellsErase, h, cellsRead] using ih

theorem cellsRead_erase_other (l : List Host.Cell) {i j : Nat} (h : j ≠ i) :
    cellsRead (cellsErase l i) j = cellsRead l j := by
  induction l with
  | nil => rfl
  | cons c t ih =>
    obtain ⟨k, w⟩ := c
    by_cases h' : k = i
    · subst h'; simpa [cellsErase, cellsRead, Ne.symm h] using ih
    · have e : cellsErase ((k, w) :: t) i = (k, w) :: cellsErase t i := by simp [cellsErase, h']
      rw [e]
      simp only [cellsRead, ih]

theorem cellsRead_isSome (l : List Host.Cell) (i : Nat) :
    (cellsRead l i).isSome = true ↔ i ∈ l.map Prod.fst := by
  induction l with
  | nil => simp [cellsRead]
  | cons c t ih =>
    obtain ⟨k, w⟩ := c
    by_cases h : k = i
    · simp [cellsRead, h]
    · simp only [cellsRead, h, if_false, ih, List.map_cons, List.mem_cons]
      simp [Ne.symm h]

/-- Inserting at an index already listed, or at a rising list's place, lists that index and the
others. -/
theorem mem_map_fst_insert (l : List Host.Cell) (i j : Nat) (v : Byte) :
    j ∈ (cellsInsert l i v).map Prod.fst ↔ j = i ∨ j ∈ l.map Prod.fst := by
  induction l with
  | nil => simp [cellsInsert]
  | cons c t ih =>
    obtain ⟨k, w⟩ := c
    by_cases h1 : i < k
    · simp [cellsInsert, h1]
    · by_cases h2 : i = k
      · subst h2; simp [cellsInsert]
      · simp only [cellsInsert, h1, h2, if_false, List.map_cons, List.mem_cons, ih]
        tauto

theorem rising_insert (l : List Host.Cell) (i : Nat) (v : Byte)
    (h : (l.map Prod.fst).Pairwise (· < ·)) :
    ((cellsInsert l i v).map Prod.fst).Pairwise (· < ·) := by
  induction l with
  | nil => simp [cellsInsert]
  | cons c t ih =>
    obtain ⟨k, w⟩ := c
    simp only [List.map_cons, List.pairwise_cons] at h
    by_cases h1 : i < k
    · simp only [cellsInsert, h1, if_true, List.map_cons, List.pairwise_cons, List.mem_cons]
      refine ⟨?_, h.1, h.2⟩
      rintro a (rfl | ha)
      · exact h1
      · exact lt_trans h1 (h.1 a ha)
    · by_cases h2 : i = k
      · subst h2; simpa [cellsInsert] using h
      · simp only [cellsInsert, h1, h2, if_false, List.map_cons, List.pairwise_cons]
        refine ⟨fun a ha => ?_, ih h.2⟩
        rcases (mem_map_fst_insert t i a v).1 ha with rfl | ha
        · omega
        · exact h.1 a ha

theorem mem_insert (l : List Host.Cell) (i : Nat) (v : Byte) (c : Host.Cell)
    (h : c ∈ cellsInsert l i v) : c = (i, v) ∨ c ∈ l := by
  induction l with
  | nil => simpa [cellsInsert] using h
  | cons d t ih =>
    obtain ⟨k, w⟩ := d
    by_cases h1 : i < k
    · simpa [cellsInsert, h1] using h
    · by_cases h2 : i = k
      · subst h2
        rcases List.mem_cons.1 (by simpa [cellsInsert] using h) with h | h
        · exact .inl h
        · exact .inr (List.mem_cons_of_mem _ h)
      · rcases List.mem_cons.1 (by simpa [cellsInsert, h1, h2] using h) with h | h
        · exact .inr (by simp [h])
        · rcases ih h with h | h
          · exact .inl h
          · exact .inr (List.mem_cons_of_mem _ h)

theorem map_fst_insert_of_mem (l : List Host.Cell) (i : Nat) (v : Byte)
    (hl : (l.map Prod.fst).Pairwise (· < ·)) (h : i ∈ l.map Prod.fst) :
    (cellsInsert l i v).map Prod.fst = l.map Prod.fst := by
  induction l with
  | nil => simp at h
  | cons c t ih =>
    obtain ⟨k, w⟩ := c
    simp only [List.map_cons, List.pairwise_cons, List.mem_cons] at hl h
    by_cases h2 : i = k
    · subst h2; simp [cellsInsert]
    · have h3 : i ∈ t.map Prod.fst := h.resolve_left h2
      have h1 : ¬ i < k := by have := hl.1 i h3; omega
      simp [cellsInsert, h1, h2, ih hl.2 h3]

theorem bufferWf_rising {n : Nat} {l : List Host.Cell} (h : bufferWf n l) :
    (l.map Prod.fst).Pairwise (· < ·) := by
  rw [h]; exact List.pairwise_lt_range

theorem bufferWf_insert {n : Nat} {l : List Host.Cell} (h : bufferWf n l) {i : Nat} (hi : i < n)
    (v : Byte) : bufferWf n (cellsInsert l i v) := by
  have hm : i ∈ l.map Prod.fst := by rw [h]; exact List.mem_range.2 hi
  exact (map_fst_insert_of_mem l i v (bufferWf_rising h) hm).trans h

theorem planeWf_insert {n : Nat} {l : List Host.Cell} (h : planeWf n l) {i : Nat} (hi : i < n)
    {v : Byte} (hv : v ≠ 0x00) : planeWf n (cellsInsert l i v) := by
  refine ⟨rising_insert l i v h.1, fun c hc => ?_⟩
  rcases mem_insert l i v c hc with rfl | hc
  · exact ⟨hi, hv⟩
  · exact h.2 c hc

theorem planeWf_erase {n : Nat} {l : List Host.Cell} (h : planeWf n l) (i : Nat) :
    planeWf n (cellsErase l i) := by
  refine ⟨List.Pairwise.sublist (List.Sublist.map _ List.filter_sublist) h.1, fun c hc => ?_⟩
  exact h.2 c (List.mem_of_mem_filter hc)

/-! ### The arrays -/

theorem Memory.cells_setCells_same (m : Memory) (sp : Space) (l : List Host.Cell) :
    (m.setCells sp l).cells sp = l := by cases sp <;> rfl

theorem Memory.cells_setCells_other (m : Memory) {sp sp' : Space} (l : List Host.Cell)
    (h : sp' ≠ sp) : (m.setCells sp l).cells sp' = m.cells sp' := by
  cases sp <;> cases sp' <;> first | rfl | exact absurd rfl h

/-- The element written reads as the byte written. -/
theorem Memory.byte_put_same (m : Memory) (sp : Space) (i : Nat) (v : Byte) :
    (m.put sp i v).byte sp i = some v := by
  unfold Memory.put Memory.byte
  rw [Memory.cells_setCells_same]
  split
  · rename_i w hw
    split at hw
    · rw [cellsRead_erase_same] at hw; cases hw
    · rw [cellsRead_insert_same] at hw; exact hw.symm
  · rename_i hw
    split at hw
    · assumption
    · rw [cellsRead_insert_same] at hw; cases hw

/-- Every other element, of this array or another, reads as before. -/
theorem Memory.byte_put_other (m : Memory) {sp sp' : Space} {i j : Nat} (v : Byte)
    (h : sp' ≠ sp ∨ j ≠ i) : (m.put sp i v).byte sp' j = m.byte sp' j := by
  by_cases hs : sp' = sp
  · subst hs
    have hj : j ≠ i := h.resolve_left (fun h => h rfl)
    have key : cellsRead ((m.put sp' i v).cells sp') j = cellsRead (m.cells sp') j := by
      unfold Memory.put
      rw [Memory.cells_setCells_same]
      split
      · exact cellsRead_erase_other _ hj
      · exact cellsRead_insert_other _ _ hj
    unfold Memory.byte
    rw [key]
  · unfold Memory.byte Memory.put
    rw [Memory.cells_setCells_other _ _ hs]

/-- Writing an element that exists keeps the canonical form. -/
theorem Memory.put_wf {p : Params} {m : Memory} (h : m.wf p) {sp : Space} {i : Nat}
    (hi : i < sp.capacity p) (v : Byte) : (m.put sp i v).wf p := by
  obtain ⟨hw, hr, ha, hb⟩ := h
  cases sp with
  | wb => exact ⟨bufferWf_insert hw hi v, hr, ha, hb⟩
  | rb => exact ⟨hw, bufferWf_insert hr hi v, ha, hb⟩
  | a =>
    refine ⟨hw, hr, ?_, hb⟩
    by_cases hv : v = 0x00
    · subst hv; exact planeWf_erase ha i
    · have hu : ¬ Space.unlisted .a = some v := fun h => hv (Option.some.inj h).symm
      have : (m.put .a i v).a = cellsInsert m.a i v := by
        unfold Memory.put; rw [if_neg hu]; rfl
      rw [this]; exact planeWf_insert ha hi hv
  | b =>
    refine ⟨hw, hr, ha, ?_⟩
    by_cases hv : v = 0x00
    · subst hv; exact planeWf_erase hb i
    · have hu : ¬ Space.unlisted .b = some v := fun h => hv (Option.some.inj h).symm
      have : (m.put .b i v).b = cellsInsert m.b i v := by
        unfold Memory.put; rw [if_neg hu]; rfl
      rw [this]; exact planeWf_insert hb hi hv

/-- The reset memory is in canonical form. -/
theorem Memory.reset_wf : Memory.reset.wf Params.default := by
  refine ⟨?_, ?_, ⟨List.Pairwise.nil, by simp [Memory.reset]⟩, ⟨List.Pairwise.nil, by simp [Memory.reset]⟩⟩
  · simp [bufferWf, Memory.reset, Function.comp_def]
  · simp [bufferWf, Memory.reset, Function.comp_def]

end Sys2Proof.Machine
end

