-- ==== Sys2Proof/Laws/State.lean ====
section
/-!
SUPPORT. What each named update leaves in each field of the state, one lemma per field per update,
so that no later proof unfolds a record update.
-/

namespace Sys2Proof.Machine

variable (s : State)

/-! ### recording a command -/

@[simp] theorem State.emit_cfg (w : CmdWord) (r : Option Byte) : (s.emit w r).cfg = s.cfg := rfl
@[simp] theorem State.emit_ts (w : CmdWord) (r : Option Byte) : (s.emit w r).ts = s.ts := rfl
@[simp] theorem State.emit_wl (w : CmdWord) (r : Option Byte) : (s.emit w r).wl = s.wl := rfl
@[simp] theorem State.emit_rl (w : CmdWord) (r : Option Byte) : (s.emit w r).rl = s.rl := rfl
@[simp] theorem State.emit_wc (w : CmdWord) (r : Option Byte) : (s.emit w r).wc = s.wc := rfl
@[simp] theorem State.emit_rc (w : CmdWord) (r : Option Byte) : (s.emit w r).rc = s.rc := rfl
@[simp] theorem State.emit_mem (w : CmdWord) (r : Option Byte) : (s.emit w r).mem = s.mem := rfl
@[simp] theorem State.emit_k (w : CmdWord) (r : Option Byte) : (s.emit w r).k = s.k := rfl
@[simp] theorem State.emit_res (w : CmdWord) (r : Option Byte) : (s.emit w r).res = s.res := rfl
@[simp] theorem State.emit_rbytes (w : CmdWord) (r : Option Byte) :
    (s.emit w r).rbytes = s.rbytes := rfl
@[simp] theorem State.emit_initd (w : CmdWord) (r : Option Byte) :
    (s.emit w r).initd = s.initd := rfl
@[simp] theorem State.emit_halted (w : CmdWord) (r : Option Byte) :
    (s.emit w r).halted = s.halted := rfl
@[simp] theorem State.emit_fgph (w : CmdWord) (r : Option Byte) : (s.emit w r).fgph = s.fgph := rfl
@[simp] theorem State.emit_req (w : CmdWord) (r : Option Byte) : (s.emit w r).req = s.req := rfl
@[simp] theorem State.emit_returning (w : CmdWord) (r : Option Byte) :
    (s.emit w r).returning = s.returning := rfl
@[simp] theorem State.emit_pix (w : CmdWord) (r : Option Byte) : (s.emit w r).pix = s.pix := rfl
@[simp] theorem State.emit_en (w : CmdWord) (r : Option Byte) : (s.emit w r).en = s.en := rfl
@[simp] theorem State.emit_ien (w : CmdWord) (r : Option Byte) : (s.emit w r).ien = s.ien := rfl
@[simp] theorem State.emit_si (w : CmdWord) (r : Option Byte) : (s.emit w r).si = s.si := rfl
@[simp] theorem State.emit_sts (w : CmdWord) (r : Option Byte) : (s.emit w r).sts = s.sts := rfl
@[simp] theorem State.emit_sta (w : CmdWord) (r : Option Byte) : (s.emit w r).sta = s.sta := rfl
@[simp] theorem State.emit_sto (w : CmdWord) (r : Option Byte) : (s.emit w r).sto = s.sto := rfl
@[simp] theorem State.emit_aa (w : CmdWord) (r : Option Byte) : (s.emit w r).aa = s.aa := rfl
@[simp] theorem State.emit_dat (w : CmdWord) (r : Option Byte) : (s.emit w r).dat = s.dat := rfl
@[simp] theorem State.emit_presc (w : CmdWord) (r : Option Byte) :
    (s.emit w r).presc = s.presc := rfl
@[simp] theorem State.emit_fa (w : CmdWord) (r : Option Byte) : (s.emit w r).fa = s.fa := rfl
@[simp] theorem State.emit_la (w : CmdWord) (r : Option Byte) : (s.emit w r).la = s.la := rfl
@[simp] theorem State.emit_pclk (w : CmdWord) (r : Option Byte) : (s.emit w r).pclk = s.pclk := rfl
@[simp] theorem State.emit_d (w : CmdWord) (r : Option Byte) : (s.emit w r).d = s.d := rfl
@[simp] theorem State.emit_fault (w : CmdWord) (r : Option Byte) :
    (s.emit w r).fault = s.fault := rfl
@[simp] theorem State.emit_buslog (w : CmdWord) (r : Option Byte) :
    (s.emit w r).buslog = s.buslog := rfl
@[simp] theorem State.emit_cph (w : CmdWord) (r : Option Byte) : (s.emit w r).cph = s.cph := rfl
@[simp] theorem State.emit_last (w : CmdWord) (r : Option Byte) : (s.emit w r).last = s.last := rfl
@[simp] theorem State.emit_cmdLog (w : CmdWord) (r : Option Byte) :
    (s.emit w r).cmdLog = s.cmdLog ++ [{ word := w, ret := r }] := rfl
@[simp] theorem State.emit_cmdPort (w : CmdWord) (r : Option Byte) :
    (s.emit w r).cmdPort = s.cmdPort := rfl
@[simp] theorem State.emit_script (w : CmdWord) (r : Option Byte) :
    (s.emit w r).script = s.script := rfl
@[simp] theorem State.emit_tick (w : CmdWord) (r : Option Byte) : (s.emit w r).tick = s.tick := rfl
@[simp] theorem State.emit_byteAt (w : CmdWord) (r : Option Byte) (sp' : Space) (j : Nat) :
    (s.emit w r).byteAt sp' j = s.byteAt sp' j := rfl

/-! ### `CLR_INT` -/

@[simp] theorem State.cmdClrInt_cfg : (s.cmdClrInt).cfg = s.cfg := rfl
@[simp] theorem State.cmdClrInt_ts : (s.cmdClrInt).ts = s.ts := rfl
@[simp] theorem State.cmdClrInt_wl : (s.cmdClrInt).wl = s.wl := rfl
@[simp] theorem State.cmdClrInt_rl : (s.cmdClrInt).rl = s.rl := rfl
@[simp] theorem State.cmdClrInt_wc : (s.cmdClrInt).wc = s.wc := rfl
@[simp] theorem State.cmdClrInt_rc : (s.cmdClrInt).rc = s.rc := rfl
@[simp] theorem State.cmdClrInt_mem : (s.cmdClrInt).mem = s.mem := rfl
@[simp] theorem State.cmdClrInt_k : (s.cmdClrInt).k = s.k := rfl
@[simp] theorem State.cmdClrInt_res : (s.cmdClrInt).res = s.res := rfl
@[simp] theorem State.cmdClrInt_rbytes : (s.cmdClrInt).rbytes = s.rbytes := rfl
@[simp] theorem State.cmdClrInt_initd : (s.cmdClrInt).initd = s.initd := rfl
@[simp] theorem State.cmdClrInt_halted : (s.cmdClrInt).halted = s.halted := rfl
@[simp] theorem State.cmdClrInt_fgph : (s.cmdClrInt).fgph = s.fgph := rfl
@[simp] theorem State.cmdClrInt_req : (s.cmdClrInt).req = s.req := rfl
@[simp] theorem State.cmdClrInt_returning : (s.cmdClrInt).returning = s.returning := rfl
@[simp] theorem State.cmdClrInt_pix : (s.cmdClrInt).pix = s.pix := rfl
@[simp] theorem State.cmdClrInt_en : (s.cmdClrInt).en = s.en := rfl
@[simp] theorem State.cmdClrInt_ien : (s.cmdClrInt).ien = s.ien := rfl
@[simp] theorem State.cmdClrInt_si : (s.cmdClrInt).si = false := rfl
@[simp] theorem State.cmdClrInt_sts : (s.cmdClrInt).sts = s.sts := rfl
@[simp] theorem State.cmdClrInt_sta : (s.cmdClrInt).sta = s.sta := rfl
@[simp] theorem State.cmdClrInt_sto : (s.cmdClrInt).sto = s.sto := rfl
@[simp] theorem State.cmdClrInt_aa : (s.cmdClrInt).aa = s.aa := rfl
@[simp] theorem State.cmdClrInt_dat : (s.cmdClrInt).dat = s.dat := rfl
@[simp] theorem State.cmdClrInt_presc : (s.cmdClrInt).presc = s.presc := rfl
@[simp] theorem State.cmdClrInt_fa : (s.cmdClrInt).fa = s.fa := rfl
@[simp] theorem State.cmdClrInt_la : (s.cmdClrInt).la = s.la := rfl
@[simp] theorem State.cmdClrInt_pclk : (s.cmdClrInt).pclk = s.pclk := rfl
@[simp] theorem State.cmdClrInt_d : (s.cmdClrInt).d = s.d := rfl
@[simp] theorem State.cmdClrInt_fault : (s.cmdClrInt).fault = s.fault := rfl
@[simp] theorem State.cmdClrInt_buslog : (s.cmdClrInt).buslog = s.buslog := rfl
@[simp] theorem State.cmdClrInt_cph : (s.cmdClrInt).cph = s.cph := rfl
@[simp] theorem State.cmdClrInt_last : (s.cmdClrInt).last = s.last := rfl
@[simp] theorem State.cmdClrInt_cmdLog :
    (s.cmdClrInt).cmdLog = s.cmdLog ++ [{ word := cmdWord 0x0 0, ret := none }] := rfl
@[simp] theorem State.cmdClrInt_cmdPort : (s.cmdClrInt).cmdPort = s.cmdPort := rfl
@[simp] theorem State.cmdClrInt_script : (s.cmdClrInt).script = s.script := rfl
@[simp] theorem State.cmdClrInt_tick : (s.cmdClrInt).tick = s.tick := rfl
@[simp] theorem State.cmdClrInt_byteAt (sp' : Space) (j : Nat) :
    (s.cmdClrInt).byteAt sp' j = s.byteAt sp' j := rfl

/-! ### `SET_STA` -/

@[simp] theorem State.cmdSetSta_cfg : (s.cmdSetSta).cfg = s.cfg := rfl
@[simp] theorem State.cmdSetSta_ts : (s.cmdSetSta).ts = s.ts := rfl
@[simp] theorem State.cmdSetSta_wl : (s.cmdSetSta).wl = s.wl := rfl
@[simp] theorem State.cmdSetSta_rl : (s.cmdSetSta).rl = s.rl := rfl
@[simp] theorem State.cmdSetSta_wc : (s.cmdSetSta).wc = s.wc := rfl
@[simp] theorem State.cmdSetSta_rc : (s.cmdSetSta).rc = s.rc := rfl
@[simp] theorem State.cmdSetSta_mem : (s.cmdSetSta).mem = s.mem := rfl
@[simp] theorem State.cmdSetSta_k : (s.cmdSetSta).k = s.k := rfl
@[simp] theorem State.cmdSetSta_res : (s.cmdSetSta).res = s.res := rfl
@[simp] theorem State.cmdSetSta_rbytes : (s.cmdSetSta).rbytes = s.rbytes := rfl
@[simp] theorem State.cmdSetSta_initd : (s.cmdSetSta).initd = s.initd := rfl
@[simp] theorem State.cmdSetSta_halted : (s.cmdSetSta).halted = s.halted := rfl
@[simp] theorem State.cmdSetSta_fgph : (s.cmdSetSta).fgph = s.fgph := rfl
@[simp] theorem State.cmdSetSta_req : (s.cmdSetSta).req = s.req := rfl
@[simp] theorem State.cmdSetSta_returning : (s.cmdSetSta).returning = s.returning := rfl
@[simp] theorem State.cmdSetSta_pix : (s.cmdSetSta).pix = s.pix := rfl
@[simp] theorem State.cmdSetSta_en : (s.cmdSetSta).en = s.en := rfl
@[simp] theorem State.cmdSetSta_ien : (s.cmdSetSta).ien = s.ien := rfl
@[simp] theorem State.cmdSetSta_si : (s.cmdSetSta).si = s.si := rfl
@[simp] theorem State.cmdSetSta_sts : (s.cmdSetSta).sts = s.sts := rfl
@[simp] theorem State.cmdSetSta_sta : (s.cmdSetSta).sta = true := rfl
@[simp] theorem State.cmdSetSta_sto : (s.cmdSetSta).sto = s.sto := rfl
@[simp] theorem State.cmdSetSta_aa : (s.cmdSetSta).aa = s.aa := rfl
@[simp] theorem State.cmdSetSta_dat : (s.cmdSetSta).dat = s.dat := rfl
@[simp] theorem State.cmdSetSta_presc : (s.cmdSetSta).presc = s.presc := rfl
@[simp] theorem State.cmdSetSta_fa : (s.cmdSetSta).fa = s.fa := rfl
@[simp] theorem State.cmdSetSta_la : (s.cmdSetSta).la = s.la := rfl
@[simp] theorem State.cmdSetSta_pclk : (s.cmdSetSta).pclk = s.pclk := rfl
@[simp] theorem State.cmdSetSta_d : (s.cmdSetSta).d = s.d := rfl
@[simp] theorem State.cmdSetSta_fault : (s.cmdSetSta).fault = s.fault := rfl
@[simp] theorem State.cmdSetSta_buslog : (s.cmdSetSta).buslog = s.buslog := rfl
@[simp] theorem State.cmdSetSta_cph : (s.cmdSetSta).cph = s.cph := rfl
@[simp] theorem State.cmdSetSta_last : (s.cmdSetSta).last = s.last := rfl
@[simp] theorem State.cmdSetSta_cmdLog :
    (s.cmdSetSta).cmdLog = s.cmdLog ++ [{ word := cmdWord 0x1 0, ret := none }] := rfl
@[simp] theorem State.cmdSetSta_cmdPort : (s.cmdSetSta).cmdPort = s.cmdPort := rfl
@[simp] theorem State.cmdSetSta_script : (s.cmdSetSta).script = s.script := rfl
@[simp] theorem State.cmdSetSta_tick : (s.cmdSetSta).tick = s.tick := rfl
@[simp] theorem State.cmdSetSta_byteAt (sp' : Space) (j : Nat) :
    (s.cmdSetSta).byteAt sp' j = s.byteAt sp' j := rfl

/-! ### `CLR_STA` -/

@[simp] theorem State.cmdClrSta_cfg : (s.cmdClrSta).cfg = s.cfg := rfl
@[simp] theorem State.cmdClrSta_ts : (s.cmdClrSta).ts = s.ts := rfl
@[simp] theorem State.cmdClrSta_wl : (s.cmdClrSta).wl = s.wl := rfl
@[simp] theorem State.cmdClrSta_rl : (s.cmdClrSta).rl = s.rl := rfl
@[simp] theorem State.cmdClrSta_wc : (s.cmdClrSta).wc = s.wc := rfl
@[simp] theorem State.cmdClrSta_rc : (s.cmdClrSta).rc = s.rc := rfl
@[simp] theorem State.cmdClrSta_mem : (s.cmdClrSta).mem = s.mem := rfl
@[simp] theorem State.cmdClrSta_k : (s.cmdClrSta).k = s.k := rfl
@[simp] theorem State.cmdClrSta_res : (s.cmdClrSta).res = s.res := rfl
@[simp] theorem State.cmdClrSta_rbytes : (s.cmdClrSta).rbytes = s.rbytes := rfl
@[simp] theorem State.cmdClrSta_initd : (s.cmdClrSta).initd = s.initd := rfl
@[simp] theorem State.cmdClrSta_halted : (s.cmdClrSta).halted = s.halted := rfl
@[simp] theorem State.cmdClrSta_fgph : (s.cmdClrSta).fgph = s.fgph := rfl
@[simp] theorem State.cmdClrSta_req : (s.cmdClrSta).req = s.req := rfl
@[simp] theorem State.cmdClrSta_returning : (s.cmdClrSta).returning = s.returning := rfl
@[simp] theorem State.cmdClrSta_pix : (s.cmdClrSta).pix = s.pix := rfl
@[simp] theorem State.cmdClrSta_en : (s.cmdClrSta).en = s.en := rfl
@[simp] theorem State.cmdClrSta_ien : (s.cmdClrSta).ien = s.ien := rfl
@[simp] theorem State.cmdClrSta_si : (s.cmdClrSta).si = s.si := rfl
@[simp] theorem State.cmdClrSta_sts : (s.cmdClrSta).sts = s.sts := rfl
@[simp] theorem State.cmdClrSta_sta : (s.cmdClrSta).sta = false := rfl
@[simp] theorem State.cmdClrSta_sto : (s.cmdClrSta).sto = s.sto := rfl
@[simp] theorem State.cmdClrSta_aa : (s.cmdClrSta).aa = s.aa := rfl
@[simp] theorem State.cmdClrSta_dat : (s.cmdClrSta).dat = s.dat := rfl
@[simp] theorem State.cmdClrSta_presc : (s.cmdClrSta).presc = s.presc := rfl
@[simp] theorem State.cmdClrSta_fa : (s.cmdClrSta).fa = s.fa := rfl
@[simp] theorem State.cmdClrSta_la : (s.cmdClrSta).la = s.la := rfl
@[simp] theorem State.cmdClrSta_pclk : (s.cmdClrSta).pclk = s.pclk := rfl
@[simp] theorem State.cmdClrSta_d : (s.cmdClrSta).d = s.d := rfl
@[simp] theorem State.cmdClrSta_fault : (s.cmdClrSta).fault = s.fault := rfl
@[simp] theorem State.cmdClrSta_buslog : (s.cmdClrSta).buslog = s.buslog := rfl
@[simp] theorem State.cmdClrSta_cph : (s.cmdClrSta).cph = s.cph := rfl
@[simp] theorem State.cmdClrSta_last : (s.cmdClrSta).last = s.last := rfl
@[simp] theorem State.cmdClrSta_cmdLog :
    (s.cmdClrSta).cmdLog = s.cmdLog ++ [{ word := cmdWord 0x2 0, ret := none }] := rfl
@[simp] theorem State.cmdClrSta_cmdPort : (s.cmdClrSta).cmdPort = s.cmdPort := rfl
@[simp] theorem State.cmdClrSta_script : (s.cmdClrSta).script = s.script := rfl
@[simp] theorem State.cmdClrSta_tick : (s.cmdClrSta).tick = s.tick := rfl
@[simp] theorem State.cmdClrSta_byteAt (sp' : Space) (j : Nat) :
    (s.cmdClrSta).byteAt sp' j = s.byteAt sp' j := rfl

/-! ### `SET_STO` -/

@[simp] theorem State.cmdSetSto_cfg : (s.cmdSetSto).cfg = s.cfg := rfl
@[simp] theorem State.cmdSetSto_ts : (s.cmdSetSto).ts = s.ts := rfl
@[simp] theorem State.cmdSetSto_wl : (s.cmdSetSto).wl = s.wl := rfl
@[simp] theorem State.cmdSetSto_rl : (s.cmdSetSto).rl = s.rl := rfl
@[simp] theorem State.cmdSetSto_wc : (s.cmdSetSto).wc = s.wc := rfl
@[simp] theorem State.cmdSetSto_rc : (s.cmdSetSto).rc = s.rc := rfl
@[simp] theorem State.cmdSetSto_mem : (s.cmdSetSto).mem = s.mem := rfl
@[simp] theorem State.cmdSetSto_k : (s.cmdSetSto).k = s.k := rfl
@[simp] theorem State.cmdSetSto_res : (s.cmdSetSto).res = s.res := rfl
@[simp] theorem State.cmdSetSto_rbytes : (s.cmdSetSto).rbytes = s.rbytes := rfl
@[simp] theorem State.cmdSetSto_initd : (s.cmdSetSto).initd = s.initd := rfl
@[simp] theorem State.cmdSetSto_halted : (s.cmdSetSto).halted = s.halted := rfl
@[simp] theorem State.cmdSetSto_fgph : (s.cmdSetSto).fgph = s.fgph := rfl
@[simp] theorem State.cmdSetSto_req : (s.cmdSetSto).req = s.req := rfl
@[simp] theorem State.cmdSetSto_returning : (s.cmdSetSto).returning = s.returning := rfl
@[simp] theorem State.cmdSetSto_pix : (s.cmdSetSto).pix = s.pix := rfl
@[simp] theorem State.cmdSetSto_en : (s.cmdSetSto).en = s.en := rfl
@[simp] theorem State.cmdSetSto_ien : (s.cmdSetSto).ien = s.ien := rfl
@[simp] theorem State.cmdSetSto_si : (s.cmdSetSto).si = s.si := rfl
@[simp] theorem State.cmdSetSto_sts : (s.cmdSetSto).sts = s.sts := rfl
@[simp] theorem State.cmdSetSto_sta : (s.cmdSetSto).sta = s.sta := rfl
@[simp] theorem State.cmdSetSto_sto : (s.cmdSetSto).sto = true := rfl
@[simp] theorem State.cmdSetSto_aa : (s.cmdSetSto).aa = s.aa := rfl
@[simp] theorem State.cmdSetSto_dat : (s.cmdSetSto).dat = s.dat := rfl
@[simp] theorem State.cmdSetSto_presc : (s.cmdSetSto).presc = s.presc := rfl
@[simp] theorem State.cmdSetSto_fa : (s.cmdSetSto).fa = s.fa := rfl
@[simp] theorem State.cmdSetSto_la : (s.cmdSetSto).la = s.la := rfl
@[simp] theorem State.cmdSetSto_pclk : (s.cmdSetSto).pclk = s.pclk := rfl
@[simp] theorem State.cmdSetSto_d : (s.cmdSetSto).d = s.d := rfl
@[simp] theorem State.cmdSetSto_fault : (s.cmdSetSto).fault = s.fault := rfl
@[simp] theorem State.cmdSetSto_buslog : (s.cmdSetSto).buslog = s.buslog := rfl
@[simp] theorem State.cmdSetSto_cph : (s.cmdSetSto).cph = s.cph := rfl
@[simp] theorem State.cmdSetSto_last : (s.cmdSetSto).last = s.last := rfl
@[simp] theorem State.cmdSetSto_cmdLog :
    (s.cmdSetSto).cmdLog = s.cmdLog ++ [{ word := cmdWord 0x3 0, ret := none }] := rfl
@[simp] theorem State.cmdSetSto_cmdPort : (s.cmdSetSto).cmdPort = s.cmdPort := rfl
@[simp] theorem State.cmdSetSto_script : (s.cmdSetSto).script = s.script := rfl
@[simp] theorem State.cmdSetSto_tick : (s.cmdSetSto).tick = s.tick := rfl
@[simp] theorem State.cmdSetSto_byteAt (sp' : Space) (j : Nat) :
    (s.cmdSetSto).byteAt sp' j = s.byteAt sp' j := rfl

/-! ### `SET_AA` -/

@[simp] theorem State.cmdSetAa_cfg : (s.cmdSetAa).cfg = s.cfg := rfl
@[simp] theorem State.cmdSetAa_ts : (s.cmdSetAa).ts = s.ts := rfl
@[simp] theorem State.cmdSetAa_wl : (s.cmdSetAa).wl = s.wl := rfl
@[simp] theorem State.cmdSetAa_rl : (s.cmdSetAa).rl = s.rl := rfl
@[simp] theorem State.cmdSetAa_wc : (s.cmdSetAa).wc = s.wc := rfl
@[simp] theorem State.cmdSetAa_rc : (s.cmdSetAa).rc = s.rc := rfl
@[simp] theorem State.cmdSetAa_mem : (s.cmdSetAa).mem = s.mem := rfl
@[simp] theorem State.cmdSetAa_k : (s.cmdSetAa).k = s.k := rfl
@[simp] theorem State.cmdSetAa_res : (s.cmdSetAa).res = s.res := rfl
@[simp] theorem State.cmdSetAa_rbytes : (s.cmdSetAa).rbytes = s.rbytes := rfl
@[simp] theorem State.cmdSetAa_initd : (s.cmdSetAa).initd = s.initd := rfl
@[simp] theorem State.cmdSetAa_halted : (s.cmdSetAa).halted = s.halted := rfl
@[simp] theorem State.cmdSetAa_fgph : (s.cmdSetAa).fgph = s.fgph := rfl
@[simp] theorem State.cmdSetAa_req : (s.cmdSetAa).req = s.req := rfl
@[simp] theorem State.cmdSetAa_returning : (s.cmdSetAa).returning = s.returning := rfl
@[simp] theorem State.cmdSetAa_pix : (s.cmdSetAa).pix = s.pix := rfl
@[simp] theorem State.cmdSetAa_en : (s.cmdSetAa).en = s.en := rfl
@[simp] theorem State.cmdSetAa_ien : (s.cmdSetAa).ien = s.ien := rfl
@[simp] theorem State.cmdSetAa_si : (s.cmdSetAa).si = s.si := rfl
@[simp] theorem State.cmdSetAa_sts : (s.cmdSetAa).sts = s.sts := rfl
@[simp] theorem State.cmdSetAa_sta : (s.cmdSetAa).sta = s.sta := rfl
@[simp] theorem State.cmdSetAa_sto : (s.cmdSetAa).sto = s.sto := rfl
@[simp] theorem State.cmdSetAa_aa : (s.cmdSetAa).aa = true := rfl
@[simp] theorem State.cmdSetAa_dat : (s.cmdSetAa).dat = s.dat := rfl
@[simp] theorem State.cmdSetAa_presc : (s.cmdSetAa).presc = s.presc := rfl
@[simp] theorem State.cmdSetAa_fa : (s.cmdSetAa).fa = s.fa := rfl
@[simp] theorem State.cmdSetAa_la : (s.cmdSetAa).la = s.la := rfl
@[simp] theorem State.cmdSetAa_pclk : (s.cmdSetAa).pclk = s.pclk := rfl
@[simp] theorem State.cmdSetAa_d : (s.cmdSetAa).d = s.d := rfl
@[simp] theorem State.cmdSetAa_fault : (s.cmdSetAa).fault = s.fault := rfl
@[simp] theorem State.cmdSetAa_buslog : (s.cmdSetAa).buslog = s.buslog := rfl
@[simp] theorem State.cmdSetAa_cph : (s.cmdSetAa).cph = s.cph := rfl
@[simp] theorem State.cmdSetAa_last : (s.cmdSetAa).last = s.last := rfl
@[simp] theorem State.cmdSetAa_cmdLog :
    (s.cmdSetAa).cmdLog = s.cmdLog ++ [{ word := cmdWord 0x4 0, ret := none }] := rfl
@[simp] theorem State.cmdSetAa_cmdPort : (s.cmdSetAa).cmdPort = s.cmdPort := rfl
@[simp] theorem State.cmdSetAa_script : (s.cmdSetAa).script = s.script := rfl
@[simp] theorem State.cmdSetAa_tick : (s.cmdSetAa).tick = s.tick := rfl
@[simp] theorem State.cmdSetAa_byteAt (sp' : Space) (j : Nat) :
    (s.cmdSetAa).byteAt sp' j = s.byteAt sp' j := rfl

/-! ### `CLR_AA` -/

@[simp] theorem State.cmdClrAa_cfg : (s.cmdClrAa).cfg = s.cfg := rfl
@[simp] theorem State.cmdClrAa_ts : (s.cmdClrAa).ts = s.ts := rfl
@[simp] theorem State.cmdClrAa_wl : (s.cmdClrAa).wl = s.wl := rfl
@[simp] theorem State.cmdClrAa_rl : (s.cmdClrAa).rl = s.rl := rfl
@[simp] theorem State.cmdClrAa_wc : (s.cmdClrAa).wc = s.wc := rfl
@[simp] theorem State.cmdClrAa_rc : (s.cmdClrAa).rc = s.rc := rfl
@[simp] theorem State.cmdClrAa_mem : (s.cmdClrAa).mem = s.mem := rfl
@[simp] theorem State.cmdClrAa_k : (s.cmdClrAa).k = s.k := rfl
@[simp] theorem State.cmdClrAa_res : (s.cmdClrAa).res = s.res := rfl
@[simp] theorem State.cmdClrAa_rbytes : (s.cmdClrAa).rbytes = s.rbytes := rfl
@[simp] theorem State.cmdClrAa_initd : (s.cmdClrAa).initd = s.initd := rfl
@[simp] theorem State.cmdClrAa_halted : (s.cmdClrAa).halted = s.halted := rfl
@[simp] theorem State.cmdClrAa_fgph : (s.cmdClrAa).fgph = s.fgph := rfl
@[simp] theorem State.cmdClrAa_req : (s.cmdClrAa).req = s.req := rfl
@[simp] theorem State.cmdClrAa_returning : (s.cmdClrAa).returning = s.returning := rfl
@[simp] theorem State.cmdClrAa_pix : (s.cmdClrAa).pix = s.pix := rfl
@[simp] theorem State.cmdClrAa_en : (s.cmdClrAa).en = s.en := rfl
@[simp] theorem State.cmdClrAa_ien : (s.cmdClrAa).ien = s.ien := rfl
@[simp] theorem State.cmdClrAa_si : (s.cmdClrAa).si = s.si := rfl
@[simp] theorem State.cmdClrAa_sts : (s.cmdClrAa).sts = s.sts := rfl
@[simp] theorem State.cmdClrAa_sta : (s.cmdClrAa).sta = s.sta := rfl
@[simp] theorem State.cmdClrAa_sto : (s.cmdClrAa).sto = s.sto := rfl
@[simp] theorem State.cmdClrAa_aa : (s.cmdClrAa).aa = false := rfl
@[simp] theorem State.cmdClrAa_dat : (s.cmdClrAa).dat = s.dat := rfl
@[simp] theorem State.cmdClrAa_presc : (s.cmdClrAa).presc = s.presc := rfl
@[simp] theorem State.cmdClrAa_fa : (s.cmdClrAa).fa = s.fa := rfl
@[simp] theorem State.cmdClrAa_la : (s.cmdClrAa).la = s.la := rfl
@[simp] theorem State.cmdClrAa_pclk : (s.cmdClrAa).pclk = s.pclk := rfl
@[simp] theorem State.cmdClrAa_d : (s.cmdClrAa).d = s.d := rfl
@[simp] theorem State.cmdClrAa_fault : (s.cmdClrAa).fault = s.fault := rfl
@[simp] theorem State.cmdClrAa_buslog : (s.cmdClrAa).buslog = s.buslog := rfl
@[simp] theorem State.cmdClrAa_cph : (s.cmdClrAa).cph = s.cph := rfl
@[simp] theorem State.cmdClrAa_last : (s.cmdClrAa).last = s.last := rfl
@[simp] theorem State.cmdClrAa_cmdLog :
    (s.cmdClrAa).cmdLog = s.cmdLog ++ [{ word := cmdWord 0x5 0, ret := none }] := rfl
@[simp] theorem State.cmdClrAa_cmdPort : (s.cmdClrAa).cmdPort = s.cmdPort := rfl
@[simp] theorem State.cmdClrAa_script : (s.cmdClrAa).script = s.script := rfl
@[simp] theorem State.cmdClrAa_tick : (s.cmdClrAa).tick = s.tick := rfl
@[simp] theorem State.cmdClrAa_byteAt (sp' : Space) (j : Nat) :
    (s.cmdClrAa).byteAt sp' j = s.byteAt sp' j := rfl

/-! ### `WR_DAT` -/

@[simp] theorem State.cmdWrDat_cfg (b : Byte) : (s.cmdWrDat b).cfg = s.cfg := rfl
@[simp] theorem State.cmdWrDat_ts (b : Byte) : (s.cmdWrDat b).ts = s.ts := rfl
@[simp] theorem State.cmdWrDat_wl (b : Byte) : (s.cmdWrDat b).wl = s.wl := rfl
@[simp] theorem State.cmdWrDat_rl (b : Byte) : (s.cmdWrDat b).rl = s.rl := rfl
@[simp] theorem State.cmdWrDat_wc (b : Byte) : (s.cmdWrDat b).wc = s.wc := rfl
@[simp] theorem State.cmdWrDat_rc (b : Byte) : (s.cmdWrDat b).rc = s.rc := rfl
@[simp] theorem State.cmdWrDat_mem (b : Byte) : (s.cmdWrDat b).mem = s.mem := rfl
@[simp] theorem State.cmdWrDat_k (b : Byte) : (s.cmdWrDat b).k = s.k := rfl
@[simp] theorem State.cmdWrDat_res (b : Byte) : (s.cmdWrDat b).res = s.res := rfl
@[simp] theorem State.cmdWrDat_rbytes (b : Byte) : (s.cmdWrDat b).rbytes = s.rbytes := rfl
@[simp] theorem State.cmdWrDat_initd (b : Byte) : (s.cmdWrDat b).initd = s.initd := rfl
@[simp] theorem State.cmdWrDat_halted (b : Byte) : (s.cmdWrDat b).halted = s.halted := rfl
@[simp] theorem State.cmdWrDat_fgph (b : Byte) : (s.cmdWrDat b).fgph = s.fgph := rfl
@[simp] theorem State.cmdWrDat_req (b : Byte) : (s.cmdWrDat b).req = s.req := rfl
@[simp] theorem State.cmdWrDat_returning (b : Byte) : (s.cmdWrDat b).returning = s.returning := rfl
@[simp] theorem State.cmdWrDat_pix (b : Byte) : (s.cmdWrDat b).pix = s.pix := rfl
@[simp] theorem State.cmdWrDat_en (b : Byte) : (s.cmdWrDat b).en = s.en := rfl
@[simp] theorem State.cmdWrDat_ien (b : Byte) : (s.cmdWrDat b).ien = s.ien := rfl
@[simp] theorem State.cmdWrDat_si (b : Byte) : (s.cmdWrDat b).si = s.si := rfl
@[simp] theorem State.cmdWrDat_sts (b : Byte) : (s.cmdWrDat b).sts = s.sts := rfl
@[simp] theorem State.cmdWrDat_sta (b : Byte) : (s.cmdWrDat b).sta = s.sta := rfl
@[simp] theorem State.cmdWrDat_sto (b : Byte) : (s.cmdWrDat b).sto = s.sto := rfl
@[simp] theorem State.cmdWrDat_aa (b : Byte) : (s.cmdWrDat b).aa = s.aa := rfl
@[simp] theorem State.cmdWrDat_dat (b : Byte) : (s.cmdWrDat b).dat = b := rfl
@[simp] theorem State.cmdWrDat_presc (b : Byte) : (s.cmdWrDat b).presc = s.presc := rfl
@[simp] theorem State.cmdWrDat_fa (b : Byte) : (s.cmdWrDat b).fa = s.fa := rfl
@[simp] theorem State.cmdWrDat_la (b : Byte) : (s.cmdWrDat b).la = s.la := rfl
@[simp] theorem State.cmdWrDat_pclk (b : Byte) : (s.cmdWrDat b).pclk = s.pclk := rfl
@[simp] theorem State.cmdWrDat_d (b : Byte) : (s.cmdWrDat b).d = s.d := rfl
@[simp] theorem State.cmdWrDat_fault (b : Byte) : (s.cmdWrDat b).fault = s.fault := rfl
@[simp] theorem State.cmdWrDat_buslog (b : Byte) : (s.cmdWrDat b).buslog = s.buslog := rfl
@[simp] theorem State.cmdWrDat_cph (b : Byte) : (s.cmdWrDat b).cph = s.cph := rfl
@[simp] theorem State.cmdWrDat_last (b : Byte) : (s.cmdWrDat b).last = s.last := rfl
@[simp] theorem State.cmdWrDat_cmdLog (b : Byte) :
    (s.cmdWrDat b).cmdLog = s.cmdLog ++ [{ word := cmdWord 0x6 b, ret := none }] := rfl
@[simp] theorem State.cmdWrDat_cmdPort (b : Byte) : (s.cmdWrDat b).cmdPort = s.cmdPort := rfl
@[simp] theorem State.cmdWrDat_script (b : Byte) : (s.cmdWrDat b).script = s.script := rfl
@[simp] theorem State.cmdWrDat_tick (b : Byte) : (s.cmdWrDat b).tick = s.tick := rfl
@[simp] theorem State.cmdWrDat_byteAt (b : Byte) (sp' : Space) (j : Nat) :
    (s.cmdWrDat b).byteAt sp' j = s.byteAt sp' j := rfl

/-! ### `RD_DAT` -/

@[simp] theorem State.cmdRdDat_cfg : (s.cmdRdDat).cfg = s.cfg := rfl
@[simp] theorem State.cmdRdDat_ts : (s.cmdRdDat).ts = s.ts := rfl
@[simp] theorem State.cmdRdDat_wl : (s.cmdRdDat).wl = s.wl := rfl
@[simp] theorem State.cmdRdDat_rl : (s.cmdRdDat).rl = s.rl := rfl
@[simp] theorem State.cmdRdDat_wc : (s.cmdRdDat).wc = s.wc := rfl
@[simp] theorem State.cmdRdDat_rc : (s.cmdRdDat).rc = s.rc := rfl
@[simp] theorem State.cmdRdDat_mem : (s.cmdRdDat).mem = s.mem := rfl
@[simp] theorem State.cmdRdDat_k : (s.cmdRdDat).k = s.k := rfl
@[simp] theorem State.cmdRdDat_res : (s.cmdRdDat).res = s.res := rfl
@[simp] theorem State.cmdRdDat_rbytes : (s.cmdRdDat).rbytes = s.rbytes := rfl
@[simp] theorem State.cmdRdDat_initd : (s.cmdRdDat).initd = s.initd := rfl
@[simp] theorem State.cmdRdDat_halted : (s.cmdRdDat).halted = s.halted := rfl
@[simp] theorem State.cmdRdDat_fgph : (s.cmdRdDat).fgph = s.fgph := rfl
@[simp] theorem State.cmdRdDat_req : (s.cmdRdDat).req = s.req := rfl
@[simp] theorem State.cmdRdDat_returning : (s.cmdRdDat).returning = s.returning := rfl
@[simp] theorem State.cmdRdDat_pix : (s.cmdRdDat).pix = s.pix := rfl
@[simp] theorem State.cmdRdDat_en : (s.cmdRdDat).en = s.en := rfl
@[simp] theorem State.cmdRdDat_ien : (s.cmdRdDat).ien = s.ien := rfl
@[simp] theorem State.cmdRdDat_si : (s.cmdRdDat).si = s.si := rfl
@[simp] theorem State.cmdRdDat_sts : (s.cmdRdDat).sts = s.sts := rfl
@[simp] theorem State.cmdRdDat_sta : (s.cmdRdDat).sta = s.sta := rfl
@[simp] theorem State.cmdRdDat_sto : (s.cmdRdDat).sto = s.sto := rfl
@[simp] theorem State.cmdRdDat_aa : (s.cmdRdDat).aa = s.aa := rfl
@[simp] theorem State.cmdRdDat_dat : (s.cmdRdDat).dat = s.dat := rfl
@[simp] theorem State.cmdRdDat_presc : (s.cmdRdDat).presc = s.presc := rfl
@[simp] theorem State.cmdRdDat_fa : (s.cmdRdDat).fa = s.fa := rfl
@[simp] theorem State.cmdRdDat_la : (s.cmdRdDat).la = s.la := rfl
@[simp] theorem State.cmdRdDat_pclk : (s.cmdRdDat).pclk = s.pclk := rfl
@[simp] theorem State.cmdRdDat_d : (s.cmdRdDat).d = s.d := rfl
@[simp] theorem State.cmdRdDat_fault : (s.cmdRdDat).fault = s.fault := rfl
@[simp] theorem State.cmdRdDat_buslog : (s.cmdRdDat).buslog = s.buslog := rfl
@[simp] theorem State.cmdRdDat_cph : (s.cmdRdDat).cph = s.cph := rfl
@[simp] theorem State.cmdRdDat_last : (s.cmdRdDat).last = s.last := rfl
@[simp] theorem State.cmdRdDat_cmdLog :
    (s.cmdRdDat).cmdLog = s.cmdLog ++ [{ word := cmdWord 0x7 0, ret := some s.dat }] := rfl
@[simp] theorem State.cmdRdDat_cmdPort : (s.cmdRdDat).cmdPort = s.cmdPort := rfl
@[simp] theorem State.cmdRdDat_script : (s.cmdRdDat).script = s.script := rfl
@[simp] theorem State.cmdRdDat_tick : (s.cmdRdDat).tick = s.tick := rfl
@[simp] theorem State.cmdRdDat_byteAt (sp' : Space) (j : Nat) :
    (s.cmdRdDat).byteAt sp' j = s.byteAt sp' j := rfl

/-! ### `RD_STS` -/

@[simp] theorem State.cmdRdSts_cfg : (s.cmdRdSts).cfg = s.cfg := rfl
@[simp] theorem State.cmdRdSts_ts : (s.cmdRdSts).ts = s.ts := rfl
@[simp] theorem State.cmdRdSts_wl : (s.cmdRdSts).wl = s.wl := rfl
@[simp] theorem State.cmdRdSts_rl : (s.cmdRdSts).rl = s.rl := rfl
@[simp] theorem State.cmdRdSts_wc : (s.cmdRdSts).wc = s.wc := rfl
@[simp] theorem State.cmdRdSts_rc : (s.cmdRdSts).rc = s.rc := rfl
@[simp] theorem State.cmdRdSts_mem : (s.cmdRdSts).mem = s.mem := rfl
@[simp] theorem State.cmdRdSts_k : (s.cmdRdSts).k = s.k := rfl
@[simp] theorem State.cmdRdSts_res : (s.cmdRdSts).res = s.res := rfl
@[simp] theorem State.cmdRdSts_rbytes : (s.cmdRdSts).rbytes = s.rbytes := rfl
@[simp] theorem State.cmdRdSts_initd : (s.cmdRdSts).initd = s.initd := rfl
@[simp] theorem State.cmdRdSts_halted : (s.cmdRdSts).halted = s.halted := rfl
@[simp] theorem State.cmdRdSts_fgph : (s.cmdRdSts).fgph = s.fgph := rfl
@[simp] theorem State.cmdRdSts_req : (s.cmdRdSts).req = s.req := rfl
@[simp] theorem State.cmdRdSts_returning : (s.cmdRdSts).returning = s.returning := rfl
@[simp] theorem State.cmdRdSts_pix : (s.cmdRdSts).pix = s.pix := rfl
@[simp] theorem State.cmdRdSts_en : (s.cmdRdSts).en = s.en := rfl
@[simp] theorem State.cmdRdSts_ien : (s.cmdRdSts).ien = s.ien := rfl
@[simp] theorem State.cmdRdSts_si : (s.cmdRdSts).si = s.si := rfl
@[simp] theorem State.cmdRdSts_sts : (s.cmdRdSts).sts = s.sts := rfl
@[simp] theorem State.cmdRdSts_sta : (s.cmdRdSts).sta = s.sta := rfl
@[simp] theorem State.cmdRdSts_sto : (s.cmdRdSts).sto = s.sto := rfl
@[simp] theorem State.cmdRdSts_aa : (s.cmdRdSts).aa = s.aa := rfl
@[simp] theorem State.cmdRdSts_dat : (s.cmdRdSts).dat = s.dat := rfl
@[simp] theorem State.cmdRdSts_presc : (s.cmdRdSts).presc = s.presc := rfl
@[simp] theorem State.cmdRdSts_fa : (s.cmdRdSts).fa = s.fa := rfl
@[simp] theorem State.cmdRdSts_la : (s.cmdRdSts).la = s.la := rfl
@[simp] theorem State.cmdRdSts_pclk : (s.cmdRdSts).pclk = s.pclk := rfl
@[simp] theorem State.cmdRdSts_d : (s.cmdRdSts).d = s.d := rfl
@[simp] theorem State.cmdRdSts_fault : (s.cmdRdSts).fault = s.fault := rfl
@[simp] theorem State.cmdRdSts_buslog : (s.cmdRdSts).buslog = s.buslog := rfl
@[simp] theorem State.cmdRdSts_cph : (s.cmdRdSts).cph = s.cph := rfl
@[simp] theorem State.cmdRdSts_last : (s.cmdRdSts).last = s.last := rfl
@[simp] theorem State.cmdRdSts_cmdLog :
    (s.cmdRdSts).cmdLog = s.cmdLog ++ [{ word := cmdWord 0x8 0, ret := some s.sts }] := rfl
@[simp] theorem State.cmdRdSts_cmdPort : (s.cmdRdSts).cmdPort = s.cmdPort := rfl
@[simp] theorem State.cmdRdSts_script : (s.cmdRdSts).script = s.script := rfl
@[simp] theorem State.cmdRdSts_tick : (s.cmdRdSts).tick = s.tick := rfl
@[simp] theorem State.cmdRdSts_byteAt (sp' : Space) (j : Nat) :
    (s.cmdRdSts).byteAt sp' j = s.byteAt sp' j := rfl

/-! ### `CFG_EN` -/

@[simp] theorem State.cmdCfgEn_cfg (p : Byte) : (s.cmdCfgEn p).cfg = s.cfg := rfl
@[simp] theorem State.cmdCfgEn_ts (p : Byte) : (s.cmdCfgEn p).ts = s.ts := rfl
@[simp] theorem State.cmdCfgEn_wl (p : Byte) : (s.cmdCfgEn p).wl = s.wl := rfl
@[simp] theorem State.cmdCfgEn_rl (p : Byte) : (s.cmdCfgEn p).rl = s.rl := rfl
@[simp] theorem State.cmdCfgEn_wc (p : Byte) : (s.cmdCfgEn p).wc = s.wc := rfl
@[simp] theorem State.cmdCfgEn_rc (p : Byte) : (s.cmdCfgEn p).rc = s.rc := rfl
@[simp] theorem State.cmdCfgEn_mem (p : Byte) : (s.cmdCfgEn p).mem = s.mem := rfl
@[simp] theorem State.cmdCfgEn_k (p : Byte) : (s.cmdCfgEn p).k = s.k := rfl
@[simp] theorem State.cmdCfgEn_res (p : Byte) : (s.cmdCfgEn p).res = s.res := rfl
@[simp] theorem State.cmdCfgEn_rbytes (p : Byte) : (s.cmdCfgEn p).rbytes = s.rbytes := rfl
@[simp] theorem State.cmdCfgEn_initd (p : Byte) : (s.cmdCfgEn p).initd = s.initd := rfl
@[simp] theorem State.cmdCfgEn_halted (p : Byte) : (s.cmdCfgEn p).halted = s.halted := rfl
@[simp] theorem State.cmdCfgEn_fgph (p : Byte) : (s.cmdCfgEn p).fgph = s.fgph := rfl
@[simp] theorem State.cmdCfgEn_req (p : Byte) : (s.cmdCfgEn p).req = s.req := rfl
@[simp] theorem State.cmdCfgEn_returning (p : Byte) : (s.cmdCfgEn p).returning = s.returning := rfl
@[simp] theorem State.cmdCfgEn_pix (p : Byte) : (s.cmdCfgEn p).pix = s.pix := rfl
@[simp] theorem State.cmdCfgEn_en (p : Byte) : (s.cmdCfgEn p).en = true := rfl
@[simp] theorem State.cmdCfgEn_ien (p : Byte) : (s.cmdCfgEn p).ien = true := rfl
@[simp] theorem State.cmdCfgEn_si (p : Byte) : (s.cmdCfgEn p).si = s.si := rfl
@[simp] theorem State.cmdCfgEn_sts (p : Byte) : (s.cmdCfgEn p).sts = s.sts := rfl
@[simp] theorem State.cmdCfgEn_sta (p : Byte) : (s.cmdCfgEn p).sta = s.sta := rfl
@[simp] theorem State.cmdCfgEn_sto (p : Byte) : (s.cmdCfgEn p).sto = s.sto := rfl
@[simp] theorem State.cmdCfgEn_aa (p : Byte) : (s.cmdCfgEn p).aa = s.aa := rfl
@[simp] theorem State.cmdCfgEn_dat (p : Byte) : (s.cmdCfgEn p).dat = s.dat := rfl
@[simp] theorem State.cmdCfgEn_presc (p : Byte) : (s.cmdCfgEn p).presc = p := rfl
@[simp] theorem State.cmdCfgEn_fa (p : Byte) : (s.cmdCfgEn p).fa = s.fa := rfl
@[simp] theorem State.cmdCfgEn_la (p : Byte) : (s.cmdCfgEn p).la = s.la := rfl
@[simp] theorem State.cmdCfgEn_pclk (p : Byte) : (s.cmdCfgEn p).pclk = s.pclk := rfl
@[simp] theorem State.cmdCfgEn_d (p : Byte) : (s.cmdCfgEn p).d = s.d := rfl
@[simp] theorem State.cmdCfgEn_fault (p : Byte) : (s.cmdCfgEn p).fault = s.fault := rfl
@[simp] theorem State.cmdCfgEn_buslog (p : Byte) : (s.cmdCfgEn p).buslog = s.buslog := rfl
@[simp] theorem State.cmdCfgEn_cph (p : Byte) : (s.cmdCfgEn p).cph = s.cph := rfl
@[simp] theorem State.cmdCfgEn_last (p : Byte) : (s.cmdCfgEn p).last = s.last := rfl
@[simp] theorem State.cmdCfgEn_cmdLog (p : Byte) :
    (s.cmdCfgEn p).cmdLog = s.cmdLog ++ [{ word := cmdWord 0x9 p, ret := none }] := rfl
@[simp] theorem State.cmdCfgEn_cmdPort (p : Byte) : (s.cmdCfgEn p).cmdPort = s.cmdPort := rfl
@[simp] theorem State.cmdCfgEn_script (p : Byte) : (s.cmdCfgEn p).script = s.script := rfl
@[simp] theorem State.cmdCfgEn_tick (p : Byte) : (s.cmdCfgEn p).tick = s.tick := rfl
@[simp] theorem State.cmdCfgEn_byteAt (p : Byte) (sp' : Space) (j : Nat) :
    (s.cmdCfgEn p).byteAt sp' j = s.byteAt sp' j := rfl

/-! ### `TS <- v` -/

@[simp] theorem State.setTs_cfg (v : TxState) : (s.setTs v).cfg = s.cfg := rfl
@[simp] theorem State.setTs_ts (v : TxState) : (s.setTs v).ts = v := rfl
@[simp] theorem State.setTs_wl (v : TxState) : (s.setTs v).wl = s.wl := rfl
@[simp] theorem State.setTs_rl (v : TxState) : (s.setTs v).rl = s.rl := rfl
@[simp] theorem State.setTs_wc (v : TxState) : (s.setTs v).wc = s.wc := rfl
@[simp] theorem State.setTs_rc (v : TxState) : (s.setTs v).rc = s.rc := rfl
@[simp] theorem State.setTs_mem (v : TxState) : (s.setTs v).mem = s.mem := rfl
@[simp] theorem State.setTs_k (v : TxState) : (s.setTs v).k = s.k := rfl
@[simp] theorem State.setTs_res (v : TxState) : (s.setTs v).res = s.res := rfl
@[simp] theorem State.setTs_rbytes (v : TxState) : (s.setTs v).rbytes = s.rbytes := rfl
@[simp] theorem State.setTs_initd (v : TxState) : (s.setTs v).initd = s.initd := rfl
@[simp] theorem State.setTs_halted (v : TxState) : (s.setTs v).halted = s.halted := rfl
@[simp] theorem State.setTs_fgph (v : TxState) : (s.setTs v).fgph = s.fgph := rfl
@[simp] theorem State.setTs_req (v : TxState) : (s.setTs v).req = s.req := rfl
@[simp] theorem State.setTs_returning (v : TxState) : (s.setTs v).returning = s.returning := rfl
@[simp] theorem State.setTs_pix (v : TxState) : (s.setTs v).pix = s.pix := rfl
@[simp] theorem State.setTs_en (v : TxState) : (s.setTs v).en = s.en := rfl
@[simp] theorem State.setTs_ien (v : TxState) : (s.setTs v).ien = s.ien := rfl
@[simp] theorem State.setTs_si (v : TxState) : (s.setTs v).si = s.si := rfl
@[simp] theorem State.setTs_sts (v : TxState) : (s.setTs v).sts = s.sts := rfl
@[simp] theorem State.setTs_sta (v : TxState) : (s.setTs v).sta = s.sta := rfl
@[simp] theorem State.setTs_sto (v : TxState) : (s.setTs v).sto = s.sto := rfl
@[simp] theorem State.setTs_aa (v : TxState) : (s.setTs v).aa = s.aa := rfl
@[simp] theorem State.setTs_dat (v : TxState) : (s.setTs v).dat = s.dat := rfl
@[simp] theorem State.setTs_presc (v : TxState) : (s.setTs v).presc = s.presc := rfl
@[simp] theorem State.setTs_fa (v : TxState) : (s.setTs v).fa = s.fa := rfl
@[simp] theorem State.setTs_la (v : TxState) : (s.setTs v).la = s.la := rfl
@[simp] theorem State.setTs_pclk (v : TxState) : (s.setTs v).pclk = s.pclk := rfl
@[simp] theorem State.setTs_d (v : TxState) : (s.setTs v).d = s.d := rfl
@[simp] theorem State.setTs_fault (v : TxState) : (s.setTs v).fault = s.fault := rfl
@[simp] theorem State.setTs_buslog (v : TxState) : (s.setTs v).buslog = s.buslog := rfl
@[simp] theorem State.setTs_cph (v : TxState) : (s.setTs v).cph = s.cph := rfl
@[simp] theorem State.setTs_last (v : TxState) : (s.setTs v).last = s.last := rfl
@[simp] theorem State.setTs_cmdLog (v : TxState) : (s.setTs v).cmdLog = s.cmdLog := rfl
@[simp] theorem State.setTs_cmdPort (v : TxState) : (s.setTs v).cmdPort = s.cmdPort := rfl
@[simp] theorem State.setTs_script (v : TxState) : (s.setTs v).script = s.script := rfl
@[simp] theorem State.setTs_tick (v : TxState) : (s.setTs v).tick = s.tick := rfl
@[simp] theorem State.setTs_byteAt (v : TxState) (sp' : Space) (j : Nat) :
    (s.setTs v).byteAt sp' j = s.byteAt sp' j := rfl

/-! ### `WL <- n` -/

@[simp] theorem State.setWl_cfg (n : Nat) : (s.setWl n).cfg = s.cfg := rfl
@[simp] theorem State.setWl_ts (n : Nat) : (s.setWl n).ts = s.ts := rfl
@[simp] theorem State.setWl_wl (n : Nat) : (s.setWl n).wl = n := rfl
@[simp] theorem State.setWl_rl (n : Nat) : (s.setWl n).rl = s.rl := rfl
@[simp] theorem State.setWl_wc (n : Nat) : (s.setWl n).wc = s.wc := rfl
@[simp] theorem State.setWl_rc (n : Nat) : (s.setWl n).rc = s.rc := rfl
@[simp] theorem State.setWl_mem (n : Nat) : (s.setWl n).mem = s.mem := rfl
@[simp] theorem State.setWl_k (n : Nat) : (s.setWl n).k = s.k := rfl
@[simp] theorem State.setWl_res (n : Nat) : (s.setWl n).res = s.res := rfl
@[simp] theorem State.setWl_rbytes (n : Nat) : (s.setWl n).rbytes = s.rbytes := rfl
@[simp] theorem State.setWl_initd (n : Nat) : (s.setWl n).initd = s.initd := rfl
@[simp] theorem State.setWl_halted (n : Nat) : (s.setWl n).halted = s.halted := rfl
@[simp] theorem State.setWl_fgph (n : Nat) : (s.setWl n).fgph = s.fgph := rfl
@[simp] theorem State.setWl_req (n : Nat) : (s.setWl n).req = s.req := rfl
@[simp] theorem State.setWl_returning (n : Nat) : (s.setWl n).returning = s.returning := rfl
@[simp] theorem State.setWl_pix (n : Nat) : (s.setWl n).pix = s.pix := rfl
@[simp] theorem State.setWl_en (n : Nat) : (s.setWl n).en = s.en := rfl
@[simp] theorem State.setWl_ien (n : Nat) : (s.setWl n).ien = s.ien := rfl
@[simp] theorem State.setWl_si (n : Nat) : (s.setWl n).si = s.si := rfl
@[simp] theorem State.setWl_sts (n : Nat) : (s.setWl n).sts = s.sts := rfl
@[simp] theorem State.setWl_sta (n : Nat) : (s.setWl n).sta = s.sta := rfl
@[simp] theorem State.setWl_sto (n : Nat) : (s.setWl n).sto = s.sto := rfl
@[simp] theorem State.setWl_aa (n : Nat) : (s.setWl n).aa = s.aa := rfl
@[simp] theorem State.setWl_dat (n : Nat) : (s.setWl n).dat = s.dat := rfl
@[simp] theorem State.setWl_presc (n : Nat) : (s.setWl n).presc = s.presc := rfl
@[simp] theorem State.setWl_fa (n : Nat) : (s.setWl n).fa = s.fa := rfl
@[simp] theorem State.setWl_la (n : Nat) : (s.setWl n).la = s.la := rfl
@[simp] theorem State.setWl_pclk (n : Nat) : (s.setWl n).pclk = s.pclk := rfl
@[simp] theorem State.setWl_d (n : Nat) : (s.setWl n).d = s.d := rfl
@[simp] theorem State.setWl_fault (n : Nat) : (s.setWl n).fault = s.fault := rfl
@[simp] theorem State.setWl_buslog (n : Nat) : (s.setWl n).buslog = s.buslog := rfl
@[simp] theorem State.setWl_cph (n : Nat) : (s.setWl n).cph = s.cph := rfl
@[simp] theorem State.setWl_last (n : Nat) : (s.setWl n).last = s.last := rfl
@[simp] theorem State.setWl_cmdLog (n : Nat) : (s.setWl n).cmdLog = s.cmdLog := rfl
@[simp] theorem State.setWl_cmdPort (n : Nat) : (s.setWl n).cmdPort = s.cmdPort := rfl
@[simp] theorem State.setWl_script (n : Nat) : (s.setWl n).script = s.script := rfl
@[simp] theorem State.setWl_tick (n : Nat) : (s.setWl n).tick = s.tick := rfl
@[simp] theorem State.setWl_byteAt (n : Nat) (sp' : Space) (j : Nat) :
    (s.setWl n).byteAt sp' j = s.byteAt sp' j := rfl

/-! ### `RL <- n` -/

@[simp] theorem State.setRl_cfg (n : Nat) : (s.setRl n).cfg = s.cfg := rfl
@[simp] theorem State.setRl_ts (n : Nat) : (s.setRl n).ts = s.ts := rfl
@[simp] theorem State.setRl_wl (n : Nat) : (s.setRl n).wl = s.wl := rfl
@[simp] theorem State.setRl_rl (n : Nat) : (s.setRl n).rl = n := rfl
@[simp] theorem State.setRl_wc (n : Nat) : (s.setRl n).wc = s.wc := rfl
@[simp] theorem State.setRl_rc (n : Nat) : (s.setRl n).rc = s.rc := rfl
@[simp] theorem State.setRl_mem (n : Nat) : (s.setRl n).mem = s.mem := rfl
@[simp] theorem State.setRl_k (n : Nat) : (s.setRl n).k = s.k := rfl
@[simp] theorem State.setRl_res (n : Nat) : (s.setRl n).res = s.res := rfl
@[simp] theorem State.setRl_rbytes (n : Nat) : (s.setRl n).rbytes = s.rbytes := rfl
@[simp] theorem State.setRl_initd (n : Nat) : (s.setRl n).initd = s.initd := rfl
@[simp] theorem State.setRl_halted (n : Nat) : (s.setRl n).halted = s.halted := rfl
@[simp] theorem State.setRl_fgph (n : Nat) : (s.setRl n).fgph = s.fgph := rfl
@[simp] theorem State.setRl_req (n : Nat) : (s.setRl n).req = s.req := rfl
@[simp] theorem State.setRl_returning (n : Nat) : (s.setRl n).returning = s.returning := rfl
@[simp] theorem State.setRl_pix (n : Nat) : (s.setRl n).pix = s.pix := rfl
@[simp] theorem State.setRl_en (n : Nat) : (s.setRl n).en = s.en := rfl
@[simp] theorem State.setRl_ien (n : Nat) : (s.setRl n).ien = s.ien := rfl
@[simp] theorem State.setRl_si (n : Nat) : (s.setRl n).si = s.si := rfl
@[simp] theorem State.setRl_sts (n : Nat) : (s.setRl n).sts = s.sts := rfl
@[simp] theorem State.setRl_sta (n : Nat) : (s.setRl n).sta = s.sta := rfl
@[simp] theorem State.setRl_sto (n : Nat) : (s.setRl n).sto = s.sto := rfl
@[simp] theorem State.setRl_aa (n : Nat) : (s.setRl n).aa = s.aa := rfl
@[simp] theorem State.setRl_dat (n : Nat) : (s.setRl n).dat = s.dat := rfl
@[simp] theorem State.setRl_presc (n : Nat) : (s.setRl n).presc = s.presc := rfl
@[simp] theorem State.setRl_fa (n : Nat) : (s.setRl n).fa = s.fa := rfl
@[simp] theorem State.setRl_la (n : Nat) : (s.setRl n).la = s.la := rfl
@[simp] theorem State.setRl_pclk (n : Nat) : (s.setRl n).pclk = s.pclk := rfl
@[simp] theorem State.setRl_d (n : Nat) : (s.setRl n).d = s.d := rfl
@[simp] theorem State.setRl_fault (n : Nat) : (s.setRl n).fault = s.fault := rfl
@[simp] theorem State.setRl_buslog (n : Nat) : (s.setRl n).buslog = s.buslog := rfl
@[simp] theorem State.setRl_cph (n : Nat) : (s.setRl n).cph = s.cph := rfl
@[simp] theorem State.setRl_last (n : Nat) : (s.setRl n).last = s.last := rfl
@[simp] theorem State.setRl_cmdLog (n : Nat) : (s.setRl n).cmdLog = s.cmdLog := rfl
@[simp] theorem State.setRl_cmdPort (n : Nat) : (s.setRl n).cmdPort = s.cmdPort := rfl
@[simp] theorem State.setRl_script (n : Nat) : (s.setRl n).script = s.script := rfl
@[simp] theorem State.setRl_tick (n : Nat) : (s.setRl n).tick = s.tick := rfl
@[simp] theorem State.setRl_byteAt (n : Nat) (sp' : Space) (j : Nat) :
    (s.setRl n).byteAt sp' j = s.byteAt sp' j := rfl

/-! ### `WC <- n` -/

@[simp] theorem State.setWc_cfg (n : Nat) : (s.setWc n).cfg = s.cfg := rfl
@[simp] theorem State.setWc_ts (n : Nat) : (s.setWc n).ts = s.ts := rfl
@[simp] theorem State.setWc_wl (n : Nat) : (s.setWc n).wl = s.wl := rfl
@[simp] theorem State.setWc_rl (n : Nat) : (s.setWc n).rl = s.rl := rfl
@[simp] theorem State.setWc_wc (n : Nat) : (s.setWc n).wc = n := rfl
@[simp] theorem State.setWc_rc (n : Nat) : (s.setWc n).rc = s.rc := rfl
@[simp] theorem State.setWc_mem (n : Nat) : (s.setWc n).mem = s.mem := rfl
@[simp] theorem State.setWc_k (n : Nat) : (s.setWc n).k = s.k := rfl
@[simp] theorem State.setWc_res (n : Nat) : (s.setWc n).res = s.res := rfl
@[simp] theorem State.setWc_rbytes (n : Nat) : (s.setWc n).rbytes = s.rbytes := rfl
@[simp] theorem State.setWc_initd (n : Nat) : (s.setWc n).initd = s.initd := rfl
@[simp] theorem State.setWc_halted (n : Nat) : (s.setWc n).halted = s.halted := rfl
@[simp] theorem State.setWc_fgph (n : Nat) : (s.setWc n).fgph = s.fgph := rfl
@[simp] theorem State.setWc_req (n : Nat) : (s.setWc n).req = s.req := rfl
@[simp] theorem State.setWc_returning (n : Nat) : (s.setWc n).returning = s.returning := rfl
@[simp] theorem State.setWc_pix (n : Nat) : (s.setWc n).pix = s.pix := rfl
@[simp] theorem State.setWc_en (n : Nat) : (s.setWc n).en = s.en := rfl
@[simp] theorem State.setWc_ien (n : Nat) : (s.setWc n).ien = s.ien := rfl
@[simp] theorem State.setWc_si (n : Nat) : (s.setWc n).si = s.si := rfl
@[simp] theorem State.setWc_sts (n : Nat) : (s.setWc n).sts = s.sts := rfl
@[simp] theorem State.setWc_sta (n : Nat) : (s.setWc n).sta = s.sta := rfl
@[simp] theorem State.setWc_sto (n : Nat) : (s.setWc n).sto = s.sto := rfl
@[simp] theorem State.setWc_aa (n : Nat) : (s.setWc n).aa = s.aa := rfl
@[simp] theorem State.setWc_dat (n : Nat) : (s.setWc n).dat = s.dat := rfl
@[simp] theorem State.setWc_presc (n : Nat) : (s.setWc n).presc = s.presc := rfl
@[simp] theorem State.setWc_fa (n : Nat) : (s.setWc n).fa = s.fa := rfl
@[simp] theorem State.setWc_la (n : Nat) : (s.setWc n).la = s.la := rfl
@[simp] theorem State.setWc_pclk (n : Nat) : (s.setWc n).pclk = s.pclk := rfl
@[simp] theorem State.setWc_d (n : Nat) : (s.setWc n).d = s.d := rfl
@[simp] theorem State.setWc_fault (n : Nat) : (s.setWc n).fault = s.fault := rfl
@[simp] theorem State.setWc_buslog (n : Nat) : (s.setWc n).buslog = s.buslog := rfl
@[simp] theorem State.setWc_cph (n : Nat) : (s.setWc n).cph = s.cph := rfl
@[simp] theorem State.setWc_last (n : Nat) : (s.setWc n).last = s.last := rfl
@[simp] theorem State.setWc_cmdLog (n : Nat) : (s.setWc n).cmdLog = s.cmdLog := rfl
@[simp] theorem State.setWc_cmdPort (n : Nat) : (s.setWc n).cmdPort = s.cmdPort := rfl
@[simp] theorem State.setWc_script (n : Nat) : (s.setWc n).script = s.script := rfl
@[simp] theorem State.setWc_tick (n : Nat) : (s.setWc n).tick = s.tick := rfl
@[simp] theorem State.setWc_byteAt (n : Nat) (sp' : Space) (j : Nat) :
    (s.setWc n).byteAt sp' j = s.byteAt sp' j := rfl

/-! ### `RC <- n` -/

@[simp] theorem State.setRc_cfg (n : Nat) : (s.setRc n).cfg = s.cfg := rfl
@[simp] theorem State.setRc_ts (n : Nat) : (s.setRc n).ts = s.ts := rfl
@[simp] theorem State.setRc_wl (n : Nat) : (s.setRc n).wl = s.wl := rfl
@[simp] theorem State.setRc_rl (n : Nat) : (s.setRc n).rl = s.rl := rfl
@[simp] theorem State.setRc_wc (n : Nat) : (s.setRc n).wc = s.wc := rfl
@[simp] theorem State.setRc_rc (n : Nat) : (s.setRc n).rc = n := rfl
@[simp] theorem State.setRc_mem (n : Nat) : (s.setRc n).mem = s.mem := rfl
@[simp] theorem State.setRc_k (n : Nat) : (s.setRc n).k = s.k := rfl
@[simp] theorem State.setRc_res (n : Nat) : (s.setRc n).res = s.res := rfl
@[simp] theorem State.setRc_rbytes (n : Nat) : (s.setRc n).rbytes = s.rbytes := rfl
@[simp] theorem State.setRc_initd (n : Nat) : (s.setRc n).initd = s.initd := rfl
@[simp] theorem State.setRc_halted (n : Nat) : (s.setRc n).halted = s.halted := rfl
@[simp] theorem State.setRc_fgph (n : Nat) : (s.setRc n).fgph = s.fgph := rfl
@[simp] theorem State.setRc_req (n : Nat) : (s.setRc n).req = s.req := rfl
@[simp] theorem State.setRc_returning (n : Nat) : (s.setRc n).returning = s.returning := rfl
@[simp] theorem State.setRc_pix (n : Nat) : (s.setRc n).pix = s.pix := rfl
@[simp] theorem State.setRc_en (n : Nat) : (s.setRc n).en = s.en := rfl
@[simp] theorem State.setRc_ien (n : Nat) : (s.setRc n).ien = s.ien := rfl
@[simp] theorem State.setRc_si (n : Nat) : (s.setRc n).si = s.si := rfl
@[simp] theorem State.setRc_sts (n : Nat) : (s.setRc n).sts = s.sts := rfl
@[simp] theorem State.setRc_sta (n : Nat) : (s.setRc n).sta = s.sta := rfl
@[simp] theorem State.setRc_sto (n : Nat) : (s.setRc n).sto = s.sto := rfl
@[simp] theorem State.setRc_aa (n : Nat) : (s.setRc n).aa = s.aa := rfl
@[simp] theorem State.setRc_dat (n : Nat) : (s.setRc n).dat = s.dat := rfl
@[simp] theorem State.setRc_presc (n : Nat) : (s.setRc n).presc = s.presc := rfl
@[simp] theorem State.setRc_fa (n : Nat) : (s.setRc n).fa = s.fa := rfl
@[simp] theorem State.setRc_la (n : Nat) : (s.setRc n).la = s.la := rfl
@[simp] theorem State.setRc_pclk (n : Nat) : (s.setRc n).pclk = s.pclk := rfl
@[simp] theorem State.setRc_d (n : Nat) : (s.setRc n).d = s.d := rfl
@[simp] theorem State.setRc_fault (n : Nat) : (s.setRc n).fault = s.fault := rfl
@[simp] theorem State.setRc_buslog (n : Nat) : (s.setRc n).buslog = s.buslog := rfl
@[simp] theorem State.setRc_cph (n : Nat) : (s.setRc n).cph = s.cph := rfl
@[simp] theorem State.setRc_last (n : Nat) : (s.setRc n).last = s.last := rfl
@[simp] theorem State.setRc_cmdLog (n : Nat) : (s.setRc n).cmdLog = s.cmdLog := rfl
@[simp] theorem State.setRc_cmdPort (n : Nat) : (s.setRc n).cmdPort = s.cmdPort := rfl
@[simp] theorem State.setRc_script (n : Nat) : (s.setRc n).script = s.script := rfl
@[simp] theorem State.setRc_tick (n : Nat) : (s.setRc n).tick = s.tick := rfl
@[simp] theorem State.setRc_byteAt (n : Nat) (sp' : Space) (j : Nat) :
    (s.setRc n).byteAt sp' j = s.byteAt sp' j := rfl

/-! ### `K <- n` -/

@[simp] theorem State.setK_cfg (n : Nat) : (s.setK n).cfg = s.cfg := rfl
@[simp] theorem State.setK_ts (n : Nat) : (s.setK n).ts = s.ts := rfl
@[simp] theorem State.setK_wl (n : Nat) : (s.setK n).wl = s.wl := rfl
@[simp] theorem State.setK_rl (n : Nat) : (s.setK n).rl = s.rl := rfl
@[simp] theorem State.setK_wc (n : Nat) : (s.setK n).wc = s.wc := rfl
@[simp] theorem State.setK_rc (n : Nat) : (s.setK n).rc = s.rc := rfl
@[simp] theorem State.setK_mem (n : Nat) : (s.setK n).mem = s.mem := rfl
@[simp] theorem State.setK_k (n : Nat) : (s.setK n).k = n := rfl
@[simp] theorem State.setK_res (n : Nat) : (s.setK n).res = s.res := rfl
@[simp] theorem State.setK_rbytes (n : Nat) : (s.setK n).rbytes = s.rbytes := rfl
@[simp] theorem State.setK_initd (n : Nat) : (s.setK n).initd = s.initd := rfl
@[simp] theorem State.setK_halted (n : Nat) : (s.setK n).halted = s.halted := rfl
@[simp] theorem State.setK_fgph (n : Nat) : (s.setK n).fgph = s.fgph := rfl
@[simp] theorem State.setK_req (n : Nat) : (s.setK n).req = s.req := rfl
@[simp] theorem State.setK_returning (n : Nat) : (s.setK n).returning = s.returning := rfl
@[simp] theorem State.setK_pix (n : Nat) : (s.setK n).pix = s.pix := rfl
@[simp] theorem State.setK_en (n : Nat) : (s.setK n).en = s.en := rfl
@[simp] theorem State.setK_ien (n : Nat) : (s.setK n).ien = s.ien := rfl
@[simp] theorem State.setK_si (n : Nat) : (s.setK n).si = s.si := rfl
@[simp] theorem State.setK_sts (n : Nat) : (s.setK n).sts = s.sts := rfl
@[simp] theorem State.setK_sta (n : Nat) : (s.setK n).sta = s.sta := rfl
@[simp] theorem State.setK_sto (n : Nat) : (s.setK n).sto = s.sto := rfl
@[simp] theorem State.setK_aa (n : Nat) : (s.setK n).aa = s.aa := rfl
@[simp] theorem State.setK_dat (n : Nat) : (s.setK n).dat = s.dat := rfl
@[simp] theorem State.setK_presc (n : Nat) : (s.setK n).presc = s.presc := rfl
@[simp] theorem State.setK_fa (n : Nat) : (s.setK n).fa = s.fa := rfl
@[simp] theorem State.setK_la (n : Nat) : (s.setK n).la = s.la := rfl
@[simp] theorem State.setK_pclk (n : Nat) : (s.setK n).pclk = s.pclk := rfl
@[simp] theorem State.setK_d (n : Nat) : (s.setK n).d = s.d := rfl
@[simp] theorem State.setK_fault (n : Nat) : (s.setK n).fault = s.fault := rfl
@[simp] theorem State.setK_buslog (n : Nat) : (s.setK n).buslog = s.buslog := rfl
@[simp] theorem State.setK_cph (n : Nat) : (s.setK n).cph = s.cph := rfl
@[simp] theorem State.setK_last (n : Nat) : (s.setK n).last = s.last := rfl
@[simp] theorem State.setK_cmdLog (n : Nat) : (s.setK n).cmdLog = s.cmdLog := rfl
@[simp] theorem State.setK_cmdPort (n : Nat) : (s.setK n).cmdPort = s.cmdPort := rfl
@[simp] theorem State.setK_script (n : Nat) : (s.setK n).script = s.script := rfl
@[simp] theorem State.setK_tick (n : Nat) : (s.setK n).tick = s.tick := rfl
@[simp] theorem State.setK_byteAt (n : Nat) (sp' : Space) (j : Nat) :
    (s.setK n).byteAt sp' j = s.byteAt sp' j := rfl

/-! ### `RES <- v` -/

@[simp] theorem State.setRes_cfg (v : Byte) : (s.setRes v).cfg = s.cfg := rfl
@[simp] theorem State.setRes_ts (v : Byte) : (s.setRes v).ts = s.ts := rfl
@[simp] theorem State.setRes_wl (v : Byte) : (s.setRes v).wl = s.wl := rfl
@[simp] theorem State.setRes_rl (v : Byte) : (s.setRes v).rl = s.rl := rfl
@[simp] theorem State.setRes_wc (v : Byte) : (s.setRes v).wc = s.wc := rfl
@[simp] theorem State.setRes_rc (v : Byte) : (s.setRes v).rc = s.rc := rfl
@[simp] theorem State.setRes_mem (v : Byte) : (s.setRes v).mem = s.mem := rfl
@[simp] theorem State.setRes_k (v : Byte) : (s.setRes v).k = s.k := rfl
@[simp] theorem State.setRes_res (v : Byte) : (s.setRes v).res = v := rfl
@[simp] theorem State.setRes_rbytes (v : Byte) : (s.setRes v).rbytes = s.rbytes := rfl
@[simp] theorem State.setRes_initd (v : Byte) : (s.setRes v).initd = s.initd := rfl
@[simp] theorem State.setRes_halted (v : Byte) : (s.setRes v).halted = s.halted := rfl
@[simp] theorem State.setRes_fgph (v : Byte) : (s.setRes v).fgph = s.fgph := rfl
@[simp] theorem State.setRes_req (v : Byte) : (s.setRes v).req = s.req := rfl
@[simp] theorem State.setRes_returning (v : Byte) : (s.setRes v).returning = s.returning := rfl
@[simp] theorem State.setRes_pix (v : Byte) : (s.setRes v).pix = s.pix := rfl
@[simp] theorem State.setRes_en (v : Byte) : (s.setRes v).en = s.en := rfl
@[simp] theorem State.setRes_ien (v : Byte) : (s.setRes v).ien = s.ien := rfl
@[simp] theorem State.setRes_si (v : Byte) : (s.setRes v).si = s.si := rfl
@[simp] theorem State.setRes_sts (v : Byte) : (s.setRes v).sts = s.sts := rfl
@[simp] theorem State.setRes_sta (v : Byte) : (s.setRes v).sta = s.sta := rfl
@[simp] theorem State.setRes_sto (v : Byte) : (s.setRes v).sto = s.sto := rfl
@[simp] theorem State.setRes_aa (v : Byte) : (s.setRes v).aa = s.aa := rfl
@[simp] theorem State.setRes_dat (v : Byte) : (s.setRes v).dat = s.dat := rfl
@[simp] theorem State.setRes_presc (v : Byte) : (s.setRes v).presc = s.presc := rfl
@[simp] theorem State.setRes_fa (v : Byte) : (s.setRes v).fa = s.fa := rfl
@[simp] theorem State.setRes_la (v : Byte) : (s.setRes v).la = s.la := rfl
@[simp] theorem State.setRes_pclk (v : Byte) : (s.setRes v).pclk = s.pclk := rfl
@[simp] theorem State.setRes_d (v : Byte) : (s.setRes v).d = s.d := rfl
@[simp] theorem State.setRes_fault (v : Byte) : (s.setRes v).fault = s.fault := rfl
@[simp] theorem State.setRes_buslog (v : Byte) : (s.setRes v).buslog = s.buslog := rfl
@[simp] theorem State.setRes_cph (v : Byte) : (s.setRes v).cph = s.cph := rfl
@[simp] theorem State.setRes_last (v : Byte) : (s.setRes v).last = s.last := rfl
@[simp] theorem State.setRes_cmdLog (v : Byte) : (s.setRes v).cmdLog = s.cmdLog := rfl
@[simp] theorem State.setRes_cmdPort (v : Byte) : (s.setRes v).cmdPort = s.cmdPort := rfl
@[simp] theorem State.setRes_script (v : Byte) : (s.setRes v).script = s.script := rfl
@[simp] theorem State.setRes_tick (v : Byte) : (s.setRes v).tick = s.tick := rfl
@[simp] theorem State.setRes_byteAt (v : Byte) (sp' : Space) (j : Nat) :
    (s.setRes v).byteAt sp' j = s.byteAt sp' j := rfl

/-! ### `RBYTES <- l` -/

@[simp] theorem State.setRbytes_cfg (l : List Byte) : (s.setRbytes l).cfg = s.cfg := rfl
@[simp] theorem State.setRbytes_ts (l : List Byte) : (s.setRbytes l).ts = s.ts := rfl
@[simp] theorem State.setRbytes_wl (l : List Byte) : (s.setRbytes l).wl = s.wl := rfl
@[simp] theorem State.setRbytes_rl (l : List Byte) : (s.setRbytes l).rl = s.rl := rfl
@[simp] theorem State.setRbytes_wc (l : List Byte) : (s.setRbytes l).wc = s.wc := rfl
@[simp] theorem State.setRbytes_rc (l : List Byte) : (s.setRbytes l).rc = s.rc := rfl
@[simp] theorem State.setRbytes_mem (l : List Byte) : (s.setRbytes l).mem = s.mem := rfl
@[simp] theorem State.setRbytes_k (l : List Byte) : (s.setRbytes l).k = s.k := rfl
@[simp] theorem State.setRbytes_res (l : List Byte) : (s.setRbytes l).res = s.res := rfl
@[simp] theorem State.setRbytes_rbytes (l : List Byte) : (s.setRbytes l).rbytes = l := rfl
@[simp] theorem State.setRbytes_initd (l : List Byte) : (s.setRbytes l).initd = s.initd := rfl
@[simp] theorem State.setRbytes_halted (l : List Byte) : (s.setRbytes l).halted = s.halted := rfl
@[simp] theorem State.setRbytes_fgph (l : List Byte) : (s.setRbytes l).fgph = s.fgph := rfl
@[simp] theorem State.setRbytes_req (l : List Byte) : (s.setRbytes l).req = s.req := rfl
@[simp] theorem State.setRbytes_returning (l : List Byte) :
    (s.setRbytes l).returning = s.returning := rfl
@[simp] theorem State.setRbytes_pix (l : List Byte) : (s.setRbytes l).pix = s.pix := rfl
@[simp] theorem State.setRbytes_en (l : List Byte) : (s.setRbytes l).en = s.en := rfl
@[simp] theorem State.setRbytes_ien (l : List Byte) : (s.setRbytes l).ien = s.ien := rfl
@[simp] theorem State.setRbytes_si (l : List Byte) : (s.setRbytes l).si = s.si := rfl
@[simp] theorem State.setRbytes_sts (l : List Byte) : (s.setRbytes l).sts = s.sts := rfl
@[simp] theorem State.setRbytes_sta (l : List Byte) : (s.setRbytes l).sta = s.sta := rfl
@[simp] theorem State.setRbytes_sto (l : List Byte) : (s.setRbytes l).sto = s.sto := rfl
@[simp] theorem State.setRbytes_aa (l : List Byte) : (s.setRbytes l).aa = s.aa := rfl
@[simp] theorem State.setRbytes_dat (l : List Byte) : (s.setRbytes l).dat = s.dat := rfl
@[simp] theorem State.setRbytes_presc (l : List Byte) : (s.setRbytes l).presc = s.presc := rfl
@[simp] theorem State.setRbytes_fa (l : List Byte) : (s.setRbytes l).fa = s.fa := rfl
@[simp] theorem State.setRbytes_la (l : List Byte) : (s.setRbytes l).la = s.la := rfl
@[simp] theorem State.setRbytes_pclk (l : List Byte) : (s.setRbytes l).pclk = s.pclk := rfl
@[simp] theorem State.setRbytes_d (l : List Byte) : (s.setRbytes l).d = s.d := rfl
@[simp] theorem State.setRbytes_fault (l : List Byte) : (s.setRbytes l).fault = s.fault := rfl
@[simp] theorem State.setRbytes_buslog (l : List Byte) : (s.setRbytes l).buslog = s.buslog := rfl
@[simp] theorem State.setRbytes_cph (l : List Byte) : (s.setRbytes l).cph = s.cph := rfl
@[simp] theorem State.setRbytes_last (l : List Byte) : (s.setRbytes l).last = s.last := rfl
@[simp] theorem State.setRbytes_cmdLog (l : List Byte) : (s.setRbytes l).cmdLog = s.cmdLog := rfl
@[simp] theorem State.setRbytes_cmdPort (l : List Byte) : (s.setRbytes l).cmdPort = s.cmdPort := rfl
@[simp] theorem State.setRbytes_script (l : List Byte) : (s.setRbytes l).script = s.script := rfl
@[simp] theorem State.setRbytes_tick (l : List Byte) : (s.setRbytes l).tick = s.tick := rfl
@[simp] theorem State.setRbytes_byteAt (l : List Byte) (sp' : Space) (j : Nat) :
    (s.setRbytes l).byteAt sp' j = s.byteAt sp' j := rfl

/-! ### `PIX <- n` -/

@[simp] theorem State.setPix_cfg (n : Nat) : (s.setPix n).cfg = s.cfg := rfl
@[simp] theorem State.setPix_ts (n : Nat) : (s.setPix n).ts = s.ts := rfl
@[simp] theorem State.setPix_wl (n : Nat) : (s.setPix n).wl = s.wl := rfl
@[simp] theorem State.setPix_rl (n : Nat) : (s.setPix n).rl = s.rl := rfl
@[simp] theorem State.setPix_wc (n : Nat) : (s.setPix n).wc = s.wc := rfl
@[simp] theorem State.setPix_rc (n : Nat) : (s.setPix n).rc = s.rc := rfl
@[simp] theorem State.setPix_mem (n : Nat) : (s.setPix n).mem = s.mem := rfl
@[simp] theorem State.setPix_k (n : Nat) : (s.setPix n).k = s.k := rfl
@[simp] theorem State.setPix_res (n : Nat) : (s.setPix n).res = s.res := rfl
@[simp] theorem State.setPix_rbytes (n : Nat) : (s.setPix n).rbytes = s.rbytes := rfl
@[simp] theorem State.setPix_initd (n : Nat) : (s.setPix n).initd = s.initd := rfl
@[simp] theorem State.setPix_halted (n : Nat) : (s.setPix n).halted = s.halted := rfl
@[simp] theorem State.setPix_fgph (n : Nat) : (s.setPix n).fgph = s.fgph := rfl
@[simp] theorem State.setPix_req (n : Nat) : (s.setPix n).req = s.req := rfl
@[simp] theorem State.setPix_returning (n : Nat) : (s.setPix n).returning = s.returning := rfl
@[simp] theorem State.setPix_pix (n : Nat) : (s.setPix n).pix = n := rfl
@[simp] theorem State.setPix_en (n : Nat) : (s.setPix n).en = s.en := rfl
@[simp] theorem State.setPix_ien (n : Nat) : (s.setPix n).ien = s.ien := rfl
@[simp] theorem State.setPix_si (n : Nat) : (s.setPix n).si = s.si := rfl
@[simp] theorem State.setPix_sts (n : Nat) : (s.setPix n).sts = s.sts := rfl
@[simp] theorem State.setPix_sta (n : Nat) : (s.setPix n).sta = s.sta := rfl
@[simp] theorem State.setPix_sto (n : Nat) : (s.setPix n).sto = s.sto := rfl
@[simp] theorem State.setPix_aa (n : Nat) : (s.setPix n).aa = s.aa := rfl
@[simp] theorem State.setPix_dat (n : Nat) : (s.setPix n).dat = s.dat := rfl
@[simp] theorem State.setPix_presc (n : Nat) : (s.setPix n).presc = s.presc := rfl
@[simp] theorem State.setPix_fa (n : Nat) : (s.setPix n).fa = s.fa := rfl
@[simp] theorem State.setPix_la (n : Nat) : (s.setPix n).la = s.la := rfl
@[simp] theorem State.setPix_pclk (n : Nat) : (s.setPix n).pclk = s.pclk := rfl
@[simp] theorem State.setPix_d (n : Nat) : (s.setPix n).d = s.d := rfl
@[simp] theorem State.setPix_fault (n : Nat) : (s.setPix n).fault = s.fault := rfl
@[simp] theorem State.setPix_buslog (n : Nat) : (s.setPix n).buslog = s.buslog := rfl
@[simp] theorem State.setPix_cph (n : Nat) : (s.setPix n).cph = s.cph := rfl
@[simp] theorem State.setPix_last (n : Nat) : (s.setPix n).last = s.last := rfl
@[simp] theorem State.setPix_cmdLog (n : Nat) : (s.setPix n).cmdLog = s.cmdLog := rfl
@[simp] theorem State.setPix_cmdPort (n : Nat) : (s.setPix n).cmdPort = s.cmdPort := rfl
@[simp] theorem State.setPix_script (n : Nat) : (s.setPix n).script = s.script := rfl
@[simp] theorem State.setPix_tick (n : Nat) : (s.setPix n).tick = s.tick := rfl
@[simp] theorem State.setPix_byteAt (n : Nat) (sp' : Space) (j : Nat) :
    (s.setPix n).byteAt sp' j = s.byteAt sp' j := rfl

/-! ### `INITD <- 1` -/

@[simp] theorem State.setInitd_cfg : (s.setInitd).cfg = s.cfg := rfl
@[simp] theorem State.setInitd_ts : (s.setInitd).ts = s.ts := rfl
@[simp] theorem State.setInitd_wl : (s.setInitd).wl = s.wl := rfl
@[simp] theorem State.setInitd_rl : (s.setInitd).rl = s.rl := rfl
@[simp] theorem State.setInitd_wc : (s.setInitd).wc = s.wc := rfl
@[simp] theorem State.setInitd_rc : (s.setInitd).rc = s.rc := rfl
@[simp] theorem State.setInitd_mem : (s.setInitd).mem = s.mem := rfl
@[simp] theorem State.setInitd_k : (s.setInitd).k = s.k := rfl
@[simp] theorem State.setInitd_res : (s.setInitd).res = s.res := rfl
@[simp] theorem State.setInitd_rbytes : (s.setInitd).rbytes = s.rbytes := rfl
@[simp] theorem State.setInitd_initd : (s.setInitd).initd = true := rfl
@[simp] theorem State.setInitd_halted : (s.setInitd).halted = s.halted := rfl
@[simp] theorem State.setInitd_fgph : (s.setInitd).fgph = s.fgph := rfl
@[simp] theorem State.setInitd_req : (s.setInitd).req = s.req := rfl
@[simp] theorem State.setInitd_returning : (s.setInitd).returning = s.returning := rfl
@[simp] theorem State.setInitd_pix : (s.setInitd).pix = s.pix := rfl
@[simp] theorem State.setInitd_en : (s.setInitd).en = s.en := rfl
@[simp] theorem State.setInitd_ien : (s.setInitd).ien = s.ien := rfl
@[simp] theorem State.setInitd_si : (s.setInitd).si = s.si := rfl
@[simp] theorem State.setInitd_sts : (s.setInitd).sts = s.sts := rfl
@[simp] theorem State.setInitd_sta : (s.setInitd).sta = s.sta := rfl
@[simp] theorem State.setInitd_sto : (s.setInitd).sto = s.sto := rfl
@[simp] theorem State.setInitd_aa : (s.setInitd).aa = s.aa := rfl
@[simp] theorem State.setInitd_dat : (s.setInitd).dat = s.dat := rfl
@[simp] theorem State.setInitd_presc : (s.setInitd).presc = s.presc := rfl
@[simp] theorem State.setInitd_fa : (s.setInitd).fa = s.fa := rfl
@[simp] theorem State.setInitd_la : (s.setInitd).la = s.la := rfl
@[simp] theorem State.setInitd_pclk : (s.setInitd).pclk = s.pclk := rfl
@[simp] theorem State.setInitd_d : (s.setInitd).d = s.d := rfl
@[simp] theorem State.setInitd_fault : (s.setInitd).fault = s.fault := rfl
@[simp] theorem State.setInitd_buslog : (s.setInitd).buslog = s.buslog := rfl
@[simp] theorem State.setInitd_cph : (s.setInitd).cph = s.cph := rfl
@[simp] theorem State.setInitd_last : (s.setInitd).last = s.last := rfl
@[simp] theorem State.setInitd_cmdLog : (s.setInitd).cmdLog = s.cmdLog := rfl
@[simp] theorem State.setInitd_cmdPort : (s.setInitd).cmdPort = s.cmdPort := rfl
@[simp] theorem State.setInitd_script : (s.setInitd).script = s.script := rfl
@[simp] theorem State.setInitd_tick : (s.setInitd).tick = s.tick := rfl
@[simp] theorem State.setInitd_byteAt (sp' : Space) (j : Nat) :
    (s.setInitd).byteAt sp' j = s.byteAt sp' j := rfl

/-! ### raising a fault -/

@[simp] theorem State.raise_cfg (f : FaultRec) : (s.raise f).cfg = s.cfg := rfl
@[simp] theorem State.raise_ts (f : FaultRec) : (s.raise f).ts = s.ts := rfl
@[simp] theorem State.raise_wl (f : FaultRec) : (s.raise f).wl = s.wl := rfl
@[simp] theorem State.raise_rl (f : FaultRec) : (s.raise f).rl = s.rl := rfl
@[simp] theorem State.raise_wc (f : FaultRec) : (s.raise f).wc = s.wc := rfl
@[simp] theorem State.raise_rc (f : FaultRec) : (s.raise f).rc = s.rc := rfl
@[simp] theorem State.raise_mem (f : FaultRec) : (s.raise f).mem = s.mem := rfl
@[simp] theorem State.raise_k (f : FaultRec) : (s.raise f).k = s.k := rfl
@[simp] theorem State.raise_res (f : FaultRec) : (s.raise f).res = s.res := rfl
@[simp] theorem State.raise_rbytes (f : FaultRec) : (s.raise f).rbytes = s.rbytes := rfl
@[simp] theorem State.raise_initd (f : FaultRec) : (s.raise f).initd = s.initd := rfl
@[simp] theorem State.raise_halted (f : FaultRec) : (s.raise f).halted = s.halted := rfl
@[simp] theorem State.raise_fgph (f : FaultRec) : (s.raise f).fgph = s.fgph := rfl
@[simp] theorem State.raise_req (f : FaultRec) : (s.raise f).req = s.req := rfl
@[simp] theorem State.raise_returning (f : FaultRec) : (s.raise f).returning = s.returning := rfl
@[simp] theorem State.raise_pix (f : FaultRec) : (s.raise f).pix = s.pix := rfl
@[simp] theorem State.raise_en (f : FaultRec) : (s.raise f).en = s.en := rfl
@[simp] theorem State.raise_ien (f : FaultRec) : (s.raise f).ien = s.ien := rfl
@[simp] theorem State.raise_si (f : FaultRec) : (s.raise f).si = s.si := rfl
@[simp] theorem State.raise_sts (f : FaultRec) : (s.raise f).sts = s.sts := rfl
@[simp] theorem State.raise_sta (f : FaultRec) : (s.raise f).sta = s.sta := rfl
@[simp] theorem State.raise_sto (f : FaultRec) : (s.raise f).sto = s.sto := rfl
@[simp] theorem State.raise_aa (f : FaultRec) : (s.raise f).aa = s.aa := rfl
@[simp] theorem State.raise_dat (f : FaultRec) : (s.raise f).dat = s.dat := rfl
@[simp] theorem State.raise_presc (f : FaultRec) : (s.raise f).presc = s.presc := rfl
@[simp] theorem State.raise_fa (f : FaultRec) : (s.raise f).fa = s.fa := rfl
@[simp] theorem State.raise_la (f : FaultRec) : (s.raise f).la = s.la := rfl
@[simp] theorem State.raise_pclk (f : FaultRec) : (s.raise f).pclk = s.pclk := rfl
@[simp] theorem State.raise_d (f : FaultRec) : (s.raise f).d = s.d := rfl
@[simp] theorem State.raise_fault (f : FaultRec) : (s.raise f).fault = some f := rfl
@[simp] theorem State.raise_buslog (f : FaultRec) : (s.raise f).buslog = s.buslog := rfl
@[simp] theorem State.raise_cph (f : FaultRec) : (s.raise f).cph = s.cph := rfl
@[simp] theorem State.raise_last (f : FaultRec) : (s.raise f).last = s.last := rfl
@[simp] theorem State.raise_cmdLog (f : FaultRec) : (s.raise f).cmdLog = s.cmdLog := rfl
@[simp] theorem State.raise_cmdPort (f : FaultRec) : (s.raise f).cmdPort = s.cmdPort := rfl
@[simp] theorem State.raise_script (f : FaultRec) : (s.raise f).script = s.script := rfl
@[simp] theorem State.raise_tick (f : FaultRec) : (s.raise f).tick = s.tick := rfl
@[simp] theorem State.raise_byteAt (f : FaultRec) (sp' : Space) (j : Nat) :
    (s.raise f).byteAt sp' j = s.byteAt sp' j := rfl

/-! ### moving FG -/

@[simp] theorem State.goto_cfg (ph : Phase) : (s.goto ph).cfg = s.cfg := rfl
@[simp] theorem State.goto_ts (ph : Phase) : (s.goto ph).ts = s.ts := rfl
@[simp] theorem State.goto_wl (ph : Phase) : (s.goto ph).wl = s.wl := rfl
@[simp] theorem State.goto_rl (ph : Phase) : (s.goto ph).rl = s.rl := rfl
@[simp] theorem State.goto_wc (ph : Phase) : (s.goto ph).wc = s.wc := rfl
@[simp] theorem State.goto_rc (ph : Phase) : (s.goto ph).rc = s.rc := rfl
@[simp] theorem State.goto_mem (ph : Phase) : (s.goto ph).mem = s.mem := rfl
@[simp] theorem State.goto_k (ph : Phase) : (s.goto ph).k = s.k := rfl
@[simp] theorem State.goto_res (ph : Phase) : (s.goto ph).res = s.res := rfl
@[simp] theorem State.goto_rbytes (ph : Phase) : (s.goto ph).rbytes = s.rbytes := rfl
@[simp] theorem State.goto_initd (ph : Phase) : (s.goto ph).initd = s.initd := rfl
@[simp] theorem State.goto_halted (ph : Phase) : (s.goto ph).halted = s.halted := rfl
@[simp] theorem State.goto_fgph (ph : Phase) : (s.goto ph).fgph = ph := rfl
@[simp] theorem State.goto_req (ph : Phase) : (s.goto ph).req = s.req := rfl
@[simp] theorem State.goto_returning (ph : Phase) : (s.goto ph).returning = s.returning := rfl
@[simp] theorem State.goto_pix (ph : Phase) : (s.goto ph).pix = s.pix := rfl
@[simp] theorem State.goto_en (ph : Phase) : (s.goto ph).en = s.en := rfl
@[simp] theorem State.goto_ien (ph : Phase) : (s.goto ph).ien = s.ien := rfl
@[simp] theorem State.goto_si (ph : Phase) : (s.goto ph).si = s.si := rfl
@[simp] theorem State.goto_sts (ph : Phase) : (s.goto ph).sts = s.sts := rfl
@[simp] theorem State.goto_sta (ph : Phase) : (s.goto ph).sta = s.sta := rfl
@[simp] theorem State.goto_sto (ph : Phase) : (s.goto ph).sto = s.sto := rfl
@[simp] theorem State.goto_aa (ph : Phase) : (s.goto ph).aa = s.aa := rfl
@[simp] theorem State.goto_dat (ph : Phase) : (s.goto ph).dat = s.dat := rfl
@[simp] theorem State.goto_presc (ph : Phase) : (s.goto ph).presc = s.presc := rfl
@[simp] theorem State.goto_fa (ph : Phase) : (s.goto ph).fa = s.fa := rfl
@[simp] theorem State.goto_la (ph : Phase) : (s.goto ph).la = s.la := rfl
@[simp] theorem State.goto_pclk (ph : Phase) : (s.goto ph).pclk = s.pclk := rfl
@[simp] theorem State.goto_d (ph : Phase) : (s.goto ph).d = s.d := rfl
@[simp] theorem State.goto_fault (ph : Phase) : (s.goto ph).fault = s.fault := rfl
@[simp] theorem State.goto_buslog (ph : Phase) : (s.goto ph).buslog = s.buslog := rfl
@[simp] theorem State.goto_cph (ph : Phase) : (s.goto ph).cph = s.cph := rfl
@[simp] theorem State.goto_last (ph : Phase) : (s.goto ph).last = s.last := rfl
@[simp] theorem State.goto_cmdLog (ph : Phase) : (s.goto ph).cmdLog = s.cmdLog := rfl
@[simp] theorem State.goto_cmdPort (ph : Phase) : (s.goto ph).cmdPort = s.cmdPort := rfl
@[simp] theorem State.goto_script (ph : Phase) : (s.goto ph).script = s.script := rfl
@[simp] theorem State.goto_tick (ph : Phase) : (s.goto ph).tick = s.tick := rfl
@[simp] theorem State.goto_byteAt (ph : Phase) (sp' : Space) (j : Nat) :
    (s.goto ph).byteAt sp' j = s.byteAt sp' j := rfl

/-! ### taking up a request -/

@[simp] theorem State.start_cfg (r : Request) (ph : Phase) : (s.start r ph).cfg = s.cfg := rfl
@[simp] theorem State.start_ts (r : Request) (ph : Phase) : (s.start r ph).ts = s.ts := rfl
@[simp] theorem State.start_wl (r : Request) (ph : Phase) : (s.start r ph).wl = s.wl := rfl
@[simp] theorem State.start_rl (r : Request) (ph : Phase) : (s.start r ph).rl = s.rl := rfl
@[simp] theorem State.start_wc (r : Request) (ph : Phase) : (s.start r ph).wc = s.wc := rfl
@[simp] theorem State.start_rc (r : Request) (ph : Phase) : (s.start r ph).rc = s.rc := rfl
@[simp] theorem State.start_mem (r : Request) (ph : Phase) : (s.start r ph).mem = s.mem := rfl
@[simp] theorem State.start_k (r : Request) (ph : Phase) : (s.start r ph).k = s.k := rfl
@[simp] theorem State.start_res (r : Request) (ph : Phase) : (s.start r ph).res = s.res := rfl
@[simp] theorem State.start_rbytes (r : Request) (ph : Phase) :
    (s.start r ph).rbytes = s.rbytes := rfl
@[simp] theorem State.start_initd (r : Request) (ph : Phase) : (s.start r ph).initd = s.initd := rfl
@[simp] theorem State.start_halted (r : Request) (ph : Phase) :
    (s.start r ph).halted = s.halted := rfl
@[simp] theorem State.start_fgph (r : Request) (ph : Phase) : (s.start r ph).fgph = ph := rfl
@[simp] theorem State.start_req (r : Request) (ph : Phase) : (s.start r ph).req = some r := rfl
@[simp] theorem State.start_returning (r : Request) (ph : Phase) :
    (s.start r ph).returning = s.returning := rfl
@[simp] theorem State.start_pix (r : Request) (ph : Phase) : (s.start r ph).pix = s.pix := rfl
@[simp] theorem State.start_en (r : Request) (ph : Phase) : (s.start r ph).en = s.en := rfl
@[simp] theorem State.start_ien (r : Request) (ph : Phase) : (s.start r ph).ien = s.ien := rfl
@[simp] theorem State.start_si (r : Request) (ph : Phase) : (s.start r ph).si = s.si := rfl
@[simp] theorem State.start_sts (r : Request) (ph : Phase) : (s.start r ph).sts = s.sts := rfl
@[simp] theorem State.start_sta (r : Request) (ph : Phase) : (s.start r ph).sta = s.sta := rfl
@[simp] theorem State.start_sto (r : Request) (ph : Phase) : (s.start r ph).sto = s.sto := rfl
@[simp] theorem State.start_aa (r : Request) (ph : Phase) : (s.start r ph).aa = s.aa := rfl
@[simp] theorem State.start_dat (r : Request) (ph : Phase) : (s.start r ph).dat = s.dat := rfl
@[simp] theorem State.start_presc (r : Request) (ph : Phase) : (s.start r ph).presc = s.presc := rfl
@[simp] theorem State.start_fa (r : Request) (ph : Phase) : (s.start r ph).fa = s.fa := rfl
@[simp] theorem State.start_la (r : Request) (ph : Phase) : (s.start r ph).la = s.la := rfl
@[simp] theorem State.start_pclk (r : Request) (ph : Phase) : (s.start r ph).pclk = s.pclk := rfl
@[simp] theorem State.start_d (r : Request) (ph : Phase) : (s.start r ph).d = s.d := rfl
@[simp] theorem State.start_fault (r : Request) (ph : Phase) : (s.start r ph).fault = s.fault := rfl
@[simp] theorem State.start_buslog (r : Request) (ph : Phase) :
    (s.start r ph).buslog = s.buslog := rfl
@[simp] theorem State.start_cph (r : Request) (ph : Phase) : (s.start r ph).cph = s.cph := rfl
@[simp] theorem State.start_last (r : Request) (ph : Phase) : (s.start r ph).last = s.last := rfl
@[simp] theorem State.start_cmdLog (r : Request) (ph : Phase) :
    (s.start r ph).cmdLog = s.cmdLog := rfl
@[simp] theorem State.start_cmdPort (r : Request) (ph : Phase) :
    (s.start r ph).cmdPort = s.cmdPort := rfl
@[simp] theorem State.start_script (r : Request) (ph : Phase) :
    (s.start r ph).script = s.script := rfl
@[simp] theorem State.start_tick (r : Request) (ph : Phase) : (s.start r ph).tick = s.tick := rfl
@[simp] theorem State.start_byteAt (r : Request) (ph : Phase) (sp' : Space) (j : Nat) :
    (s.start r ph).byteAt sp' j = s.byteAt sp' j := rfl

/-! ### returning -/

@[simp] theorem State.ret_cfg : (s.ret).cfg = s.cfg := rfl
@[simp] theorem State.ret_ts : (s.ret).ts = s.ts := rfl
@[simp] theorem State.ret_wl : (s.ret).wl = s.wl := rfl
@[simp] theorem State.ret_rl : (s.ret).rl = s.rl := rfl
@[simp] theorem State.ret_wc : (s.ret).wc = s.wc := rfl
@[simp] theorem State.ret_rc : (s.ret).rc = s.rc := rfl
@[simp] theorem State.ret_mem : (s.ret).mem = s.mem := rfl
@[simp] theorem State.ret_k : (s.ret).k = s.k := rfl
@[simp] theorem State.ret_res : (s.ret).res = s.res := rfl
@[simp] theorem State.ret_rbytes : (s.ret).rbytes = s.rbytes := rfl
@[simp] theorem State.ret_initd : (s.ret).initd = s.initd := rfl
@[simp] theorem State.ret_halted : (s.ret).halted = s.halted := rfl
@[simp] theorem State.ret_fgph : (s.ret).fgph = s.idlePhase := rfl
@[simp] theorem State.ret_req : (s.ret).req = none := rfl
@[simp] theorem State.ret_returning : (s.ret).returning = s.returning := rfl
@[simp] theorem State.ret_pix : (s.ret).pix = s.pix := rfl
@[simp] theorem State.ret_en : (s.ret).en = s.en := rfl
@[simp] theorem State.ret_ien : (s.ret).ien = s.ien := rfl
@[simp] theorem State.ret_si : (s.ret).si = s.si := rfl
@[simp] theorem State.ret_sts : (s.ret).sts = s.sts := rfl
@[simp] theorem State.ret_sta : (s.ret).sta = s.sta := rfl
@[simp] theorem State.ret_sto : (s.ret).sto = s.sto := rfl
@[simp] theorem State.ret_aa : (s.ret).aa = s.aa := rfl
@[simp] theorem State.ret_dat : (s.ret).dat = s.dat := rfl
@[simp] theorem State.ret_presc : (s.ret).presc = s.presc := rfl
@[simp] theorem State.ret_fa : (s.ret).fa = s.fa := rfl
@[simp] theorem State.ret_la : (s.ret).la = s.la := rfl
@[simp] theorem State.ret_pclk : (s.ret).pclk = s.pclk := rfl
@[simp] theorem State.ret_d : (s.ret).d = s.d := rfl
@[simp] theorem State.ret_fault : (s.ret).fault = s.fault := rfl
@[simp] theorem State.ret_buslog : (s.ret).buslog = s.buslog := rfl
@[simp] theorem State.ret_cph : (s.ret).cph = s.cph := rfl
@[simp] theorem State.ret_last : (s.ret).last = s.last := rfl
@[simp] theorem State.ret_cmdLog : (s.ret).cmdLog = s.cmdLog := rfl
@[simp] theorem State.ret_cmdPort : (s.ret).cmdPort = s.cmdPort := rfl
@[simp] theorem State.ret_script : (s.ret).script = s.script := rfl
@[simp] theorem State.ret_tick : (s.ret).tick = s.tick := rfl
@[simp] theorem State.ret_byteAt (sp' : Space) (j : Nat) :
    (s.ret).byteAt sp' j = s.byteAt sp' j := rfl

/-! ### a return that is due -/

@[simp] theorem State.returnNext_cfg : (s.returnNext).cfg = s.cfg := rfl
@[simp] theorem State.returnNext_ts : (s.returnNext).ts = s.ts := rfl
@[simp] theorem State.returnNext_wl : (s.returnNext).wl = s.wl := rfl
@[simp] theorem State.returnNext_rl : (s.returnNext).rl = s.rl := rfl
@[simp] theorem State.returnNext_wc : (s.returnNext).wc = s.wc := rfl
@[simp] theorem State.returnNext_rc : (s.returnNext).rc = s.rc := rfl
@[simp] theorem State.returnNext_mem : (s.returnNext).mem = s.mem := rfl
@[simp] theorem State.returnNext_k : (s.returnNext).k = s.k := rfl
@[simp] theorem State.returnNext_res : (s.returnNext).res = s.res := rfl
@[simp] theorem State.returnNext_rbytes : (s.returnNext).rbytes = s.rbytes := rfl
@[simp] theorem State.returnNext_initd : (s.returnNext).initd = s.initd := rfl
@[simp] theorem State.returnNext_halted : (s.returnNext).halted = s.halted := rfl
@[simp] theorem State.returnNext_fgph : (s.returnNext).fgph = s.fgph := rfl
@[simp] theorem State.returnNext_req : (s.returnNext).req = s.req := rfl
@[simp] theorem State.returnNext_returning : (s.returnNext).returning = true := rfl
@[simp] theorem State.returnNext_pix : (s.returnNext).pix = s.pix := rfl
@[simp] theorem State.returnNext_en : (s.returnNext).en = s.en := rfl
@[simp] theorem State.returnNext_ien : (s.returnNext).ien = s.ien := rfl
@[simp] theorem State.returnNext_si : (s.returnNext).si = s.si := rfl
@[simp] theorem State.returnNext_sts : (s.returnNext).sts = s.sts := rfl
@[simp] theorem State.returnNext_sta : (s.returnNext).sta = s.sta := rfl
@[simp] theorem State.returnNext_sto : (s.returnNext).sto = s.sto := rfl
@[simp] theorem State.returnNext_aa : (s.returnNext).aa = s.aa := rfl
@[simp] theorem State.returnNext_dat : (s.returnNext).dat = s.dat := rfl
@[simp] theorem State.returnNext_presc : (s.returnNext).presc = s.presc := rfl
@[simp] theorem State.returnNext_fa : (s.returnNext).fa = s.fa := rfl
@[simp] theorem State.returnNext_la : (s.returnNext).la = s.la := rfl
@[simp] theorem State.returnNext_pclk : (s.returnNext).pclk = s.pclk := rfl
@[simp] theorem State.returnNext_d : (s.returnNext).d = s.d := rfl
@[simp] theorem State.returnNext_fault : (s.returnNext).fault = s.fault := rfl
@[simp] theorem State.returnNext_buslog : (s.returnNext).buslog = s.buslog := rfl
@[simp] theorem State.returnNext_cph : (s.returnNext).cph = s.cph := rfl
@[simp] theorem State.returnNext_last : (s.returnNext).last = s.last := rfl
@[simp] theorem State.returnNext_cmdLog : (s.returnNext).cmdLog = s.cmdLog := rfl
@[simp] theorem State.returnNext_cmdPort : (s.returnNext).cmdPort = s.cmdPort := rfl
@[simp] theorem State.returnNext_script : (s.returnNext).script = s.script := rfl
@[simp] theorem State.returnNext_tick : (s.returnNext).tick = s.tick := rfl
@[simp] theorem State.returnNext_byteAt (sp' : Space) (j : Nat) :
    (s.returnNext).byteAt sp' j = s.byteAt sp' j := rfl

/-! ### the return that was due -/

@[simp] theorem State.returnNow_cfg : (s.returnNow).cfg = s.cfg := rfl
@[simp] theorem State.returnNow_ts : (s.returnNow).ts = s.ts := rfl
@[simp] theorem State.returnNow_wl : (s.returnNow).wl = s.wl := rfl
@[simp] theorem State.returnNow_rl : (s.returnNow).rl = s.rl := rfl
@[simp] theorem State.returnNow_wc : (s.returnNow).wc = s.wc := rfl
@[simp] theorem State.returnNow_rc : (s.returnNow).rc = s.rc := rfl
@[simp] theorem State.returnNow_mem : (s.returnNow).mem = s.mem := rfl
@[simp] theorem State.returnNow_k : (s.returnNow).k = s.k := rfl
@[simp] theorem State.returnNow_res : (s.returnNow).res = s.res := rfl
@[simp] theorem State.returnNow_rbytes : (s.returnNow).rbytes = s.rbytes := rfl
@[simp] theorem State.returnNow_initd : (s.returnNow).initd = s.initd := rfl
@[simp] theorem State.returnNow_halted : (s.returnNow).halted = s.halted := rfl
@[simp] theorem State.returnNow_fgph : (s.returnNow).fgph = s.idlePhase := rfl
@[simp] theorem State.returnNow_req : (s.returnNow).req = none := rfl
@[simp] theorem State.returnNow_returning : (s.returnNow).returning = false := rfl
@[simp] theorem State.returnNow_pix : (s.returnNow).pix = s.pix := rfl
@[simp] theorem State.returnNow_en : (s.returnNow).en = s.en := rfl
@[simp] theorem State.returnNow_ien : (s.returnNow).ien = s.ien := rfl
@[simp] theorem State.returnNow_si : (s.returnNow).si = s.si := rfl
@[simp] theorem State.returnNow_sts : (s.returnNow).sts = s.sts := rfl
@[simp] theorem State.returnNow_sta : (s.returnNow).sta = s.sta := rfl
@[simp] theorem State.returnNow_sto : (s.returnNow).sto = s.sto := rfl
@[simp] theorem State.returnNow_aa : (s.returnNow).aa = s.aa := rfl
@[simp] theorem State.returnNow_dat : (s.returnNow).dat = s.dat := rfl
@[simp] theorem State.returnNow_presc : (s.returnNow).presc = s.presc := rfl
@[simp] theorem State.returnNow_fa : (s.returnNow).fa = s.fa := rfl
@[simp] theorem State.returnNow_la : (s.returnNow).la = s.la := rfl
@[simp] theorem State.returnNow_pclk : (s.returnNow).pclk = s.pclk := rfl
@[simp] theorem State.returnNow_d : (s.returnNow).d = s.d := rfl
@[simp] theorem State.returnNow_fault : (s.returnNow).fault = s.fault := rfl
@[simp] theorem State.returnNow_buslog : (s.returnNow).buslog = s.buslog := rfl
@[simp] theorem State.returnNow_cph : (s.returnNow).cph = s.cph := rfl
@[simp] theorem State.returnNow_last : (s.returnNow).last = s.last := rfl
@[simp] theorem State.returnNow_cmdLog : (s.returnNow).cmdLog = s.cmdLog := rfl
@[simp] theorem State.returnNow_cmdPort : (s.returnNow).cmdPort = s.cmdPort := rfl
@[simp] theorem State.returnNow_script : (s.returnNow).script = s.script := rfl
@[simp] theorem State.returnNow_tick : (s.returnNow).tick = s.tick := rfl
@[simp] theorem State.returnNow_byteAt (sp' : Space) (j : Nat) :
    (s.returnNow).byteAt sp' j = s.byteAt sp' j := rfl

/-! ### writing an element -/

@[simp] theorem State.putByte_cfg (sp : Space) (i : Nat) (v : Byte) :
    (s.putByte sp i v).cfg = s.cfg := rfl
@[simp] theorem State.putByte_ts (sp : Space) (i : Nat) (v : Byte) :
    (s.putByte sp i v).ts = s.ts := rfl
@[simp] theorem State.putByte_wl (sp : Space) (i : Nat) (v : Byte) :
    (s.putByte sp i v).wl = s.wl := rfl
@[simp] theorem State.putByte_rl (sp : Space) (i : Nat) (v : Byte) :
    (s.putByte sp i v).rl = s.rl := rfl
@[simp] theorem State.putByte_wc (sp : Space) (i : Nat) (v : Byte) :
    (s.putByte sp i v).wc = s.wc := rfl
@[simp] theorem State.putByte_rc (sp : Space) (i : Nat) (v : Byte) :
    (s.putByte sp i v).rc = s.rc := rfl
@[simp] theorem State.putByte_mem (sp : Space) (i : Nat) (v : Byte) :
    (s.putByte sp i v).mem = s.mem.put sp i v := rfl
@[simp] theorem State.putByte_k (sp : Space) (i : Nat) (v : Byte) :
    (s.putByte sp i v).k = s.k := rfl
@[simp] theorem State.putByte_res (sp : Space) (i : Nat) (v : Byte) :
    (s.putByte sp i v).res = s.res := rfl
@[simp] theorem State.putByte_rbytes (sp : Space) (i : Nat) (v : Byte) :
    (s.putByte sp i v).rbytes = s.rbytes := rfl
@[simp] theorem State.putByte_initd (sp : Space) (i : Nat) (v : Byte) :
    (s.putByte sp i v).initd = s.initd := rfl
@[simp] theorem State.putByte_halted (sp : Space) (i : Nat) (v : Byte) :
    (s.putByte sp i v).halted = s.halted := rfl
@[simp] theorem State.putByte_fgph (sp : Space) (i : Nat) (v : Byte) :
    (s.putByte sp i v).fgph = s.fgph := rfl
@[simp] theorem State.putByte_req (sp : Space) (i : Nat) (v : Byte) :
    (s.putByte sp i v).req = s.req := rfl
@[simp] theorem State.putByte_returning (sp : Space) (i : Nat) (v : Byte) :
    (s.putByte sp i v).returning = s.returning := rfl
@[simp] theorem State.putByte_pix (sp : Space) (i : Nat) (v : Byte) :
    (s.putByte sp i v).pix = s.pix := rfl
@[simp] theorem State.putByte_en (sp : Space) (i : Nat) (v : Byte) :
    (s.putByte sp i v).en = s.en := rfl
@[simp] theorem State.putByte_ien (sp : Space) (i : Nat) (v : Byte) :
    (s.putByte sp i v).ien = s.ien := rfl
@[simp] theorem State.putByte_si (sp : Space) (i : Nat) (v : Byte) :
    (s.putByte sp i v).si = s.si := rfl
@[simp] theorem State.putByte_sts (sp : Space) (i : Nat) (v : Byte) :
    (s.putByte sp i v).sts = s.sts := rfl
@[simp] theorem State.putByte_sta (sp : Space) (i : Nat) (v : Byte) :
    (s.putByte sp i v).sta = s.sta := rfl
@[simp] theorem State.putByte_sto (sp : Space) (i : Nat) (v : Byte) :
    (s.putByte sp i v).sto = s.sto := rfl
@[simp] theorem State.putByte_aa (sp : Space) (i : Nat) (v : Byte) :
    (s.putByte sp i v).aa = s.aa := rfl
@[simp] theorem State.putByte_dat (sp : Space) (i : Nat) (v : Byte) :
    (s.putByte sp i v).dat = s.dat := rfl
@[simp] theorem State.putByte_presc (sp : Space) (i : Nat) (v : Byte) :
    (s.putByte sp i v).presc = s.presc := rfl
@[simp] theorem State.putByte_fa (sp : Space) (i : Nat) (v : Byte) :
    (s.putByte sp i v).fa = s.fa := rfl
@[simp] theorem State.putByte_la (sp : Space) (i : Nat) (v : Byte) :
    (s.putByte sp i v).la = s.la := rfl
@[simp] theorem State.putByte_pclk (sp : Space) (i : Nat) (v : Byte) :
    (s.putByte sp i v).pclk = s.pclk := rfl
@[simp] theorem State.putByte_d (sp : Space) (i : Nat) (v : Byte) :
    (s.putByte sp i v).d = s.d := rfl
@[simp] theorem State.putByte_fault (sp : Space) (i : Nat) (v : Byte) :
    (s.putByte sp i v).fault = s.fault := rfl
@[simp] theorem State.putByte_buslog (sp : Space) (i : Nat) (v : Byte) :
    (s.putByte sp i v).buslog = s.buslog := rfl
@[simp] theorem State.putByte_cph (sp : Space) (i : Nat) (v : Byte) :
    (s.putByte sp i v).cph = s.cph := rfl
@[simp] theorem State.putByte_last (sp : Space) (i : Nat) (v : Byte) :
    (s.putByte sp i v).last = s.last := rfl
@[simp] theorem State.putByte_cmdLog (sp : Space) (i : Nat) (v : Byte) :
    (s.putByte sp i v).cmdLog = s.cmdLog := rfl
@[simp] theorem State.putByte_cmdPort (sp : Space) (i : Nat) (v : Byte) :
    (s.putByte sp i v).cmdPort = s.cmdPort := rfl
@[simp] theorem State.putByte_script (sp : Space) (i : Nat) (v : Byte) :
    (s.putByte sp i v).script = s.script := rfl
@[simp] theorem State.putByte_tick (sp : Space) (i : Nat) (v : Byte) :
    (s.putByte sp i v).tick = s.tick := rfl

end Sys2Proof.Machine
end

