-- ==== Sys2Proof/Laws/Ops.lean ====
section
/-!
SUPPORT. What the shared operations do, once: a load or a store of an element, and what each named
update does to the elements that can be read.
-/

namespace Sys2Proof.Machine

variable {s : State} {sp : Space} {i : Nat} {v b : Byte} {code : Option Byte}

/-! ### Load and store -/

theorem State.load_of_some {k : Byte → Out} (h : s.byteAt sp i = some b) :
    s.load sp i code k = k b := by simp [State.load, h]

theorem State.load_of_none {k : Byte → Out} (h : s.byteAt sp i = none) :
    s.load sp i code k = .next (s.raise (overrun sp i code)) := by simp [State.load, h]

/-- Everything a load can do: go on with the byte of an element that exists, or raise the
overrun. -/
theorem State.load_cases {k : Byte → Out} {o : Out} (h : s.load sp i code k = o) :
    (∃ b, s.byteAt sp i = some b ∧ k b = o) ∨
    (s.byteAt sp i = none ∧ o = .next (s.raise (overrun sp i code))) := by
  unfold State.load at h
  split at h
  · rename_i b hb; exact .inl ⟨b, hb, h⟩
  · rename_i hb; exact .inr ⟨hb, h.symm⟩

theorem State.store_of_some {k : State → Out} (h : s.byteAt sp i = some b) :
    s.store sp i v code k = k (s.putByte sp i v) := by simp [State.store, h]

theorem State.store_of_none {k : State → Out} (h : s.byteAt sp i = none) :
    s.store sp i v code k = .next (s.raise (overrun sp i code)) := by simp [State.store, h]

/-- Everything a store can do: go on with the element written, or raise the overrun. -/
theorem State.store_cases {k : State → Out} {o : Out} (h : s.store sp i v code k = o) :
    (∃ b, s.byteAt sp i = some b ∧ k (s.putByte sp i v) = o) ∨
    (s.byteAt sp i = none ∧ o = .next (s.raise (overrun sp i code))) := by
  unfold State.store at h
  split at h
  · rename_i b hb; exact .inl ⟨b, hb, h⟩
  · rename_i hb; exact .inr ⟨hb, h.symm⟩

/-- An element that can be read lies within the capacity. -/
theorem State.lt_capacity_of_byteAt (h : s.byteAt sp i = some b) : i < sp.capacity s.cfg := by
  unfold State.byteAt at h
  split at h
  · cases h
  · omega

/-- The elements that can be read depend on the parameters and the memory alone. -/
theorem State.byteAt_congr {s t : State} (hc : t.cfg = s.cfg) (hm : t.mem = s.mem) (sp : Space)
    (i : Nat) : t.byteAt sp i = s.byteAt sp i := by unfold State.byteAt; rw [hc, hm]

/-! ### The phase of the return -/

theorem State.idlePhase_of_initd (h : s.initd = true) : s.idlePhase = .ready := by
  simp [State.idlePhase, h]

theorem State.idlePhase_of_not_initd (h : s.initd = false) : s.idlePhase = .off := by
  simp [State.idlePhase, h]

end Sys2Proof.Machine
end

