-- ==== Sys2Proof/Laws/PerInstr.lean ====
section
/-!
SUPPORT. Per-instruction law: the encoder emits no reserved encoding (R92: ids 0xA to 0xF and a
nonzero `rsv` are reserved; R95: operation codes 0x0 and 0x5 to 0xF are reserved), and encodes each
operation in the format of its kind (R3).
-/

namespace Sys2Proof.Laws.Unreserved

/-- The kind of an operation, by its format (R3). -/
inductive Kind where
  | arm
  | command
  | foreground
  deriving DecidableEq, Repr

/-- The kind of each operation. -/
def kind : Instr → Kind
  | .startSent => .arm
  | .repstartSent => .arm
  | .slawAck => .arm
  | .slawNack => .arm
  | .dataTxAck => .arm
  | .dataTxNack => .arm
  | .arbLost => .arm
  | .slarAck => .arm
  | .slarNack => .arm
  | .dataRxAck => .arm
  | .dataRxNack => .arm
  | .unrecognized _ => .arm
  | .clrInt => .command
  | .setSta => .command
  | .clrSta => .command
  | .setSto => .command
  | .setAa => .command
  | .clrAa => .command
  | .wrDat _ => .command
  | .rdDat => .command
  | .rdSts => .command
  | .cfgEn _ => .command
  | .init _ => .foreground
  | .execute _ _ _ => .foreground
  | .capture => .foreground
  | .halt => .foreground

/-- The fields of a command word come out of it again. -/
theorem cmdWord_fields (id : BitVec 4) (b : Byte) :
    cmdId (cmdWord id b) = id ∧ cmdRsv (cmdWord id b) = 0 ∧ cmdOpnd (cmdWord id b) = b := by
  refine ⟨?_, ?_, ?_⟩
  · ext j hj
    simp only [cmdId, cmdWord, BitVec.getElem_extractLsb', BitVec.getLsbD_append]
    have h1 : ¬ (12 + j < 8) := by omega
    have h2 : ¬ (12 + j - 8 < 4) := by omega
    simp [h1, h2, show 12 + j - 8 - 4 = j by omega, hj]
  · ext j hj
    simp only [cmdRsv, cmdWord, BitVec.getElem_extractLsb', BitVec.getLsbD_append]
    have h1 : ¬ (8 + j < 8) := by omega
    simp [h1, hj]
  · ext j hj
    simp only [cmdOpnd, cmdWord, BitVec.getElem_extractLsb', BitVec.getLsbD_append]
    have h1 : j < 8 := hj
    simp [h1]

/-- The encoder's word is of the format of the operation's kind, and none of the reserved ones. -/
def Statement (i : Instr) : Prop :=
  ∀ m, match encode m i with
    | .status _ => kind i = .arm
    | .cmd w => kind i = .command ∧ cmdRsv w = 0 ∧ (cmdId w).toNat ≤ 9
    | .fgop op _ => kind i = .foreground ∧ 1 ≤ op.toNat ∧ op.toNat ≤ 4

theorem command_unreserved {i : Instr} (id : BitVec 4) (b : Byte)
    (hk : kind i = .command) (hid : id.toNat ≤ 9) :
    kind i = .command ∧ cmdRsv (cmdWord id b) = 0 ∧ (cmdId (cmdWord id b)).toNat ≤ 9 := by
  obtain ⟨h1, h2, -⟩ := cmdWord_fields id b
  exact ⟨hk, h2, by rw [h1]; exact hid⟩

theorem startSent : Statement .startSent := fun _ => rfl
theorem repstartSent : Statement .repstartSent := fun _ => rfl
theorem slawAck : Statement .slawAck := fun _ => rfl
theorem slawNack : Statement .slawNack := fun _ => rfl
theorem dataTxAck : Statement .dataTxAck := fun _ => rfl
theorem dataTxNack : Statement .dataTxNack := fun _ => rfl
theorem arbLost : Statement .arbLost := fun _ => rfl
theorem slarAck : Statement .slarAck := fun _ => rfl
theorem slarNack : Statement .slarNack := fun _ => rfl
theorem dataRxAck : Statement .dataRxAck := fun _ => rfl
theorem dataRxNack : Statement .dataRxNack := fun _ => rfl
theorem unrecognized (code : Byte) : Statement (.unrecognized code) := fun _ => rfl
theorem clrInt : Statement .clrInt := fun _ => command_unreserved 0 0 rfl (by decide)
theorem setSta : Statement .setSta := fun _ => command_unreserved 1 0 rfl (by decide)
theorem clrSta : Statement .clrSta := fun _ => command_unreserved 2 0 rfl (by decide)
theorem setSto : Statement .setSto := fun _ => command_unreserved 3 0 rfl (by decide)
theorem setAa : Statement .setAa := fun _ => command_unreserved 4 0 rfl (by decide)
theorem clrAa : Statement .clrAa := fun _ => command_unreserved 5 0 rfl (by decide)
theorem wrDat (b : Byte) : Statement (.wrDat b) := fun _ => command_unreserved 6 b rfl (by decide)
theorem rdDat : Statement .rdDat := fun _ => command_unreserved 7 0 rfl (by decide)
theorem rdSts : Statement .rdSts := fun _ => command_unreserved 8 0 rfl (by decide)
theorem cfgEn (p : Byte) : Statement (.cfgEn p) := fun _ => command_unreserved 9 p rfl (by decide)
theorem init (prescale : Byte) : Statement (.init prescale) := fun _ => ⟨rfl, by decide, by decide⟩
theorem execute (bytes : List Byte) (wl rl : Nat) : Statement (.execute bytes wl rl) :=
  fun _ => ⟨rfl, by decide, by decide⟩
theorem capture : Statement .capture := fun _ => ⟨rfl, by decide, by decide⟩
theorem halt : Statement .halt := fun _ => ⟨rfl, by decide, by decide⟩

end Sys2Proof.Laws.Unreserved
end

