-- ==== Sys2Proof/Laws/Step.lean ====
section
/-!
SUPPORT. What a step can be, once: the command at the port, a reserved word there, or the next move
of the trace by the agent it names; and what the bookkeeping of the trace leaves alone.
-/

namespace Sys2Proof.Machine

/-- Taking the next move off touches only the script and the tick. -/
theorem afterMove_eq (s : State) :
    ∃ sc n, afterMove s = { s with script := sc, tick := n } := by
  unfold afterMove
  split
  · exact ⟨_, s.tick, rfl⟩
  · exact ⟨s.script, _, rfl⟩

theorem step_of_port {s : State} (h : s.cmdPort = none) :
    step s = perform (nextMove s) (afterMove s) := by
  unfold step advance; rw [h]

/-- One step, case by case. -/
theorem step_cases {s : State} {o : Out} (h : step s = o) :
    (∃ w i, s.cmdPort = some w ∧ decodeCmd w = .ok i ∧ exec i { s with cmdPort := none } = o) ∨
    (∃ w e, s.cmdPort = some w ∧ decodeCmd w = .error e ∧ o = .next { s with cmdPort := none }) ∨
    (s.cmdPort = none ∧ perform (nextMove s) (afterMove s) = o) := by
  unfold step advance at h
  split at h
  · rename_i w hw
    unfold portStep at h
    split at h
    · rename_i i hi; exact .inl ⟨w, i, hw, hi, h⟩
    · rename_i e he; exact .inr (.inl ⟨w, e, hw, he, h.symm⟩)
  · rename_i hw; exact .inr (.inr ⟨hw, h⟩)

/-- One FG step, case by case. -/
theorem fgStep_cases {s : State} {o : Out} (h : fgStep s = o) :
    (∃ r, s.req = some r ∧ s.fault = none ∧ exec r.instr s = o) ∨ o = .next s := by
  unfold fgStep at h
  split at h
  · rename_i r hr hf; exact .inl ⟨r, hr, hf, h⟩
  · exact .inr h.symm
  · exact .inr h.symm

/-- One ISR invocation, case by case. -/
theorem isrStep_cases {s : State} {o : Out} (h : isrStep s = o) :
    (s.isrEnabled = true ∧ exec (decodeStatus s.cfg.statusMap s.sts) s.cmdRdSts = o) ∨
    (s.isrEnabled = false ∧ o = .next s) := by
  unfold isrStep at h
  split at h
  · rename_i he; exact .inl ⟨he, h⟩
  · rename_i he; exact .inr ⟨by simpa using he, h.symm⟩

end Sys2Proof.Machine
end

