-- ==== Sys2Proof/Laws/Run.lean ====
section
/-!
SUPPORT. What the vocabulary of runs gives a proof: the step that a move names, the agent's step
behind an FG or an ISR move, the rows behind a step of WBC, and the verdict of `X_Check`.
-/

namespace Sys2Proof

open Sys2Proof.Machine

variable {s t : State} {m : Move}

theorem stateAfter_zero : stateAfter 0 s = s := rfl

theorem stateAfter_succ (h : step s = .next t) (n : Nat) :
    stateAfter (n + 1) s = stateAfter n t := by
  simp only [stateAfter, h]

theorem Machine.State.moves_iff : s.moves m = true ↔ s.cmdPort = none ∧ nextMove s = m := by
  simp [Machine.State.moves]

/-- A step that performs a move. -/
theorem step_of_moves (h : s.moves m = true) : step s = perform m (afterMove s) := by
  obtain ⟨hp, hm⟩ := Machine.State.moves_iff.1 h
  rw [step_of_port hp, hm]

/-- An FG step of an operation is `exec` of it. -/
theorem step_of_fgMoves (h : s.fgMoves = true) :
    ∃ r, s.req = some r ∧ s.fault = none ∧ step s = exec r.instr (afterMove s) := by
  simp only [Machine.State.fgMoves, Bool.and_eq_true, Option.isSome_iff_exists,
    Option.isNone_iff_eq_none] at h
  obtain ⟨⟨hm, r, hr⟩, hf⟩ := h
  refine ⟨r, hr, hf, ?_⟩
  obtain ⟨sc, n, ha⟩ := afterMove_eq s
  rw [step_of_moves hm, ha]
  simp only [perform, fgStep, hr, hf]

/-- A step that WBC may take takes a row. -/
theorem Machine.State.wbcMay_iff {c : CtrlMove} :
    s.wbcMay c = true ↔ ∃ r : WbcRow, r.enabled s = true ∧ r.offers s c = true := by
  simp only [Machine.State.wbcMay, List.any_eq_true, WbcRow.takes, Bool.and_eq_true]
  exact ⟨fun ⟨r, _, h⟩ => ⟨r, h⟩, fun ⟨r, h⟩ => ⟨r, by cases r <;> decide, h⟩⟩

/-- Every row requires `EN = 1` and `SI = 0`. -/
theorem Machine.WbcRow.ctrlFree_of_enabled {r : WbcRow} (h : r.enabled s = true) :
    s.ctrlFree = true := by
  simp only [WbcRow.enabled, Bool.and_eq_true] at h
  exact h.1

/-- What the verdict of `X_Check` can be: admitted to the load steps, or rejected. -/
theorem execXVerdict_cases {bytes : List Byte} {wl rl : Nat} {leave : State → State} {b0 : Byte}
    {o : Machine.Out} (h : execXVerdict bytes wl rl leave s b0 = o) :
    (admissible s.cfg bytes wl rl b0 = true ∧ o = .next (s.goto (.xLoad 0))) ∨
    (admissible s.cfg bytes wl rl b0 = false ∧
      o = .next (leave ((s.setRes rejectedCode).setRbytes []))) := by
  unfold execXVerdict at h
  split at h
  · rename_i ha; exact .inl ⟨ha, h.symm⟩
  · rename_i ha; exact .inr ⟨by simpa using ha, h.symm⟩

end Sys2Proof
end

