-- ==== Sys2Proof/Tests/Slice0.lean ====
section
/-!
SUPPORT. Tests. Words are written out from the tables of 30_encoding.md; one-step cases are the
vectors L2-A, L2-B, L2-K, L2-E and L2-C of 95_test_vectors.md (the tag in each docstring). The
witnesses show concrete states and operands that meet the hypotheses of each statement.
-/

namespace Sys2Proof.Tests

open Sys2Proof.Machine

/-! ### A small state -/

/-- The defaults of the spec, with `START_TIMEOUT_POLLS = 3`. -/
def cfg0 : Params where
  wbufSize          := 32
  rbufSize          := 32
  planeH            := 120
  planeW            := 160
  startTimeoutPolls := 3
  statusMap         := StatusMap.default
  pollOrder         := .lowThenHigh

/-- `WB[0] = 0xA0`, `WB[3] = 0xA1`, every other element of the four arrays `0x00`. -/
def mem0 : Memory where
  wb := (List.range 32).map fun i => (i, if i = 0 then 0xA0 else if i = 3 then 0xA1 else 0x00)
  rb := (List.range 32).map fun i => (i, 0x00)
  a  := []
  b  := []

/-- "INIT done": ready, enabled, nothing pending. -/
def s0 : State where
  cfg     := cfg0
  ts      := .idle
  wl      := 0
  rl      := 0
  wc      := 0
  rc      := 0
  mem     := mem0
  k       := 0
  res     := 0x00
  rbytes  := []
  initd   := true
  halted  := false
  fgph    := .ready
  req     := none
  returning := false
  pix     := 0
  en      := true
  ien     := true
  si      := false
  sts     := 0xF8
  sta     := false
  sto     := false
  aa      := false
  dat     := 0x00
  presc   := 0x20
  fa      := false
  la      := false
  pclk    := false
  d       := 0x00
  fault   := none
  buslog  := []
  cph     := .free
  last    := 0x00
  cmdLog  := []
  cmdPort := none
  script  := []
  tick    := 0

/-- `s` with a bus event reported: `SI = 1`, `STS = c`. -/
def reported (c : Byte) (s : State) : State := { s with si := true, sts := c }

/-- The outcome is a next state that passes a check. -/
def nextIs (o : Out) (check : State → Bool) : Bool :=
  match o with
  | .next t => check t
  | .fault _ => false
  | .refused _ => false

/-- The words of the commands sent so far. -/
def words (s : State) : List CmdWord := s.cmdLog.map CmdRecord.word

/-! ### WellFormed: an ill-formed term for each check -/

theorem test_unmapped_code_is_wellFormed :
    (Instr.unrecognized 0xF8).wellFormed StatusMap.default = true := by decide

theorem test_mapped_code_of_unrecognized_is_illFormed :
    (Instr.unrecognized 0x08).wellFormed StatusMap.default = false := by decide

theorem test_default_map_is_allowed : StatusMap.default.wf := by decide

theorem test_map_with_two_tags_on_one_code_is_not_allowed :
    ¬ { StatusMap.default with slarNack := 0x20 }.wf := by decide

theorem test_params_need_two_write_bytes : ¬ Params.WellFormed { cfg0 with wbufSize := 1 } :=
  fun h => absurd h.wbuf (by decide)

theorem test_params_need_a_read_byte : ¬ Params.WellFormed { cfg0 with rbufSize := 0 } :=
  fun h => absurd h.rbuf (by decide)

theorem test_params_need_a_pixel : ¬ Params.WellFormed { cfg0 with planeH := 0 } :=
  fun h => absurd h.plane (by decide)

theorem test_params_need_a_poll : ¬ Params.WellFormed { cfg0 with startTimeoutPolls := 0 } :=
  fun h => absurd h.polls (by decide)

theorem test_params_defaults_are_allowed : Params.WellFormed cfg0 :=
  ⟨by decide, by decide, by decide, by decide, by decide⟩

/-! ### Decoding: a word of every row, bit by bit from the tables -/

/-- L2-A1 to L2-A11: the codes of R87. -/
theorem test_status_codes_decode :
    [0b00001000, 0b00010000, 0b00011000, 0b00100000, 0b00101000, 0b00110000, 0b00111000,
      0b01000000, 0b01001000, 0b01010000, 0b01011000].map (decodeStatus StatusMap.default)
    = [.startSent, .repstartSent, .slawAck, .slawNack, .dataTxAck, .dataTxNack, .arbLost,
      .slarAck, .slarNack, .dataRxAck, .dataRxNack] := by decide

/-- L2-A12 to L2-A16: codes the map does not map. -/
theorem test_unmapped_codes_decode :
    [0x00, 0xF8, 0x60, 0x09, 0xFF].map (decodeStatus StatusMap.default)
    = [.unrecognized 0x00, .unrecognized 0xF8, .unrecognized 0x60, .unrecognized 0x09,
      .unrecognized 0xFF] := by decide

/-- The `CMD` table of R92: id in bits 15 to 12, 0 in bits 11 to 8, the operand in bits 7 to 0. -/
theorem test_command_words_decode :
    decodeCmd 0b0000000000000000 = .ok .clrInt ∧ decodeCmd 0b0001000000000000 = .ok .setSta
    ∧ decodeCmd 0b0010000000000000 = .ok .clrSta ∧ decodeCmd 0b0011000000000000 = .ok .setSto
    ∧ decodeCmd 0b0100000000000000 = .ok .setAa ∧ decodeCmd 0b0101000000000000 = .ok .clrAa
    ∧ decodeCmd 0b0110000010100001 = .ok (.wrDat 0xA1)
    ∧ decodeCmd 0b0111000000000000 = .ok .rdDat ∧ decodeCmd 0b1000000000000000 = .ok .rdSts
    ∧ decodeCmd 0b1001000000100000 = .ok (.cfgEn 0x20) := by decide

/-- R92: ids `0xA` to `0xF`, a nonzero `rsv`, and an operand where the command has none. -/
theorem test_reserved_command_words :
    decodeCmd 0xA000 = .error .reservedId ∧ decodeCmd 0xF000 = .error .reservedId
    ∧ decodeCmd 0x6100 = .error .reservedField ∧ decodeCmd 0x0800 = .error .reservedField
    ∧ decodeCmd 0x0001 = .error .strayOperand := by decide

/-- The `FGOP` codes of R94 and the reserved ones of R95 at their boundaries. -/
theorem test_foreground_codes_decode :
    decodeFgop 0b0001 { FgArgs.none with prescale := 0x20 } = .ok (.init 0x20)
    ∧ decodeFgop 0b0010 { prescale := 0, bytes := [0xA0, 0x00], wl := 2, rl := 1 }
        = .ok (.execute [0xA0, 0x00] 2 1)
    ∧ decodeFgop 0b0011 FgArgs.none = .ok .capture ∧ decodeFgop 0b0100 FgArgs.none = .ok .halt
    ∧ decodeFgop 0b0000 FgArgs.none = .error .reservedOp
    ∧ decodeFgop 0b0101 FgArgs.none = .error .reservedOp
    ∧ decodeFgop 0b1111 FgArgs.none = .error .reservedOp := by decide

/-- The address bytes of R98 and the restart index of R99, as in programs P2 and P6. -/
theorem test_address_bytes : addrByte 0x50 false = 0xA0 ∧ addrByte 0x50 true = 0xA1
    ∧ addrByte 0x21 false = 0x42 ∧ readIntent 0xA1 = true ∧ readIntent 0xA0 = false
    ∧ restartIndex 1 = 2 ∧ restartIndex 3 = 3 := by decide

/-- The caller's macros of R104, as in programs P2 and P3. -/
theorem test_caller_macros :
    Request.write 0x50 [0x00, 0x00] = .execute [0xA0, 0x00, 0x00] 3 0
    ∧ Request.writeRead 0x50 [0x00, 0x00] 1 = .execute [0xA0, 0x00, 0x00, 0xA1] 3 1 := by decide

/-- The caller's policies of R104 and R224, on the result codes of R96. -/
theorem test_caller_policies : Request.pollNext .capture 0x05 = some .capture
    ∧ Request.pollNext .capture 0x03 = none ∧ Request.bootStart 0x20 .capture = [.init 0x20, .capture]
    ∧ Request.bootNext 0x03 = none ∧ Request.bootNext 0x00 = some .halt := by decide

/-- The probe words of the host, one of each format. -/
theorem test_table_words : decodeTableWord 8 0x50 = some .dataRxAck
    ∧ decodeTableWord 8 0x00 = some (.unrecognized 0x00)
    ∧ decodeTableWord 16 0x9020 = some (.cfgEn 0x20) ∧ decodeTableWord 8 0x02 = some (.execute [] 0 0)
    ∧ decodeTableWord 4 0x4 = some .halt ∧ decodeTableWord 16 0xA000 = none := by decide

/-! ### The host's placing of a word: the next step runs it -/

theorem test_placed_status_runs :
    ∃ t, step (State.reset.withFetchWord 8 0x08) = .next t ∧ t.ts = .pending ∧ t.wc = 1 :=
  ⟨_, rfl, rfl, rfl⟩

theorem test_placed_command_runs :
    ∃ t, step (State.reset.withFetchWord 16 0x9020) = .next t ∧ t.presc = 0x20 ∧ t.en = true :=
  ⟨_, rfl, rfl, rfl⟩

theorem test_placed_foreground_operation_runs :
    ∃ t, step (State.reset.withFetchWord 8 0x01) = .next t ∧ t.initd = true ∧ t.fgph = .ready :=
  ⟨_, rfl, rfl, rfl⟩

theorem test_placed_execute_faults_before_init :
    ∃ t, step (State.reset.withFetchWord 4 0x2) = .next t
      ∧ t.fault = some (.notInitialized (.execute [] 0 0)) :=
  ⟨_, rfl, rfl⟩

/-! ### The arms (vectors L2-B) -/

/-- L2-B1. -/
theorem test_startSent : nextIs (isrStep (reported 0x08 { s0 with wc := 7, sta := true })) (fun t =>
    decide (words t = [0x8000, 0x60A0, 0x2000, 0x0000] ∧ t.dat = 0xA0 ∧ t.wc = 1 ∧ t.sta = false
      ∧ t.ts = .pending ∧ t.si = false)) = true := by decide

/-- L2-B2: a stale event. -/
theorem test_startSent_stale : nextIs (isrStep (reported 0x08 { s0 with ts := .ack })) (fun t =>
    decide (t.ts = .pending ∧ t.fgph = .ready)) = true := by decide

/-- L2-B3. -/
theorem test_repstartSent :
    nextIs (isrStep (reported 0x10 { s0 with wc := 3, rc := 5, sta := true, ts := .pending }))
      (fun t => decide (words t = [0x8000, 0x60A1, 0x2000, 0x0000] ∧ t.dat = 0xA1 ∧ t.wc = 4
        ∧ t.rc = 0 ∧ t.sta = false ∧ t.ts = .pending)) = true := by decide

/-- L2-B4. -/
theorem test_repstartSent_overrun :
    nextIs (isrStep (reported 0x10 { s0 with wc := 32, rc := 5 })) (fun t =>
      decide (words t = [0x8000] ∧ t.fault = some (.bufferOverrun .wb 32 (some 0x10)) ∧ t.rc = 0
        ∧ t.si = true)) = true := by decide

/-- L2-B5. -/
theorem test_slawAck : nextIs (isrStep (reported 0x18 { s0 with wc := 1, dat := 0xA0 })) (fun t =>
    decide (words t = [0x8000, 0x6000, 0x0000] ∧ t.dat = 0x00 ∧ t.wc = 2)) = true := by decide

/-- L2-B6, its first event: `WB[1]` is sent although `WL = 1`. -/
theorem test_slawAck_ignores_the_length :
    nextIs (isrStep (reported 0x18 { s0.putByte .wb 1 0x55 with wl := 1, wc := 1 })) (fun t =>
      decide (words t = [0x8000, 0x6055, 0x0000] ∧ t.wc = 2)) = true := by decide

/-- L2-B7. -/
theorem test_slawNack : nextIs (isrStep (reported 0x20 { s0 with wc := 1, ts := .pending }))
    (fun t => decide (words t = [0x8000, 0x3000, 0x0000] ∧ t.sto = true ∧ t.ts = .slaNack
      ∧ t.wc = 1)) = true := by decide

/-- L2-B9. -/
theorem test_dataTxAck_restarts :
    nextIs (isrStep (reported 0x28 { s0 with wc := 3, wl := 3, rl := 1, ts := .pending })) (fun t =>
      decide (words t = [0x8000, 0x1000, 0x0000] ∧ t.sta = true ∧ t.ts = .pending ∧ t.wc = 3))
    = true := by decide

/-- L2-B11: the cursor beyond the length. -/
theorem test_dataTxAck_ends_the_write :
    nextIs (isrStep (reported 0x28 { s0 with wc := 2, wl := 0, rl := 0 })) (fun t =>
      decide (words t = [0x8000, 0x3000, 0x0000] ∧ t.sto = true ∧ t.ts = .ack)) = true := by decide

/-- L2-B12. -/
theorem test_dataTxNack : nextIs (isrStep (reported 0x30 { s0 with ts := .pending })) (fun t =>
    decide (words t = [0x8000, 0x3000, 0x0000] ∧ t.sto = true ∧ t.ts = .nack)) = true := by decide

/-- L2-B13. -/
theorem test_arbLost : nextIs (isrStep (reported 0x38 { s0 with sta := true, aa := true })) (fun t =>
    decide (words t = [0x8000, 0x0000] ∧ t.ts = .arbitrationLoss ∧ t.sta = true ∧ t.sto = false
      ∧ t.aa = true)) = true := by decide

/-- L2-B14. -/
theorem test_slarAck_one_byte : nextIs (isrStep (reported 0x40 { s0 with rl := 1, aa := true }))
    (fun t => decide (words t = [0x8000, 0x5000, 0x0000] ∧ t.aa = false)) = true := by decide

/-- L2-B16: a read length of 0 takes the "otherwise" case. -/
theorem test_slarAck_zero_bytes : nextIs (isrStep (reported 0x40 { s0 with rl := 0 })) (fun t =>
    decide (words t = [0x8000, 0x4000, 0x0000] ∧ t.aa = true)) = true := by decide

/-- R129: as `SLAW_NACK`, in the read phase. -/
theorem test_slarNack : nextIs (isrStep (reported 0x48 { s0 with ts := .pending })) (fun t =>
    decide (words t = [0x8000, 0x3000, 0x0000] ∧ t.sto = true ∧ t.ts = .slaNack)) = true := by decide

/-- L2-B17: one byte of three, acknowledge the next. -/
theorem test_dataRxAck_more :
    nextIs (isrStep (reported 0x50 { s0 with rl := 3, rc := 0, dat := 0x11 })) (fun t =>
      decide (words t = [0x8000, 0x7000, 0x4000, 0x0000] ∧ t.byteAt .rb 0 = some 0x11 ∧ t.rc = 1
        ∧ t.aa = true)) = true := by decide

/-- L2-B18: two bytes of three, the next is the last. -/
theorem test_dataRxAck_before_the_last :
    nextIs (isrStep (reported 0x50 { s0 with rl := 3, rc := 1, dat := 0x22, aa := true })) (fun t =>
      decide (words t = [0x8000, 0x7000, 0x5000, 0x0000] ∧ t.byteAt .rb 1 = some 0x22 ∧ t.rc = 2
        ∧ t.aa = false)) = true := by decide

/-- L2-B23. -/
theorem test_dataRxNack :
    nextIs (isrStep (reported 0x58 { s0 with rc := 2, dat := 0x7F, ts := .pending })) (fun t =>
      decide (words t = [0x8000, 0x7000, 0x3000, 0x0000] ∧ t.byteAt .rb 2 = some 0x7F ∧ t.rc = 3
        ∧ t.sto = true ∧ t.ts = .ack)) = true := by decide

/-- L2-B24. -/
theorem test_dataRxNack_overrun :
    nextIs (isrStep (reported 0x58 { s0 with rc := 32, dat := 0x7F, ts := .pending })) (fun t =>
      decide (words t = [0x8000, 0x7000] ∧ t.fault = some (.bufferOverrun .rb 32 (some 0x58))
        ∧ t.si = true ∧ t.ts = .pending)) = true := by decide

/-- L2-B26. -/
theorem test_unrecognized : nextIs (isrStep (reported 0x00 { s0 with ts := .ack })) (fun t =>
    decide (words t = [0x8000, 0x0000] ∧ t.si = false ∧ t.ts = .ack)) = true := by decide

/-! ### The commands (vectors L2-K), as words at the port -/

/-- L2-K1. -/
theorem test_clrInt : nextIs (step { s0 with cmdPort := some 0x0000, si := true }) (fun t =>
    decide (t.si = false)) = true := by decide

/-- L2-K2. -/
theorem test_setSta : nextIs (step { s0 with cmdPort := some 0x1000 }) (fun t =>
    decide (t.sta = true)) = true := by decide

/-- L2-K3. -/
theorem test_clrSta : nextIs (step { s0 with cmdPort := some 0x2000, sta := true }) (fun t =>
    decide (t.sta = false)) = true := by decide

/-- L2-K4. -/
theorem test_setSto : nextIs (step { s0 with cmdPort := some 0x3000 }) (fun t =>
    decide (t.sto = true)) = true := by decide

/-- L2-K5. -/
theorem test_setAa : nextIs (step { s0 with cmdPort := some 0x4000 }) (fun t =>
    decide (t.aa = true)) = true := by decide

/-- L2-K6. -/
theorem test_clrAa : nextIs (step { s0 with cmdPort := some 0x5000, aa := true }) (fun t =>
    decide (t.aa = false)) = true := by decide

/-- L2-K7. -/
theorem test_wrDat : nextIs (step { s0 with cmdPort := some 0x60A1 }) (fun t =>
    decide (t.dat = 0xA1)) = true := by decide

/-- L2-K8. -/
theorem test_rdDat : nextIs (step { s0 with cmdPort := some 0x7000, dat := 0x7F }) (fun t =>
    decide (t.dat = 0x7F ∧ t.cmdLog = [readBack 0x7000 0x7F])) = true := by decide

/-- L2-K9. -/
theorem test_rdSts : nextIs (step { s0 with cmdPort := some 0x8000, sts := 0x50 }) (fun t =>
    decide (t.sts = 0x50 ∧ t.cmdLog = [readBack 0x8000 0x50])) = true := by decide

/-- L2-K10. -/
theorem test_cfgEn :
    nextIs (step { s0 with cmdPort := some 0x9020, en := false, ien := false, presc := 0x00 })
      (fun t => decide (t.en = true ∧ t.ien = true ∧ t.presc = 0x20)) = true := by decide

/-! ### The foreground operations (vectors L2-E, L2-C) -/

/-- A state before INIT, with an accepted request. -/
def fresh (r : Request) : State :=
  { s0 with initd := false, en := false, ien := false, fgph := .off, presc := 0x00 }.accept r

/-- L2-E1. -/
theorem test_init : nextIs (fgStep (fresh (.init 0x20))) (fun t =>
    decide (words t = [0x9020] ∧ t.en = true ∧ t.ien = true ∧ t.presc = 0x20 ∧ t.initd = true
      ∧ t.fgph = .ready ∧ t.req = none)) = true := by decide

/-- L2-E2. -/
theorem test_init_twice : nextIs (fgStep (s0.accept (.init 0x20))) (fun t =>
    decide (t.fault = some (.initTwice (.init 0x20)) ∧ words t = [])) = true := by decide

/-- L2-E5: the restart byte would lie at index 32; and `wl = 33` with no bytes, where the check reads
`WB[0]`, so that the return is a step of its own (R142, log 10). -/
theorem test_execute_rejects :
    nextIs (fgStep (s0.accept (.execute [0xA0] 32 1))) (fun t =>
      decide (t.res = 0x07 ∧ t.rbytes = [] ∧ t.fgph = .ready ∧ t.req = none ∧ t.sta = false)) = true
    ∧ nextIs (fgStep (s0.accept (.execute [] 33 0))) (fun t =>
      decide (t.res = 0x07 ∧ t.rbytes = [] ∧ t.fgph = .xCheck ∧ t.returning = true)) = true
    ∧ nextIs (fgStep { s0.accept (.execute [] 33 0) with returning := true }) (fun t =>
      decide (t.fgph = .ready ∧ t.req = none ∧ t.returning = false)) = true := by decide

/-- L2-E7: the restart byte lies at index 31. -/
theorem test_execute_admits : nextIs (fgStep (s0.accept (.execute [0xA0] 31 1))) (fun t =>
    decide (t.fgph = .xLoad 0 ∧ t.res = 0x00)) = true := by decide

/-- L2-C1, its last store (program P5): `B[1] = 0x78`, `PIX = 2`; and L2-C5, `PLANE_SIZE = 1`. -/
theorem test_capture_stores :
    nextIs (exec .capture { s0.accept .capture with fgph := .cSampleB (.store 0x78), pix := 1 })
      (fun t => decide (t.byteAt .b 1 = some 0x78 ∧ t.byteAt .a 1 = some 0x00 ∧ t.pix = 2
        ∧ t.fgph = .cPairHeadLA)) = true
    ∧ nextIs (exec .capture
        { s0.accept .capture with
          cfg := { cfg0 with planeH := 1, planeW := 1 }, fgph := .cSampleA (.store 0x56), pix := 1 })
      (fun t => decide (t.fault = some (.planeOverflow .a 1))) = true := by decide

/-- L2-C7: `C_PairHead(FA)` finds the frame ended; CAPTURE returns, in a step of its own (R142,
log 10), to `Off` before INIT (program P5). -/
theorem test_capture_returns :
    nextIs (exec .capture { fresh .capture with fgph := .cPairHeadFA, pix := 2 }) (fun t =>
      decide (t.fgph = .cPairHeadFA ∧ t.returning = true ∧ t.pix = 2)) = true
    ∧ nextIs (exec .capture { fresh .capture with fgph := .cPairHeadFA, returning := true, pix := 2 }) (fun t =>
      decide (t.fgph = .off ∧ t.req = none ∧ t.returning = false ∧ t.pix = 2)) = true := by decide

/-- L2-E14. -/
theorem test_halt : nextIs (fgStep (s0.accept .halt)) (fun t =>
    decide (t.fgph = .halted ∧ t.halted = true ∧ t.accepting = false)) = true := by decide

/-- L2-E13: a request in the middle of EXECUTE is refused. -/
theorem test_request_while_busy :
    perform (.op 0x3 FgArgs.none) { s0.accept (.execute [0xA0] 2 0) with fgph := .xWaitTerm }
      = .next { s0.accept (.execute [0xA0] 2 0) with fgph := .xWaitTerm } := rfl

/-- FG running `r` in a phase. -/
def running (r : Request) (ph : Phase) : State := { s0 with req := some r, fgph := ph }

/-- A request of program P1. -/
def req0 : Request := .execute [0xA0, 0x00, 0x00, 0x7F] 4 0

/-- FG in a phase of that request. -/
abbrev inPhase (ph : Phase) : State := running req0 ph

/-! ### The environment -/

/-- Program P4, the idle STOP (row W7) and then the START (row W1). -/
theorem test_wbc_idle_stop_then_start :
    { s0 with sta := true, sto := true }.wbcMay (.stop false) = true
    ∧ { s0 with sta := true, sto := true }.wbcMay (.report 0x08 none .start) = false
    ∧ { s0 with sta := true }.wbcMay (.report 0x08 none .start) = true := by decide

/-- R205: with `STO = 1` no row but W6 or W7 is enabled; after arbitration loss with `STA = 0` none
is. -/
theorem test_wbc_rows_enabled :
    WbcRow.all.filter (fun r => r.enabled { s0 with sto := true, sta := true, cph := .owned }) = [.stop]
    ∧ WbcRow.all.filter (fun r => r.enabled { s0 with last := 0x38 }) = []
    ∧ WbcRow.all.filter (fun r => r.enabled { s0 with cph := .owned, last := 0x28, sta := true })
        = [.repStart] := by decide

/-- R205: `CPH` after the START of W1 and after a lost arbitration. -/
theorem test_ownership :
    (ctrlStep (.report 0x08 none .start) { s0 with sta := true }).cph = .owned
    ∧ (ctrlStep (.report 0x38 none .lost) { s0 with cph := .owned }).cph = .free
    ∧ (ctrlStep (.report 0x28 none .lost) { s0 with cph := .owned }).cph = .owned := by decide

/-- Program P6: the halted state at its end is final and not successful (R212). -/
theorem test_halted_is_final_and_not_successful :
    let s := { s0 with fgph := .halted, halted := true }
    s.final ∧ ¬ s.successful := ⟨.inr rfl, fun h => nomatch h.2.2⟩

/-- R212: at rest with no operation, or with one that a fault has ended (L2-E2); not with one waiting
for its step. -/
theorem test_at_rest : s0.atRest = true ∧ (s0.accept (.init 0x20)).atRest = false
    ∧ { s0.accept (.init 0x20) with fault := some (.initTwice (.init 0x20)) }.atRest = true
    ∧ (inPhase .xWaitTerm).atRest = false := by decide

/-- Program P4: its first poll of `X_WaitStart`, then the step that takes W1, then `START_SENT`. -/
theorem test_start_events :
    { inPhase .xWaitStart with script := [.fg] }.fgMovesIn .xWaitStart = true
    ∧ { inPhase .xWaitStart with sta := true, script := [.ctrl (.report 0x08 none .start)] }.startsBus
    ∧ { reported 0x08 (inPhase .xWaitStart) with script := [.isr] }.runsArm .startSent = true :=
  ⟨rfl, ⟨.report 0x08 none .start, rfl, rfl⟩, rfl⟩

/-- Program P5: the poll that reads the low level, and the read of `D`. -/
theorem test_sampler_events :
    { s0.accept .capture with fgph := .cSampleA .waitLow, script := [.fg] }.readsLevel false = true
    ∧ { s0.accept .capture with fgph := .cSampleA .waitHigh, script := [.fg] }.readsLevel true = false
    ∧ { s0.accept .capture with fgph := .cSampleB .readD, script := [.fg] }.readsData = true := by
  decide

/-- Program P2, step 15 (row W5 with `AA = 0`). -/
theorem test_wbc_data_in :
    let s := { s0 with cph := .owned, last := 0x40 }
    s.wbcMay (.report 0x58 (some 0x7F) (.rx 0x7F .nack)) = true
    ∧ s.wbcMay (.report 0x50 (some 0x7F) (.rx 0x7F .ack)) = false
    ∧ s.responsiveMay (.report 0x38 (some 0x7F) .lost) = false := by decide

/-- Program P2, step 13 (row W2 with `rw = 1`). -/
theorem test_wbc_address :
    let s := { s0 with cph := .owned, last := 0x10, dat := 0xA1 }
    s.wbcMay (.report 0x40 none (.tx 0xA1 .ack)) = true
    ∧ s.wbcMay (.report 0x18 none (.tx 0xA1 .ack)) = false := by decide

/-! ### Witnesses: states and operands that meet the hypotheses of the statements -/

/-- The hypotheses under which the handler runs the arm of a code. -/
abbrev RunsHyp (s : State) (code : StatusMap → Byte) : Prop :=
  s.cfg.statusMap.wf ∧ s.si = true ∧ s.en = true ∧ s.ien = true ∧ s.fault = none ∧ s.sts = code s.cfg.statusMap

/-- A block whose write buffer has the two elements R8 asks for at least. -/
def small : State :=
  { s0 with cfg := { cfg0 with wbufSize := 2 }, mem := { mem0 with wb := [(0, 0xA0), (1, 0x00)] } }

theorem witness_DecodeOfEncodeIsIdentity :
    StatusMap.default.wf ∧ (Instr.unrecognized 0x00).wellFormed StatusMap.default = true
    ∧ (Instr.wrDat 0xFF).wellFormed StatusMap.default = true
    ∧ (Instr.execute [0xA0] 33 33).wellFormed StatusMap.default = true := by decide

theorem witness_DecodedCommandEncodesBack :
    decodeCmd 0x0000 = .ok .clrInt ∧ decodeCmd 0x90FF = .ok (.cfgEn 0xFF) := by decide

theorem witness_StatusDecoderFollowsTheMap :
    StatusMap.default.wf ∧ 0x08 = StatusMap.default.startSent
    ∧ (0x00 : Byte) ∉ StatusMap.default.codes := by decide

theorem witness_ReservedOperationIsRefused :
    (0x0 : BitVec 4) = 0 ∧ 5 ≤ (0x5 : BitVec 4).toNat ∧ 5 ≤ (0xF : BitVec 4).toNat := by decide

theorem witness_StepRunsTheDecodedOperation :
    (let s := { reported 0x28 s0 with script := [.isr] };
      s.cmdPort = none ∧ s.script = [.isr] ∧ s.si = true ∧ s.en = true ∧ s.ien = true ∧ s.fault = none
        ∧ decodeStatus s.cfg.statusMap s.sts = .dataTxAck)
    ∧ (let s := { s0.accept .halt with script := [.fg] };
      s.cmdPort = none ∧ s.script = [.fg] ∧ s.fault = none ∧ s.req = some .halt)
    ∧ ({ s0 with cmdPort := some 0x3000 }.cmdPort = some 0x3000 ∧ decodeCmd 0x3000 = .ok .setSto) := by
  decide

theorem witness_ResetStateIsAsSpecified :
    0 < State.reset.cfg.planeSize ∧ 19199 < State.reset.cfg.planeSize := by decide

theorem witness_ElementsAreThoseBelowCapacity :
    s0.mem.wf s0.cfg ∧ s0.byteAt .wb 31 ≠ none ∧ s0.byteAt .wb 32 = none
    ∧ s0.byteAt .b 19199 = some 0x00 ∧ s0.byteAt .b 19200 = none := by decide

theorem witness_WriteChangesOnlyTheOneElement :
    31 < Space.wb.capacity s0.cfg ∧ 19199 < Space.a.capacity s0.cfg
    ∧ (Space.rb ≠ Space.wb ∨ 31 ≠ 31) ∧ (Space.wb ≠ Space.wb ∨ 30 ≠ 31) := by decide

theorem witness_StartSentSendsTheFirstByte :
    RunsHyp (reported 0x08 s0) (·.startSent) ∧ small.mem.wf small.cfg ∧ 2 ≤ small.cfg.wbufSize := by
  decide

theorem witness_RepstartSentSendsTheNextByte :
    RunsHyp (reported 0x10 s0) (·.repstartSent) ∧ s0.mem.wf s0.cfg
    ∧ { s0 with wc := 31 }.wc < s0.cfg.wbufSize ∧ s0.cfg.wbufSize ≤ { s0 with wc := 32 }.wc := by
  decide

theorem witness_SlawAckSendsTheNextByte :
    RunsHyp (reported 0x18 s0) (·.slawAck) ∧ s0.mem.wf s0.cfg
    ∧ { s0 with wc := 31 }.wc < s0.cfg.wbufSize ∧ s0.cfg.wbufSize ≤ { s0 with wc := 32 }.wc := by
  decide

theorem witness_DataTxAckContinuesOrEndsTheWrite :
    RunsHyp (reported 0x28 s0) (·.dataTxAck) ∧ s0.mem.wf s0.cfg
    ∧ (let s := { s0 with wc := 31, wl := 32 }; s.wc < s.wl ∧ s.wc < s.cfg.wbufSize)
    ∧ (let s := { s0 with wc := 32, wl := 33 }; s.wc < s.wl ∧ s.cfg.wbufSize ≤ s.wc)
    ∧ (let s := { s0 with wc := 4, wl := 4, rl := 1 }; s.wl ≤ s.wc ∧ 0 < s.rl)
    ∧ (let s := { s0 with wc := 4, wl := 4, rl := 0 }; s.wl ≤ s.wc ∧ s.rl = 0) := by decide

theorem witness_RefusalArmsEndTheTransaction :
    RunsHyp (reported 0x20 s0) (·.slawNack) ∧ RunsHyp (reported 0x30 s0) (·.dataTxNack)
    ∧ RunsHyp (reported 0x38 s0) (·.arbLost) ∧ RunsHyp (reported 0x48 s0) (·.slarNack) := by decide

theorem witness_UnrecognizedOnlyClearsTheInterrupt :
    (let s := reported 0xF8 s0; s.si = true ∧ s.en = true ∧ s.ien = true ∧ s.fault = none)
    ∧ (reported 0xF8 s0).sts ∉ (reported 0xF8 s0).cfg.statusMap.codes := by decide

theorem witness_SlarAckArmsTheAcknowledge :
    RunsHyp (reported 0x40 s0) (·.slarAck) ∧ { s0 with rl := 1 }.rl = 1 ∧ { s0 with rl := 0 }.rl ≠ 1
    ∧ { s0 with rl := 2 }.rl ≠ 1 := by decide

theorem witness_DataRxAckStoresAndArms :
    RunsHyp (reported 0x50 s0) (·.dataRxAck) ∧ s0.mem.wf s0.cfg ∧ { s0 with rl := 0 }.rl = 0
    ∧ (let s := { s0 with rl := 5, rc := 32 }; s.rl ≠ 0 ∧ s.cfg.rbufSize ≤ s.rc)
    ∧ (let s := { s0 with rl := 1, rc := 31 }; s.rl ≠ 0 ∧ s.rc < s.cfg.rbufSize) := by decide

theorem witness_DataRxNackStoresAndCompletes :
    RunsHyp (reported 0x58 s0) (·.dataRxNack) ∧ s0.mem.wf s0.cfg
    ∧ { s0 with rc := 31 }.rc < s0.cfg.rbufSize ∧ s0.cfg.rbufSize ≤ { s0 with rc := 32 }.rc := by
  decide

theorem witness_ArmsClearTheInterruptOnceAndLast :
    ∃ t, Instr.slawAck.isArm = true ∧ s0.fault = none ∧ exec .slawAck s0 = .next t
      ∧ t.fault = none :=
  ⟨_, rfl, rfl, rfl, rfl⟩

theorem witness_FaultedArmLeavesTheInterruptPending :
    ∃ t, Instr.dataRxNack.isArm = true ∧ s0.fault = none
      ∧ exec .dataRxNack { s0 with rc := 32 } = .next t ∧ t.fault ≠ none :=
  ⟨_, rfl, rfl, rfl, by decide⟩

theorem witness_ArmsDoNotReadTheTransactionState :
    ∃ t, Instr.startSent.isArm = true ∧ exec .startSent s0 = .next t := ⟨_, rfl, rfl⟩

theorem witness_PendingAndAckHaveTheirArms :
    (∃ t, exec .startSent s0 = .next t ∧ t.ts ≠ s0.ts ∧ t.ts = .pending)
    ∧ (∃ t, exec .dataTxAck s0 = .next t ∧ t.ts ≠ s0.ts ∧ t.ts = .ack) :=
  ⟨⟨_, rfl, by decide, rfl⟩, ⟨_, rfl, by decide, rfl⟩⟩

theorem witness_ArmsFrame :
    (∃ t, exec (.unrecognized 0xF8) s0 = .next t)
    ∧ Instr.unrecognized 0xF8 ∉ [Instr.startSent, .repstartSent, .slawAck, .slawNack, .dataTxAck,
        .dataTxNack, .arbLost, .slarAck, .slarNack, .dataRxAck, .dataRxNack]
    ∧ (∃ t, exec .dataRxNack s0 = .next t)
    ∧ ¬ ((Instr.dataRxNack = .dataRxAck ∨ Instr.dataRxNack = .dataRxNack)
        ∧ Space.rb = .rb ∧ 1 = s0.rc) :=
  ⟨⟨_, rfl⟩, by decide, ⟨_, rfl⟩, by decide⟩

theorem witness_InvocationLeavesTheForegroundAlone :
    (∃ t, perform .isr (reported 0x08 (inPhase .xWaitStart)) = .next t)
    ∧ (reported 0x08 (inPhase .xWaitStart)).isrEnabled = true
    ∧ (∃ t, perform .isr s0 = .next t)
    ∧ ¬ (s0.si = true ∧ s0.en = true ∧ s0.ien = true ∧ s0.fault = none) :=
  ⟨⟨_, rfl⟩, rfl, ⟨_, rfl⟩, by decide⟩

theorem witness_CommandsFrame :
    Instr.rdDat.isCommand = true ∧ (∃ t, exec .rdDat s0 = .next t) ∧ Instr.rdDat ≠ .clrInt
    ∧ Instr.rdDat ≠ .setSta ∧ Instr.rdDat ≠ .clrSta ∧ Instr.rdDat ≠ .setSto ∧ Instr.rdDat ≠ .setAa
    ∧ Instr.rdDat ≠ .clrAa ∧ (∀ b, Instr.rdDat ≠ .wrDat b) ∧ (∀ p, Instr.rdDat ≠ .cfgEn p) :=
  ⟨rfl, ⟨_, rfl⟩, nofun, nofun, nofun, nofun, nofun, nofun, nofun, nofun⟩

theorem witness_InitEnablesTheController :
    (let s := fresh (.init 0x20); s.fgph.idle = true ∧ s.initd = false)
    ∧ s0.fgph.idle = true ∧ s0.initd = true := by decide

theorem witness_HaltStopsTheForeground :
    s0.fgph.idle = true ∧ { s0 with fgph := .halted }.fgph = .halted := by decide

theorem witness_InitAndHaltFrame :
    (∃ p, Instr.init 0x20 = .init p) ∧ (∃ t, exec (.init 0x20) s0 = .next t)
    ∧ Instr.init 0x20 ≠ .halt ∧ (∃ t, exec .halt s0 = .next t) :=
  ⟨⟨_, rfl⟩, ⟨_, rfl⟩, nofun, ⟨_, rfl⟩⟩

theorem witness_RequestsAreAcceptedOnlyWhenIdle :
    ((s0.fgph = .off ∨ s0.fgph = .ready) ∧ s0.req = none ∧ s0.fault = none)
    ∧ (let s := { s0 with fgph := .off }; (s.fgph = .off ∨ s.fgph = .ready) ∧ s.req = none
      ∧ s.fault = none)
    ∧ (let s := inPhase .xWaitTerm;
      ¬ ((s.fgph = .off ∨ s.fgph = .ready) ∧ s.req = none ∧ s.fault = none))
    ∧ (let s := s0.accept .halt;
      ¬ ((s.fgph = .off ∨ s.fgph = .ready) ∧ s.req = none ∧ s.fault = none)) := by decide

theorem witness_ForegroundOperationOutsideItsPhases :
    s0.fgph.idle = true ∧ Phase.off.idle = true
    ∧ Phase.halted.idle = false ∧ Phase.halted.inEngine = false ∧ Phase.halted.inCapture = false
    ∧ Phase.cInit.idle = false ∧ Phase.cInit.inEngine = false
    ∧ Phase.xCheck.idle = false ∧ Phase.xCheck.inCapture = false := by decide

theorem witness_ExecuteChecksTheRequest :
    (fresh req0).fgph = .xCheck ∧ (fresh req0).initd = false
    ∧ (inPhase .xCheck).fgph = .xCheck ∧ (inPhase .xCheck).initd = true
    ∧ [0xA0].head? = some (0xA0 : Byte) ∧ (inPhase .xCheck).byteAt .wb 0 = some 0xA0
    ∧ (inPhase .xCheck).returning = false
    ∧ { inPhase .xCheck with returning := true }.returning = true := by decide

theorem witness_ExecuteLoadsArmsAndStarts :
    ((inPhase (.xLoad 3)).fgph = .xLoad 3 ∧ [0xA0, 0x00, 0x00, (0x7F : Byte)][3]? = some 0x7F
      ∧ s0.mem.wf s0.cfg ∧ 3 < s0.cfg.wbufSize)
    ∧ ((inPhase (.xLoad 4)).fgph = .xLoad 4 ∧ 4 = [0xA0, 0x00, 0x00, (0x7F : Byte)].length)
    ∧ ((inPhase (.xLoad 5)).fgph = .xLoad 5 ∧ [0xA0, 0x00, 0x00, (0x7F : Byte)].length < 5)
    ∧ (inPhase .xArmTS).fgph = .xArmTS ∧ (inPhase .xArmWC).fgph = .xArmWC
    ∧ (inPhase .xArmRC).fgph = .xArmRC ∧ (inPhase .xArmSta).fgph = .xArmSta := by decide

theorem witness_ExecutePollsForTheStart :
    (let s := inPhase .xWaitStart; s.fgph = .xWaitStart ∧ s.ts ≠ .pending
      ∧ s.k + 1 < s.cfg.startTimeoutPolls)
    ∧ (let s := { inPhase .xWaitStart with ts := .pending }; s.fgph = .xWaitStart ∧ s.ts = .pending)
    ∧ (let s := { inPhase .xWaitStart with k := 2, ts := .slaNack }; s.fgph = .xWaitStart
      ∧ s.ts ≠ .pending ∧ s.cfg.startTimeoutPolls ≤ s.k + 1)
    ∧ (inPhase .xTimeout).fgph = .xTimeout := by decide

theorem witness_ExecuteWaitsAndReturnsTheBytes :
    ((inPhase .xWaitTerm).fgph = .xWaitTerm
      ∧ (inPhase .xWaitTerm).ts ∈ [TxState.idle, TxState.pending])
    ∧ ({ inPhase .xWaitTerm with ts := .ack }.ts
      ∈ [TxState.ack, TxState.nack, TxState.slaNack, TxState.arbitrationLoss])
    ∧ (let s := { inPhase (.xCopy 31) with rl := 32 }; s.fgph = .xCopy 31 ∧ 31 < s.rl
      ∧ s.byteAt .rb 31 = some 0x00)
    ∧ (let s := { inPhase (.xCopy 32) with rl := 32 }; s.fgph = .xCopy 32 ∧ s.rl ≤ 32) := by decide

theorem witness_EngineAccessBeyondABufferFaults :
    (let s := { running (.execute [] 2 0) .xCheck with
        cfg := { cfg0 with wbufSize := 0 }, mem := { mem0 with wb := [] } };
      s.mem.wf s.cfg ∧ s.fgph = .xCheck ∧ s.returning = false ∧ s.initd = true
        ∧ s.cfg.wbufSize = 0)
    ∧ (let s := inPhase (.xLoad 32); s.mem.wf s.cfg ∧ s.fgph = .xLoad 32
      ∧ 32 < (List.replicate 33 (0x00 : Byte)).length ∧ s.cfg.wbufSize ≤ 32)
    ∧ (let s := { inPhase (.xCopy 32) with rl := 33 }; s.mem.wf s.cfg ∧ s.fgph = .xCopy 32
      ∧ 32 < s.rl ∧ s.cfg.rbufSize ≤ 32) := by decide

theorem witness_ExecuteFrame :
    (∃ t, exec req0.instr (inPhase (.xLoad 0)) = .next t)
    ∧ ¬ (Space.wb = .wb ∧ (inPhase (.xLoad 0)).fgph = .xLoad 1 ∧ 1 < 4)
    ∧ (inPhase .xCheck).fgph ≠ .xArmTS ∧ (inPhase .xCheck).fgph ≠ .xArmWC
    ∧ (inPhase .xCheck).fgph ≠ .xArmRC ∧ (inPhase .xCheck).fgph ≠ .xArmSta
    ∧ (inPhase .xCheck).fgph ≠ .xTimeout ∧ (∀ i, (inPhase .xCheck).fgph ≠ .xLoad i)
    ∧ (∃ t, exec req0.instr (inPhase .xCheck) = .next t) :=
  ⟨⟨_, rfl⟩, by decide, nofun, nofun, nofun, nofun, nofun, nofun, ⟨_, rfl⟩⟩

/-- Every phase is the phase of some state, with a return due and without: the hypotheses of each
clause. -/
theorem witness_CaptureFollowsFrameAndLines : ∀ ph b,
    let s := { running .capture ph with returning := b }
    s.fgph = ph ∧ s.returning = b := fun _ _ => ⟨rfl, rfl⟩

theorem witness_SampleReadsDataAtTheRisingEdge :
    ∀ sub, (running .capture (.cSampleA sub)).fgph = .cSampleA sub
      ∧ (running .capture (.cSampleB sub)).fgph = .cSampleB sub := fun _ => ⟨rfl, rfl⟩

theorem witness_SamplesGoToThePlanes :
    s0.mem.wf s0.cfg ∧ (running .capture (.cSampleA (.store 0x12))).fgph = .cSampleA (.store 0x12)
    ∧ (running .capture (.cSampleB (.store 0x34))).fgph = .cSampleB (.store 0x34)
    ∧ { s0 with pix := 19199 }.pix < s0.cfg.planeSize
    ∧ s0.cfg.planeSize ≤ { s0 with pix := 19200 }.pix := by decide

theorem witness_CaptureFrame :
    (∃ t, exec .capture (running .capture (.cSampleA (.store 0x12))) = .next t)
    ∧ ¬ (1 = (running .capture (.cSampleA (.store 0x12))).pix) := ⟨⟨_, rfl⟩, by decide⟩

theorem witness_PairInProgressIgnoresLineAndFrame :
    (∃ t, exec .capture (running .capture (.cSampleA .waitHigh)) = .next t)
    ∧ (∃ t, exec .capture (running .capture (.cSampleB .readD)) = .next t) :=
  ⟨⟨_, rfl⟩, ⟨_, rfl⟩⟩

theorem witness_EnvironmentStepsAsTheRulesSay :
    { s0 with si := true }.si = true ∧ { s0 with en := false }.en = false
    ∧ s0.en = true ∧ s0.si = false ∧ s0.sto = false
    ∧ s0.cfg.statusMap.startSent ≠ s0.cfg.statusMap.arbLost ∧ { s0 with sto := true }.sto = true := by decide

theorem witness_WellBehavedControllerIsABaseController :
    { s0 with sta := true }.wbcMay (.report 0x08 none .start) = true
    ∧ { s0 with sto := true }.wbcMay (.stop false) = true := by decide

theorem witness_StopFollowsTheTerminalArms :
    ∃ t, Instr.slawNack ∈ [Instr.slawNack, .slarNack, .dataTxNack, .dataRxNack] ∧ s0.fault = none
      ∧ exec .slawNack (reported 0x20 { s0 with cph := .owned, last := 0x20 }) = .next t
      ∧ t.fault = none ∧ t.wbcMay (.stop true) = true :=
  ⟨_, by decide, rfl, rfl, rfl, rfl⟩

theorem witness_BlockNeverWritesTheEnvironment : ∃ t, exec .halt s0 = .next t := ⟨_, rfl⟩

theorem witness_EnablesAndFlagsAreNeverCleared :
    let s := { s0 with fgph := .halted, halted := true }
    (∃ t, perform .fg s = .next t) ∧ s.initd = true ∧ s.halted = true ∧ s.en = true
      ∧ s.ien = true := ⟨⟨_, rfl⟩, rfl, rfl, rfl, rfl⟩

theorem witness_OnlyTheArmStepAndTheHandlerWriteTS :
    (∃ t, perform .fg { inPhase .xArmTS with ts := .ack } = .next t ∧ t.ts ≠ TxState.ack)
    ∧ (∃ t, perform .isr (reported 0x08 s0) = .next t ∧ t.ts ≠ (reported 0x08 s0).ts) :=
  ⟨⟨_, rfl, by decide⟩, ⟨_, rfl, by decide⟩⟩

theorem witness_OnlyControllerSetsAndHandlerClearsSI :
    (∃ t, perform (.ctrl (.report 0x08 none .start)) s0 = .next t ∧ s0.si = false ∧ t.si = true)
    ∧ (∃ t, perform .isr (reported 0x08 s0) = .next t ∧ (reported 0x08 s0).si = true
      ∧ t.si = false) :=
  ⟨⟨_, rfl, rfl, rfl⟩, ⟨_, rfl, rfl, rfl⟩⟩

theorem witness_ArraysAreWrittenByTheirOwnersOnly :
    (∃ t, perform .fg (inPhase (.xLoad 3)) = .next t
      ∧ t.byteAt .wb 3 ≠ (inPhase (.xLoad 3)).byteAt .wb 3)
    ∧ (∃ t, perform .isr (reported 0x58 { s0 with dat := 0x7F }) = .next t
      ∧ t.byteAt .rb 0 ≠ s0.byteAt .rb 0)
    ∧ (∃ t, perform .fg (running .capture (.cSampleA (.store 0x12))) = .next t
      ∧ t.byteAt .a 0 ≠ s0.byteAt .a 0)
    ∧ (∃ t, perform .fg (running .capture (.cSampleB (.store 0x34))) = .next t
      ∧ t.byteAt .b 0 ≠ s0.byteAt .b 0) :=
  ⟨⟨_, rfl, by decide⟩, ⟨_, rfl, by decide⟩, ⟨_, rfl, by decide⟩, ⟨_, rfl, by decide⟩⟩

theorem witness_FaultIsStickyAndStopsTheBlock :
    let s := { reported 0x08 (inPhase .xWaitTerm) with
      fault := some (.readLengthZero 0x50 0), script := [.isr] }
    s.cmdPort = none ∧ s.fault ≠ none ∧ (∃ t, step s = .next t) ∧ nextMove s = .isr
      ∧ nextMove { s with script := [.fg] } = .fg :=
  ⟨rfl, nofun, ⟨_, rfl⟩, rfl, rfl⟩

theorem witness_WritePhaseSendsTheBytesAndEndsInAck :
    (let s := { s0 with wl := 32 }; s.mem.wf s.cfg ∧ 2 ≤ s.cfg.wbufSize ∧ s.wl ≤ s.cfg.wbufSize
      ∧ s.rl = 0)
    ∧ (small.mem.wf small.cfg ∧ 2 ≤ small.cfg.wbufSize ∧ small.wl ≤ small.cfg.wbufSize
      ∧ small.rl = 0)
    ∧ 0 < max s0.wl 2 - 1 := by decide

theorem witness_ReadPhaseStoresTheBytesAndEndsInAck :
    (let s := { s0 with rl := 1 }; s.mem.wf s.cfg ∧ [(0x7F : Byte)] ≠ [] ∧ s.rl = [(0x7F : Byte)].length
      ∧ s.rl ≤ s.cfg.rbufSize ∧ s.rc = 0)
    ∧ (let s := { s0 with rl := 32 }; s.rl = (List.replicate 32 (0x11 : Byte)).length
      ∧ s.rl ≤ s.cfg.rbufSize ∧ s.rc = 0) := by decide

theorem witness_TimeoutAfterExactlyTheBound :
    let s := inPhase .xWaitStart
    s.fgph = .xWaitStart ∧ s.k = 0 ∧ s.ts ≠ .pending ∧ 1 ≤ s.cfg.startTimeoutPolls
      ∧ 2 < s.cfg.startTimeoutPolls := by decide

/-- An admitted request at its first load step, FG's step next. -/
def loading : State := { inPhase (.xLoad 0) with script := [.fg] }

theorem loading_bounds : loading.BoundsOk where
  polls  := by decide
  wl     := by decide
  rl     := by decide
  wc     := by decide
  rc     := by decide
  pix    := by decide
  k      := nofun
  loaded := by rintro bytes wl rl ⟨⟩ - -; decide
  res    := by decide

theorem witness_StepKeepsTheMemoryCanonical :
    loading.mem.wf loading.cfg ∧ ∃ t, step loading = .next t := ⟨by decide, _, rfl⟩

theorem witness_StepKeepsTheControlConsistent :
    let s := { inPhase .xCheck with script := [.fg] }
    s.ControlOk ∧ ∃ t, step s = .next t :=
  ⟨⟨rfl, rfl, nofun, nofun, fun _ _ => rfl, rfl, rfl, nofun, by decide, nofun⟩, _, rfl⟩

theorem witness_StepKeepsTheBounds : loading.BoundsOk ∧ ∃ t, step loading = .next t :=
  ⟨loading_bounds, _, rfl⟩

theorem witness_EngineAndDataTxAckNeverOverrun :
    loading.mem.wf loading.cfg ∧ 2 ≤ loading.cfg.wbufSize ∧ loading.BoundsOk
      ∧ loading.req = some (.execute [0xA0, 0x00, 0x00, 0x7F] 4 0) ∧ loading.fault = none
      ∧ (∃ t, fgStep loading = .next t) ∧ ∃ t, exec .dataTxAck loading = .next t :=
  ⟨by decide, by decide, loading_bounds, rfl, rfl, ⟨_, rfl⟩, _, rfl⟩

end Sys2Proof.Tests
end

/-! ## What each operation can do

The outcomes of the arms and of FG's steps with the guards they stand under, once: every invariant
and every frame below is a case analysis over `ArmStep` and `FgStep`. -/

namespace Sys2Proof.Machine

variable {s t : State}

/-! ### The arms of the handler -/

/-- The next states of an arm (R115 to R134) from the state `s` it finds. -/
inductive ArmStep (s : State) : Instr → State → Prop
  | startSent {b} (hb : s.byteAt .wb 0 = some b) :
      ArmStep s .startSent
        ((((s.setWc 0).cmdWrDat b).setWc 1).cmdClrSta.cmdClrInt.setTs .pending)
  | startSentOverrun (hb : s.byteAt .wb 0 = none) :
      ArmStep s .startSent ((s.setWc 0).raise (overrun .wb 0 (some s.sts)))
  | repstartSent {b} (hb : s.byteAt .wb s.wc = some b) :
      ArmStep s .repstartSent (((s.setRc 0).cmdWrDat b).setWc (s.wc + 1)).cmdClrSta.cmdClrInt
  | repstartSentOverrun (hb : s.byteAt .wb s.wc = none) :
      ArmStep s .repstartSent ((s.setRc 0).raise (overrun .wb s.wc (some s.sts)))
  | slawAck {b} (hb : s.byteAt .wb s.wc = some b) :
      ArmStep s .slawAck ((s.cmdWrDat b).setWc (s.wc + 1)).cmdClrInt
  | slawAckOverrun (hb : s.byteAt .wb s.wc = none) :
      ArmStep s .slawAck (s.raise (overrun .wb s.wc (some s.sts)))
  | slawNack : ArmStep s .slawNack (s.cmdSetSto.cmdClrInt.setTs .slaNack)
  | dataTxAckSends {b} (hwc : s.wc < s.wl) (hb : s.byteAt .wb s.wc = some b) :
      ArmStep s .dataTxAck ((s.cmdWrDat b).setWc (s.wc + 1)).cmdClrInt
  | dataTxAckOverrun (hwc : s.wc < s.wl) (hb : s.byteAt .wb s.wc = none) :
      ArmStep s .dataTxAck (s.raise (overrun .wb s.wc (some s.sts)))
  | dataTxAckRestarts (hwc : s.wl ≤ s.wc) (hrl : 0 < s.rl) :
      ArmStep s .dataTxAck s.cmdSetSta.cmdClrInt
  | dataTxAckEnds (hwc : s.wl ≤ s.wc) (hrl : s.rl = 0) :
      ArmStep s .dataTxAck (s.cmdSetSto.cmdClrInt.setTs .ack)
  | dataTxNack : ArmStep s .dataTxNack (s.cmdSetSto.cmdClrInt.setTs .nack)
  | arbLost : ArmStep s .arbLost (s.cmdClrInt.setTs .arbitrationLoss)
  | slarAckOne (hrl : s.rl = 1) : ArmStep s .slarAck s.cmdClrAa.cmdClrInt
  | slarAckOther (hrl : s.rl ≠ 1) : ArmStep s .slarAck s.cmdSetAa.cmdClrInt
  | slarNack : ArmStep s .slarNack (s.cmdSetSto.cmdClrInt.setTs .slaNack)
  | dataRxAckUnread (hrl : s.rl = 0) :
      ArmStep s .dataRxAck (s.raise (.readLengthZero s.sts s.rc))
  | dataRxAckMore {b} (hrl : s.rl ≠ 0) (hb : s.byteAt .rb s.rc = some b)
      (hrc : s.rc + 1 < s.rl - 1) :
      ArmStep s .dataRxAck
        ((s.cmdRdDat.putByte .rb s.rc s.dat).setRc (s.rc + 1)).cmdSetAa.cmdClrInt
  | dataRxAckLast {b} (hrl : s.rl ≠ 0) (hb : s.byteAt .rb s.rc = some b)
      (hrc : s.rl - 1 ≤ s.rc + 1) :
      ArmStep s .dataRxAck
        ((s.cmdRdDat.putByte .rb s.rc s.dat).setRc (s.rc + 1)).cmdClrAa.cmdClrInt
  | dataRxAckOverrun (hrl : s.rl ≠ 0) (hb : s.byteAt .rb s.rc = none) :
      ArmStep s .dataRxAck (s.cmdRdDat.raise (overrun .rb s.rc (some s.sts)))
  | dataRxNack {b} (hb : s.byteAt .rb s.rc = some b) :
      ArmStep s .dataRxNack
        (((s.cmdRdDat.putByte .rb s.rc s.dat).setRc (s.rc + 1)).cmdSetSto.cmdClrInt.setTs .ack)
  | dataRxNackOverrun (hb : s.byteAt .rb s.rc = none) :
      ArmStep s .dataRxNack (s.cmdRdDat.raise (overrun .rb s.rc (some s.sts)))
  | unrecognized (c : Byte) : ArmStep s (.unrecognized c) s.cmdClrInt

theorem ArmStep.of_dataTxAck (h : execDataTxAck s = .next t) : ArmStep s .dataTxAck t := by
  unfold execDataTxAck at h
  split at h
  next hwc =>
    obtain ⟨b, hb, h⟩ | ⟨hb, h⟩ := State.load_cases h
    · cases h; exact .dataTxAckSends hwc hb
    · cases h; exact .dataTxAckOverrun hwc hb
  next hwc =>
    split at h
    next hrl => cases h; exact .dataTxAckRestarts (by omega) hrl
    next hrl => cases h; exact .dataTxAckEnds (by omega) (by omega)

theorem ArmStep.of_slarAck (h : execSlarAck s = .next t) : ArmStep s .slarAck t := by
  by_cases hrl : s.rl = 1
  · simp only [execSlarAck, hrl, if_true] at h; cases h; exact .slarAckOne hrl
  · simp only [execSlarAck, hrl, if_false] at h; cases h; exact .slarAckOther hrl

theorem ArmStep.of_dataRxAck (h : execDataRxAck s = .next t) : ArmStep s .dataRxAck t := by
  unfold execDataRxAck at h
  split at h
  next hrl => cases h; exact .dataRxAckUnread hrl
  next hrl =>
    obtain ⟨b, hb, h⟩ | ⟨hb, h⟩ := State.store_cases h
    · by_cases hrc : s.rc + 1 < s.rl - 1
      · simp [hrc] at h; subst h; exact .dataRxAckMore hrl hb hrc
      · simp [hrc] at h; subst h; exact .dataRxAckLast hrl hb (by omega)
    · cases h; exact .dataRxAckOverrun hrl hb

theorem ArmStep.of_dataRxNack (h : execDataRxNack s = .next t) : ArmStep s .dataRxNack t := by
  unfold execDataRxNack at h
  obtain ⟨b, hb, h⟩ | ⟨hb, h⟩ := State.store_cases h
  · cases h; exact .dataRxNack hb
  · cases h; exact .dataRxNackOverrun hb

/-- A next state of an arm is one of those listed. -/
theorem ArmStep.of_exec {i : Instr} (hi : i.isArm = true) (h : exec i s = .next t) :
    ArmStep s i t := by
  cases i with
  | startSent =>
    obtain ⟨b, hb, h⟩ | ⟨hb, h⟩ := State.load_cases h
    · cases h; exact .startSent hb
    · cases h; exact .startSentOverrun hb
  | repstartSent =>
    obtain ⟨b, hb, h⟩ | ⟨hb, h⟩ := State.load_cases h
    · cases h; exact .repstartSent hb
    · cases h; exact .repstartSentOverrun hb
  | slawAck =>
    obtain ⟨b, hb, h⟩ | ⟨hb, h⟩ := State.load_cases h
    · cases h; exact .slawAck hb
    · cases h; exact .slawAckOverrun hb
  | dataTxAck => exact .of_dataTxAck h
  | slarAck => exact .of_slarAck h
  | dataRxAck => exact .of_dataRxAck h
  | dataRxNack => exact .of_dataRxNack h
  | slawNack => cases h; exact .slawNack
  | dataTxNack => cases h; exact .dataTxNack
  | arbLost => cases h; exact .arbLost
  | slarNack => cases h; exact .slarNack
  | unrecognized c => cases h; exact .unrecognized c
  | _ => cases hi

/-! ### The steps of FG -/

/-- The next states of one FG step of a request from the state `s`. -/
inductive FgStep (s : State) : Request → State → Prop
  /-- A poll that goes on waiting, or a phase of another operation. -/
  | stay (r : Request) : FgStep s r s
  /-- The return that a step before has found due (R142). -/
  | returnNow (r : Request) (hr : s.returning = true)
      (hph : s.fgph ∈ [.xCheck, .cLineHead, .cPairHeadFA]) : FgStep s r s.returnNow
  -- INIT and HALT
  | init (p : Byte) (hph : s.fgph.idle = true) (hi : s.initd = false) :
      FgStep s (.init p) (s.cmdCfgEn p).setInitd.ret
  | initTwice (p : Byte) (hph : s.fgph.idle = true) (hi : s.initd = true) :
      FgStep s (.init p) (s.raise (.initTwice (.init p)))
  | halt (hph : s.fgph.idle = true) :
      FgStep s .halt { s with halted := true, fgph := .halted, req := none }
  -- EXECUTE
  | startExecute {bytes wl rl} (hph : s.fgph.idle = true) :
      FgStep s (.execute bytes wl rl) (s.start (.execute bytes wl rl) .xCheck)
  | admitted {bytes wl rl b0} (hph : s.fgph = .xCheck)
      (hr : s.returning = false) (hi : s.initd = true)
      (ha : admissible s.cfg bytes wl rl b0 = true) :
      FgStep s (.execute bytes wl rl) (s.goto (.xLoad 0))
  | reject {bytes wl rl b0} (hph : s.fgph = .xCheck) (hr : s.returning = false)
      (hi : s.initd = true) (ha : admissible s.cfg bytes wl rl b0 = false) :
      FgStep s (.execute bytes wl rl) ((s.setRes rejectedCode).setRbytes []).ret
  | rejectNext {wl rl b0} (hph : s.fgph = .xCheck) (hr : s.returning = false)
      (hi : s.initd = true) (ha : admissible s.cfg [] wl rl b0 = false) :
      FgStep s (.execute [] wl rl) ((s.setRes rejectedCode).setRbytes []).returnNext
  | checkOverrun {wl rl} (hph : s.fgph = .xCheck) (hr : s.returning = false)
      (hi : s.initd = true) (hb : s.byteAt .wb 0 = none) :
      FgStep s (.execute [] wl rl) (s.raise (overrun .wb 0 none))
  | notInitialized {bytes wl rl} (hph : s.fgph = .xCheck) (hr : s.returning = false)
      (hi : s.initd = false) :
      FgStep s (.execute bytes wl rl) (s.raise (.notInitialized (.execute bytes wl rl)))
  | loadByte {bytes wl rl i b} (hph : s.fgph = .xLoad i)
      (hi : i < bytes.length) (hb : s.byteAt .wb i = some b) :
      FgStep s (.execute bytes wl rl) ((s.putByte .wb i bytes[i]).goto (.xLoad (i + 1)))
  | loadOverrun {bytes wl rl i} (hph : s.fgph = .xLoad i) (hi : i < bytes.length)
      (hb : s.byteAt .wb i = none) :
      FgStep s (.execute bytes wl rl) (s.raise (overrun .wb i none))
  | loadWl {bytes wl rl i} (hph : s.fgph = .xLoad i) (hi : i = bytes.length) :
      FgStep s (.execute bytes wl rl) ((s.setWl wl).goto (.xLoad (i + 1)))
  | loadRl {bytes wl rl i} (hph : s.fgph = .xLoad i) (hi : bytes.length < i) :
      FgStep s (.execute bytes wl rl) ((s.setRl rl).goto .xArmTS)
  | armTs {bytes wl rl} (hph : s.fgph = .xArmTS) :
      FgStep s (.execute bytes wl rl) ((s.setTs .idle).goto .xArmWC)
  | armWc {bytes wl rl} (hph : s.fgph = .xArmWC) :
      FgStep s (.execute bytes wl rl) ((s.setWc 0).goto .xArmRC)
  | armRc {bytes wl rl} (hph : s.fgph = .xArmRC) :
      FgStep s (.execute bytes wl rl) ((s.setRc 0).goto .xArmSta)
  | armSta {bytes wl rl} (hph : s.fgph = .xArmSta) :
      FgStep s (.execute bytes wl rl) ((s.setK 0).cmdSetSta.goto .xWaitStart)
  | started {bytes wl rl} (hph : s.fgph = .xWaitStart) (hts : s.ts = .pending) :
      FgStep s (.execute bytes wl rl) (s.goto .xWaitTerm)
  | polled {bytes wl rl} (hph : s.fgph = .xWaitStart)
      (hts : s.ts ≠ .pending) (hk : s.k + 1 < s.cfg.startTimeoutPolls) :
      FgStep s (.execute bytes wl rl) (s.setK (s.k + 1))
  | timedOut {bytes wl rl} (hph : s.fgph = .xWaitStart)
      (hts : s.ts ≠ .pending) (hk : s.cfg.startTimeoutPolls ≤ s.k + 1) :
      FgStep s (.execute bytes wl rl) ((s.setK (s.k + 1)).goto .xTimeout)
  | timeout {bytes wl rl} (hph : s.fgph = .xTimeout) :
      FgStep s (.execute bytes wl rl) ((s.cmdSetSto.setRes timeoutCode).setRbytes []).ret
  | ended {bytes wl rl} (hph : s.fgph = .xWaitTerm) (hts : s.ts.terminal = true) :
      FgStep s (.execute bytes wl rl) ((s.setRes s.ts.code).goto (.xCopy 0))
  | copy {bytes wl rl j b} (hph : s.fgph = .xCopy j)
      (hj : j < s.rl) (hb : s.byteAt .rb j = some b) :
      FgStep s (.execute bytes wl rl)
        ((s.setRbytes (s.rbytes.take j ++ [b])).goto (.xCopy (j + 1)))
  | copyOverrun {bytes wl rl j} (hph : s.fgph = .xCopy j) (hj : j < s.rl)
      (hb : s.byteAt .rb j = none) :
      FgStep s (.execute bytes wl rl) (s.raise (overrun .rb j none))
  | copied {bytes wl rl j} (hph : s.fgph = .xCopy j) (hj : s.rl ≤ j) :
      FgStep s (.execute bytes wl rl) (s.setRbytes (s.rbytes.take s.rl)).ret
  -- CAPTURE
  | startCapture (hph : s.fgph.idle = true) : FgStep s .capture (s.start .capture .cInit)
  | clearPix (hph : s.fgph = .cInit) : FgStep s .capture ((s.setPix 0).goto .cWaitFrameEnd)
  /-- A poll that moves FG on to another phase of CAPTURE. -/
  | follow {ph} (hph : s.fgph.inCapture = true)
      (hr : s.fgph ∈ [.cLineHead, .cPairHeadFA] → s.returning = false)
      (hph' : ph.inCapture = true) :
      FgStep s .capture (s.goto ph)
  /-- A head that finds the frame ended (R174, R176). -/
  | frameEnded (hph : s.fgph ∈ [.cLineHead, .cPairHeadFA]) (hr : s.returning = false)
      (hfa : s.fa = false) : FgStep s .capture s.returnNext
  | storeA {v b ph} (hph : s.fgph = .cSampleA (.store v))
      (hb : s.byteAt .a s.pix = some b) (hph' : ph.inCapture = true) :
      FgStep s .capture ((s.putByte .a s.pix v).goto ph)
  | storeB {v b ph} (hph : s.fgph = .cSampleB (.store v))
      (hb : s.byteAt .b s.pix = some b) (hph' : ph.inCapture = true) :
      FgStep s .capture (((s.putByte .b s.pix v).setPix (s.pix + 1)).goto ph)
  | overrunA {v} (hph : s.fgph = .cSampleA (.store v)) (hb : s.byteAt .a s.pix = none) :
      FgStep s .capture (s.raise (overrun .a s.pix none))
  | overrunB {v} (hph : s.fgph = .cSampleB (.store v)) (hb : s.byteAt .b s.pix = none) :
      FgStep s .capture (s.raise (overrun .b s.pix none))

theorem FgStep.of_init {p : Byte} (h : execInit p s = .next t) : FgStep s (.init p) t := by
  unfold execInit at h
  split at h
  next hph =>
    split at h
    next hi => cases h; exact .initTwice p hph hi
    next hi => cases h; exact .init p hph (by simpa using hi)
  next => cases h; exact .stay _

theorem FgStep.of_halt (h : execHalt s = .next t) : FgStep s .halt t := by
  unfold execHalt at h
  split at h
  next hph => cases h; exact .halt hph
  next => cases h; exact .stay _

section Execute
variable {bytes : List Byte} {wl rl : Nat}

theorem FgStep.of_xCheck (hph : s.fgph = .xCheck) (hr : s.returning = false)
    (h : execXCheck bytes wl rl s = .next t) : FgStep s (.execute bytes wl rl) t := by
  unfold execXCheck at h
  split at h
  next hi =>
    split at h
    next b0 _ =>
      obtain ⟨ha, h⟩ | ⟨ha, h⟩ := execXVerdict_cases h
      · cases h; exact .admitted hph hr hi ha
      · cases h; exact .reject hph hr hi ha
    next =>
      obtain ⟨b0, -, h⟩ | ⟨hb, h⟩ := State.load_cases h
      · obtain ⟨ha, h⟩ | ⟨ha, h⟩ := execXVerdict_cases h
        · cases h; exact .admitted hph hr hi ha
        · cases h; exact .rejectNext hph hr hi ha
      · cases h; exact .checkOverrun hph hr hi hb
  next hi => cases h; exact .notInitialized hph hr (by simpa using hi)

theorem FgStep.of_xLoad {i : Nat} (hph : s.fgph = .xLoad i)
    (h : execXLoad bytes wl rl i s = .next t) : FgStep s (.execute bytes wl rl) t := by
  unfold execXLoad at h
  split at h
  next hi =>
    obtain ⟨b, hb, h⟩ | ⟨hb, h⟩ := State.store_cases h
    · cases h; exact .loadByte hph hi hb
    · cases h; exact .loadOverrun hph hi hb
  next hi =>
    split at h
    next hi' => cases h; exact .loadWl hph hi'
    next hi' => cases h; exact .loadRl hph (by omega)

theorem FgStep.of_xWaitStart (hph : s.fgph = .xWaitStart) (h : execXWaitStart s = .next t) :
    FgStep s (.execute bytes wl rl) t := by
  unfold execXWaitStart at h
  split at h
  next hts => cases h; exact .started hph hts
  next hts =>
    by_cases hk : s.cfg.startTimeoutPolls ≤ s.k + 1
    · simp [hk] at h; subst h; exact .timedOut hph hts hk
    · simp [hk] at h; subst h; exact .polled hph hts (by omega)

theorem FgStep.of_xWaitTerm (hph : s.fgph = .xWaitTerm) (h : execXWaitTerm s = .next t) :
    FgStep s (.execute bytes wl rl) t := by
  unfold execXWaitTerm at h
  split at h
  next hts => cases h; exact .ended hph hts
  next => cases h; exact .stay _

theorem FgStep.of_xCopy {j : Nat} (hph : s.fgph = .xCopy j) (h : execXCopy j s = .next t) :
    FgStep s (.execute bytes wl rl) t := by
  unfold execXCopy at h
  split at h
  next hj =>
    obtain ⟨b, hb, h⟩ | ⟨hb, h⟩ := State.load_cases h
    · cases h; exact .copy hph hj hb
    · cases h; exact .copyOverrun hph hj hb
  next hj => cases h; exact .copied hph (by omega)

theorem FgStep.of_execute (h : execExecute bytes wl rl s = .next t) :
    FgStep s (.execute bytes wl rl) t := by
  unfold execExecute at h
  split at h
  case h_1 hph | h_2 hph => cases h; exact .startExecute (by rw [hph]; rfl)
  case h_3 hph =>
    split at h
    next hr => cases h; exact .returnNow _ hr (by simp [hph])
    next hr => exact .of_xCheck hph (by simpa using hr) h
  case h_4 hph => exact .of_xLoad hph h
  case h_5 hph => cases h; exact .armTs hph
  case h_6 hph => cases h; exact .armWc hph
  case h_7 hph => cases h; exact .armRc hph
  case h_8 hph => cases h; exact .armSta hph
  case h_9 hph => exact .of_xWaitStart hph h
  case h_10 hph => cases h; exact .timeout hph
  case h_11 hph => exact .of_xWaitTerm hph h
  case h_12 hph => exact .of_xCopy hph h
  all_goals cases h; exact .stay _

end Execute

section Capture

/-- A sub-step of `sample()` (R177) waits, or moves FG on, or is the store step. -/
theorem sampleStep_cases {sub : Sub} {at_ : Sub → Phase} {after : Phase}
    {put : Byte → Phase → Out} {o : Out} (h : sampleStep sub at_ after put s = o) :
    o = .next s
    ∨ (∃ ph, (ph = after ∨ ∃ sub', ph = at_ sub') ∧ o = .next (s.goto ph))
    ∨ (∃ v ph, sub = .store v ∧ (ph = after ∨ ∃ sub', ph = at_ sub') ∧ put v ph = o) := by
  unfold sampleStep at h
  split at h
  case h_1 =>
    split at h
    · exact .inl h.symm
    · exact .inr (.inl ⟨_, .inr ⟨_, rfl⟩, h.symm⟩)
  case h_2 | h_5 =>
    split at h
    · exact .inr (.inl ⟨_, .inr ⟨_, rfl⟩, h.symm⟩)
    · exact .inl h.symm
  case h_3 | h_6 => exact .inr (.inl ⟨_, .inr ⟨_, rfl⟩, h.symm⟩)
  case h_4 => exact .inr (.inr ⟨_, _, rfl, .inl rfl, h⟩)
  case h_7 => exact .inr (.inr ⟨_, _, rfl, .inr ⟨_, rfl⟩, h⟩)
  case h_8 =>
    split at h
    · exact .inl h.symm
    · exact .inr (.inl ⟨_, .inl rfl, h.symm⟩)

theorem FgStep.of_cSampleA {sub : Sub} (hph : s.fgph = .cSampleA sub)
    (h : execCSampleA sub s = .next t) : FgStep s .capture t := by
  have inCap {ph : Phase} (hp : ph = .cSampleB (Sub.first s.cfg.pollOrder) ∨
      ∃ sub', ph = .cSampleA sub') : ph.inCapture = true := by
    obtain rfl | ⟨_, rfl⟩ := hp <;> rfl
  obtain h | ⟨ph, hp, h⟩ | ⟨v, ph, rfl, hp, h⟩ := sampleStep_cases h
  · cases h; exact .stay _
  · cases h; exact .follow (by rw [hph]; rfl) (by simp [hph]) (inCap hp)
  · obtain ⟨b, hb, h⟩ | ⟨hb, h⟩ := State.store_cases h
    · cases h; exact .storeA hph hb (inCap hp)
    · cases h; exact .overrunA hph hb

theorem FgStep.of_cSampleB {sub : Sub} (hph : s.fgph = .cSampleB sub)
    (h : execCSampleB sub s = .next t) : FgStep s .capture t := by
  have inCap {ph : Phase} (hp : ph = .cPairHeadLA ∨ ∃ sub', ph = .cSampleB sub') :
      ph.inCapture = true := by
    obtain rfl | ⟨_, rfl⟩ := hp <;> rfl
  obtain h | ⟨ph, hp, h⟩ | ⟨v, ph, rfl, hp, h⟩ := sampleStep_cases h
  · cases h; exact .stay _
  · cases h; exact .follow (by rw [hph]; rfl) (by simp [hph]) (inCap hp)
  · obtain ⟨b, hb, h⟩ | ⟨hb, h⟩ := State.store_cases h
    · cases h; exact .storeB hph hb (inCap hp)
    · cases h; exact .overrunB hph hb

/-- A head (R174, R176): the return where it is due, else the poll of `FA`. -/
theorem FgStep.of_head {ph : Phase} (hs : s.fgph ∈ [.cLineHead, .cPairHeadFA])
    (hph : ph.inCapture = true)
    (h : (if s.returning then .next s.returnNow
      else if s.fa then .next (s.goto ph) else .next s.returnNext : Out) = .next t) :
    FgStep s .capture t := by
  have hcap : s.fgph.inCapture = true := by
    obtain h | h : s.fgph = .cLineHead ∨ s.fgph = .cPairHeadFA := by simpa using hs
    all_goals rw [h]; rfl
  split at h
  next hr => cases h; exact .returnNow _ hr (List.mem_cons_of_mem _ hs)
  next hr =>
    have hr : s.returning = false := by simpa using hr
    split at h
    next => cases h; exact .follow hcap (fun _ => hr) hph
    next hfa => cases h; exact .frameEnded hs hr (by simpa using hfa)

theorem FgStep.of_capture (h : execCapture s = .next t) : FgStep s .capture t := by
  unfold execCapture at h
  split at h
  case h_1 hph | h_2 hph => cases h; exact .startCapture (by rw [hph]; rfl)
  case h_3 hph => cases h; exact .clearPix hph
  case h_4 hph | h_12 hph =>
    split at h
    · cases h; exact .stay _
    · cases h; exact .follow (by rw [hph]; rfl) (by simp [hph]) rfl
  case h_5 hph =>
    split at h
    · cases h; exact .follow (by rw [hph]; rfl) (by simp [hph]) rfl
    · cases h; exact .stay _
  case h_6 hph | h_9 hph => exact .of_head (by simp [hph]) rfl h
  case h_7 hph | h_8 hph =>
    split at h <;> (cases h; exact .follow (by rw [hph]; rfl) (by simp [hph]) rfl)
  case h_10 hph => exact .of_cSampleA hph h
  case h_11 hph => exact .of_cSampleB hph h
  all_goals cases h; exact .stay _

end Capture

/-- A next state of a foreground operation is one of those listed. -/
theorem FgStep.of_exec {r : Request} (h : exec r.instr s = .next t) : FgStep s r t := by
  cases r with
  | init p => exact .of_init h
  | execute bytes wl rl => exact .of_execute h
  | capture => exact .of_capture h
  | halt => exact .of_halt h

end Sys2Proof.Machine

/-! ## What each agent can do -/

namespace Sys2Proof.Machine

variable {s t : State}

/-- The status decoder gives arms only (R88). -/
theorem decodeStatus_isArm (m : StatusMap) (c : Byte) : (decodeStatus m c).isArm = true := by
  simp only [decodeStatus, apply_ite Instr.isArm]
  simp only [Instr.isArm, ite_self]

/-- The command decoder gives commands only (R92). -/
theorem decodeCmd_isCommand {w : CmdWord} {i : Instr} (h : decodeCmd w = .ok i) :
    i.isCommand = true := by
  have bare {i' : Instr} (hc : i'.isCommand = true) (h : bareCommand w i' = .ok i) :
      i.isCommand = true := by
    unfold bareCommand at h
    split at h
    · cases h; exact hc
    · cases h
  unfold decodeCmd at h
  split at h
  · cases h
  · split at h
    case h_7 | h_10 => cases h; rfl
    case h_11 => cases h
    all_goals exact bare rfl h

/-- The request of an operation asks for that operation. -/
theorem Request.instr_of_ofInstr {i : Instr} {r : Request} (h : Request.ofInstr i = some r) :
    r.instr = i := by
  cases i <;> cases h <;> rfl

/-- An operation is an arm, a command or a foreground operation (R3). -/
theorem instr_kinds (i : Instr) :
    i.isArm = true ∨ i.isCommand = true ∨ ∃ r : Request, r.instr = i := by
  by_cases ha : i.isArm = true
  · exact .inl ha
  by_cases hf : i.isForeground = true
  · obtain ⟨r, hr⟩ := Option.isSome_iff_exists.1 hf
    exact .inr (.inr ⟨r, Request.instr_of_ofInstr hr⟩)
  · exact .inr (.inl (by simp [Instr.isCommand, ha, hf]))

/-- A host request is accepted, where FG accepts one, or changes nothing (R200). -/
theorem hostRequest_cases (code : BitVec 4) (args : FgArgs) (s : State) :
    hostRequest code args s = s
    ∨ ∃ r, s.accepting = true ∧ hostRequest code args s = s.accept r := by
  unfold hostRequest
  split
  · exact .inl rfl
  · split
    · exact .inl rfl
    · split
      next h => exact .inr ⟨_, h, rfl⟩
      next => exact .inl rfl

/-- FG accepts a request in an idle phase, with none waiting and no fault. -/
theorem State.accepting_iff :
    s.accepting = true ↔ s.fgph.idle = true ∧ s.req = none ∧ s.fault = none := by
  simp [State.accepting, and_assoc]

/-- One step of FG: none, or a step of the operation it runs. -/
theorem FgStep.of_fgStep (h : fgStep s = .next t) :
    t = s ∨ ∃ r, s.req = some r ∧ s.fault = none ∧ FgStep s r t := by
  obtain ⟨r, hr, hf, h⟩ | h := fgStep_cases h
  · exact .inr ⟨r, hr, hf, .of_exec h⟩
  · cases h; exact .inl rfl

/-- One invocation of the handler: none, or an arm after `RD_STS`. -/
theorem ArmStep.of_isrStep (h : isrStep s = .next t) :
    t = s ∨ s.fault = none ∧ ∃ i, ArmStep s.cmdRdSts i t := by
  obtain ⟨he, h⟩ | ⟨-, h⟩ := isrStep_cases h
  · have hf : s.fault = none := by simp_all [State.isrEnabled]
    exact .inr ⟨hf, _, .of_exec (decodeStatus_isArm _ _) h⟩
  · cases h; exact .inl rfl

/-- What holds of `s` and of the next state of each agent's step holds after every move. -/
theorem perform_keeps {P : State → Prop} {m : Move} (hs : P s)
    (accept : ∀ r, s.accepting = true → P (s.accept r))
    (fg : ∀ r, s.req = some r → FgStep s r t → P t)
    (isr : ∀ i, ArmStep s.cmdRdSts i t → P t)
    (ctrl : ∀ c, P (ctrlStep c s))
    (sensor : ∀ fa la pclk d, P (sensorStep fa la pclk d s))
    (h : perform m s = .next t) : P t := by
  cases m with
  | op code args =>
    cases h
    obtain h | ⟨r, hacc, h⟩ := hostRequest_cases code args s
    · rw [h]; exact hs
    · rw [h]; exact accept r hacc
  | fg =>
    obtain rfl | ⟨r, hreq, -, h⟩ := FgStep.of_fgStep h
    · exact hs
    · exact fg r hreq h
  | isr =>
    obtain rfl | ⟨-, i, h⟩ := ArmStep.of_isrStep h
    · exact hs
    · exact isr i h
  | ctrl c => cases h; exact ctrl c
  | sensor => cases h; exact sensor _ _ _ _

/-! ## Frames -/

/-- Two states are one when each of their fields is. -/
theorem State.eq_iff_fields {a b : State} : a = b ↔
    a.cfg = b.cfg ∧ a.ts = b.ts ∧ a.wl = b.wl ∧ a.rl = b.rl ∧ a.wc = b.wc ∧ a.rc = b.rc
    ∧ a.mem = b.mem ∧ a.k = b.k ∧ a.res = b.res ∧ a.rbytes = b.rbytes ∧ a.initd = b.initd
    ∧ a.halted = b.halted ∧ a.fgph = b.fgph ∧ a.req = b.req ∧ a.returning = b.returning
    ∧ a.pix = b.pix ∧ a.en = b.en ∧ a.ien = b.ien ∧ a.si = b.si ∧ a.sts = b.sts
    ∧ a.sta = b.sta ∧ a.sto = b.sto ∧ a.aa = b.aa ∧ a.dat = b.dat ∧ a.presc = b.presc
    ∧ a.fa = b.fa ∧ a.la = b.la ∧ a.pclk = b.pclk ∧ a.d = b.d ∧ a.fault = b.fault
    ∧ a.buslog = b.buslog ∧ a.cph = b.cph ∧ a.last = b.last ∧ a.cmdLog = b.cmdLog
    ∧ a.cmdPort = b.cmdPort ∧ a.script = b.script ∧ a.tick = b.tick := by
  cases a; cases b; simp only [State.mk.injEq]

/-- The registers an arm can write (R126, R133). -/
theorem ArmStep.frame {i : Instr} (h : ArmStep s i t) :
    t = { s with
      ts := t.ts, wc := t.wc, rc := t.rc, mem := t.mem, si := t.si, sta := t.sta, sto := t.sto
      aa := t.aa, dat := t.dat, fault := t.fault, cmdLog := t.cmdLog } := by
  rw [State.eq_iff_fields]
  cases h <;> simp

/-- The registers a command can write (R154 to R163). -/
theorem command_frame {i : Instr} (hi : i.isCommand = true) (h : exec i s = .next t) :
    t = { s with
      en := t.en, ien := t.ien, si := t.si, sta := t.sta, sto := t.sto, aa := t.aa
      dat := t.dat, presc := t.presc, cmdLog := t.cmdLog } := by
  cases i with
  | clrInt | setSta | clrSta | setSto | setAa | clrAa | wrDat | rdDat | rdSts | cfgEn =>
    cases h; rfl
  | _ => cases hi

/-- The registers a step of FG can write. -/
theorem FgStep.frame {r : Request} (h : FgStep s r t) :
    t = { s with
      ts := t.ts, wl := t.wl, rl := t.rl, wc := t.wc, rc := t.rc, mem := t.mem, k := t.k
      res := t.res, rbytes := t.rbytes, initd := t.initd, halted := t.halted, fgph := t.fgph
      req := t.req, returning := t.returning, pix := t.pix, en := t.en, ien := t.ien
      sta := t.sta, sto := t.sto, presc := t.presc, fault := t.fault, cmdLog := t.cmdLog } := by
  rw [State.eq_iff_fields]
  cases h <;> simp

/-- The registers the acceptance of a request writes (R141). -/
theorem State.accept_frame (s : State) (r : Request) :
    s.accept r = { s with fgph := (s.accept r).fgph, req := (s.accept r).req } := by
  cases r <;> rfl

/-- The registers a host request can write. -/
theorem hostRequest_frame (code : BitVec 4) (args : FgArgs) (s : State) :
    hostRequest code args s = { s with
      fgph := (hostRequest code args s).fgph, req := (hostRequest code args s).req } := by
  obtain h | ⟨r, -, h⟩ := hostRequest_cases code args s
  · rw [h]
  · rw [h]; exact s.accept_frame r

/-- The registers a step of CTRL can write (R204). -/
theorem ctrlStep_frame (c : CtrlMove) (s : State) :
    ctrlStep c s = { s with
      sts := (ctrlStep c s).sts, dat := (ctrlStep c s).dat, si := (ctrlStep c s).si
      sto := (ctrlStep c s).sto, buslog := (ctrlStep c s).buslog, last := (ctrlStep c s).last
      cph := (ctrlStep c s).cph } := by
  unfold ctrlStep
  split
  · cases c <;> rfl
  · rfl

/-- CTRL touches `SI` by a report only, which it makes only with `EN = 1` (R203, R204). -/
theorem ctrlStep_si (c : CtrlMove) (s : State) :
    (ctrlStep c s).si = s.si
    ∨ s.en = true ∧ (ctrlStep c s).si = true ∧ ∃ sts dat entry, c = .report sts dat entry := by
  unfold ctrlStep
  split
  next hm =>
    cases c with
    | report sts dat entry =>
      have he : s.en = true := by simp_all [State.ctrlMay, State.ctrlFree]
      exact .inr ⟨he, rfl, sts, dat, entry, rfl⟩
    | stop => exact .inl rfl
  next => exact .inl rfl

/-! ### `SI`, `TS`, the enables and the flags -/

/-- An arm leaves `SI` or clears it (R113). -/
theorem ArmStep.si {i : Instr} (h : ArmStep s i t) : t.si = s.si ∨ t.si = false := by
  cases h with
  | startSentOverrun | repstartSentOverrun | slawAckOverrun | dataTxAckOverrun
  | dataRxAckUnread | dataRxAckOverrun | dataRxNackOverrun => left; simp
  | _ => right; simp

/-- An arm leaves `TS` or writes a value other than `Idle` (R133). -/
theorem ArmStep.ts {i : Instr} (h : ArmStep s i t) : t.ts = s.ts ∨ t.ts ≠ .idle := by
  cases h with
  | startSent | slawNack | dataTxAckEnds | dataTxNack | arbLost | slarNack | dataRxNack =>
    right; simp
  | _ => left; simp

/-- FG writes `TS` in the arm step only, where it writes `Idle` (R24). -/
theorem FgStep.ts {r : Request} (h : FgStep s r t) :
    t.ts = s.ts ∨ s.fgph = .xArmTS ∧ t.ts = .idle := by
  cases h with
  | armTs hph => exact .inr ⟨hph, by simp⟩
  | _ => left; simp

/-- `INITD`, `HALTED`, `EN` and `IEN` are set in `t` where they are in `s` (R36, R41). -/
def FlagsKept (s t : State) : Prop :=
  (s.initd = true → t.initd = true) ∧ (s.halted = true → t.halted = true)
    ∧ (s.en = true → t.en = true) ∧ (s.ien = true → t.ien = true)

theorem FlagsKept.refl (s : State) : FlagsKept s s := ⟨id, id, id, id⟩

/-- INIT sets three of them and HALT one; no other step of FG writes one. -/
theorem FgStep.flagsKept {r : Request} (h : FgStep s r t) : FlagsKept s t := by
  cases h <;> simp [FlagsKept]

theorem ArmStep.flagsKept {i : Instr} (h : ArmStep s i t) : FlagsKept s t := by
  rw [h.frame]; exact .refl s

/-- The signals, the log and the parameters that are no operation's to write (R50, R53, R91). -/
def SameEnvironment (s t : State) : Prop :=
  t.sts = s.sts ∧ t.fa = s.fa ∧ t.la = s.la ∧ t.pclk = s.pclk ∧ t.d = s.d
    ∧ t.buslog = s.buslog ∧ t.cfg = s.cfg

theorem SameEnvironment.refl (s : State) : SameEnvironment s s :=
  ⟨rfl, rfl, rfl, rfl, rfl, rfl, rfl⟩

end Sys2Proof.Machine

/-! ## The environment, the flags, `TS`, `SI` and the sticky fault (O47 to O50, O52) -/

namespace Sys2Proof

open Sys2Proof.Machine

/-- Settles O47: none of the frames of the three kinds of operation has these registers. -/
theorem blockNeverWritesTheEnvironment : Obligations.BlockNeverWritesTheEnvironment := by
  intro i s t h
  obtain hi | hi | ⟨r, rfl⟩ := instr_kinds i
  · rw [(ArmStep.of_exec hi h).frame]; exact SameEnvironment.refl s
  · rw [command_frame hi h]; exact SameEnvironment.refl s
  · rw [(FgStep.of_exec h).frame]; exact SameEnvironment.refl s

/-- Settles O48: INIT, HALT and `CFG_EN` set them, and no agent's step clears one. -/
theorem enablesAndFlagsAreNeverCleared : Obligations.EnablesAndFlagsAreNeverCleared := by
  intro m s t h
  refine perform_keeps (P := FlagsKept s) (.refl s) (fun r _ => ?_) (fun r _ h => h.flagsKept)
    (fun i h => h.flagsKept) (fun c => ?_) (fun _ _ _ _ => .refl s) h
  · rw [State.accept_frame]; exact .refl s
  · rw [ctrlStep_frame]; exact .refl s

/-- Settles O49: host, CTRL and SENSOR leave `TS` alone; FG and the handler write it as stated. -/
theorem onlyTheArmStepAndTheHandlerWriteTS : Obligations.OnlyTheArmStepAndTheHandlerWriteTS := by
  intro m s t h hne
  cases m with
  | op code args => cases h; rw [hostRequest_frame] at hne; exact absurd rfl hne
  | fg =>
    obtain rfl | ⟨r, -, -, h⟩ := FgStep.of_fgStep h
    · exact absurd rfl hne
    · obtain hts | ⟨hph, hts⟩ := h.ts
      · exact absurd hts hne
      · exact .inl ⟨rfl, hph, hts⟩
  | isr =>
    obtain rfl | ⟨-, i, h⟩ := ArmStep.of_isrStep h
    · exact absurd rfl hne
    · exact .inr ⟨rfl, h.ts.resolve_left hne⟩
  | ctrl c => cases h; rw [ctrlStep_frame] at hne; exact absurd rfl hne
  | sensor => cases h; exact absurd rfl hne

/-- Settles O50: of the steps that touch `SI`, CTRL's report sets it and an arm clears it. -/
theorem onlyControllerSetsAndHandlerClearsSI :
    Obligations.OnlyControllerSetsAndHandlerClearsSI := by
  intro m s t h
  by_cases hne : t.si = s.si
  · rw [hne]; cases s.si <;> simp
  cases m with
  | op code args => cases h; rw [hostRequest_frame] at hne; exact absurd rfl hne
  | fg =>
    obtain rfl | ⟨r, -, -, h⟩ := FgStep.of_fgStep h
    · exact absurd rfl hne
    · rw [h.frame] at hne; exact absurd rfl hne
  | isr =>
    obtain rfl | ⟨-, i, h⟩ := ArmStep.of_isrStep h
    · exact absurd rfl hne
    · have hsi : t.si = false := h.si.resolve_left hne
      exact ⟨fun _ h1 => (by rw [hsi] at h1; cases h1), fun _ _ => rfl⟩
  | ctrl c =>
    cases h
    obtain ⟨-, hsi, hc⟩ := (ctrlStep_si c s).resolve_left hne
    obtain ⟨sts, dat, entry, rfl⟩ := hc
    exact ⟨fun _ _ => ⟨sts, dat, entry, rfl⟩, fun _ h0 => (by rw [hsi] at h0; cases h0)⟩
  | sensor => cases h; exact absurd rfl hne

/-- After a fault the block takes no step: FG, the handler and the acceptance of requests stop, and
only CTRL and SENSOR go on (R198). -/
theorem perform_of_fault {m : Move} {s t : State} (hf : s.fault ≠ none)
    (h : perform m s = .next t) :
    t = s ∨ (∃ c, m = .ctrl c ∧ t = ctrlStep c s)
    ∨ ∃ fa la pclk d, m = .sensor fa la pclk d ∧ t = sensorStep fa la pclk d s := by
  cases m with
  | op code args =>
    cases h
    obtain h | ⟨r, ha, -⟩ := hostRequest_cases code args s
    · exact .inl h
    · exact absurd (State.accepting_iff.1 ha).2.2 hf
  | fg =>
    obtain h | ⟨r, -, hf', -⟩ := FgStep.of_fgStep h
    · exact .inl h
    · exact absurd hf' hf
  | isr =>
    obtain h | ⟨hf', -⟩ := ArmStep.of_isrStep h
    · exact .inl h
    · exact absurd hf' hf
  | ctrl c => cases h; exact .inr (.inl ⟨c, rfl, rfl⟩)
  | sensor fa la pclk d => cases h; exact .inr (.inr ⟨fa, la, pclk, d, rfl, rfl⟩)

/-- Settles O52: after the move is taken off, what is left are CTRL's and SENSOR's frames. -/
theorem faultIsStickyAndStopsTheBlock : Obligations.FaultIsStickyAndStopsTheBlock := by
  intro s t hport hf h
  rw [step_of_port hport] at h
  obtain ⟨sc, n, ha⟩ := afterMove_eq s
  have hf' : (afterMove s).fault ≠ none := by rw [ha]; exact hf
  obtain ht | ⟨c, hm, ht⟩ | ⟨fa, la, pclk, d, hm, ht⟩ := perform_of_fault hf' h
  · exact ⟨by rw [ht, ha], fun _ => ht⟩
  · refine ⟨?_, by simp [hm]⟩
    rw [ht, ha, ctrlStep_frame]
  · refine ⟨?_, by simp [hm]⟩
    rw [ht, ha]; rfl

end Sys2Proof

/-! ## The control invariant (O58)

`ControlOk` speaks of nine registers. The rules say which updates of them keep it; every other
update is left to `ControlOk.congr`. -/

namespace Sys2Proof.Machine

variable {s t : State}

/-- The registers that `ControlOk` reads. -/
def State.control (s : State) :
    Option CmdWord × Phase × Option Request × Bool × Bool × Bool × Bool × Bool × Bool :=
  (s.cmdPort, s.fgph, s.req, s.initd, s.halted, s.returning, s.en, s.ien, s.si)

theorem State.ControlOk.congr (hs : s.ControlOk) (h : t.control = s.control) : t.ControlOk := by
  simp only [State.control, Prod.mk.injEq] at h
  obtain ⟨hport, hph, hreq, hi, hh, hr, hen, hien, hsi⟩ := h
  constructor
  · rw [hport]; exact hs.port
  · rw [hph, hreq]; exact hs.fits
  · rw [hph, hi]; exact hs.off
  · rw [hph, hi]; exact hs.ready
  · rw [hph, hi]; exact hs.engine
  · rw [hen, hi]; exact hs.en
  · rw [hien, hi]; exact hs.ien
  · rw [hsi, hen]; exact hs.pending
  · rw [hh, hph]; exact hs.halted
  · rw [hr, hph]; exact hs.returns

/-! ### What the invariant says of a phase -/

/-- FG runs an operation in no phase but its own, so not in `Halted`. -/
theorem State.ControlOk.ne_halted {r : Request} (hs : s.ControlOk) (hreq : s.req = some r) :
    s.fgph ≠ .halted := by
  intro hph
  have hfits := hs.fits
  rw [hph, hreq] at hfits
  cases r <;> cases hfits

theorem Phase.idle_of_inEngine {ph : Phase} (h : ph.inEngine = true) : ph.idle = false := by
  cases ph <;> simp_all [Phase.inEngine, Phase.idle]

theorem Phase.inEngine_of_idle {ph : Phase} (h : ph.idle = true) : ph.inEngine = false := by
  cases ph <;> simp_all [Phase.inEngine, Phase.idle]

theorem Phase.idle_of_inCapture {ph : Phase} (h : ph.inCapture = true) : ph.idle = false := by
  cases ph <;> simp_all [Phase.inCapture, Phase.idle]

theorem Phase.inEngine_of_inCapture {ph : Phase} (h : ph.inCapture = true) :
    ph.inEngine = false := by
  cases ph <;> simp_all [Phase.inCapture, Phase.inEngine]

theorem Phase.ne_halted_of_idle {ph : Phase} (h : ph.idle = true) : ph ≠ .halted := by
  rintro rfl; cases h

theorem State.ControlOk.not_halted (hs : s.ControlOk) (hph : s.fgph ≠ .halted) :
    s.halted = false := by
  simpa using mt hs.halted.1 hph

/-- No return is due outside the check and the heads. -/
theorem State.ControlOk.not_returning (hs : s.ControlOk)
    (hph : s.fgph ∉ [.xCheck, .cLineHead, .cPairHeadFA]) : s.returning = false := by
  simpa using mt hs.returns hph

theorem State.ControlOk.not_returning_of_idle (hs : s.ControlOk) (h : s.fgph.idle = true) :
    s.returning = false := by
  refine hs.not_returning fun hmem => ?_
  simp only [List.mem_cons, List.not_mem_nil, or_false] at hmem
  obtain hph | hph | hph := hmem <;> (rw [hph] at h; cases h)

theorem State.idlePhase_idle (s : State) : s.idlePhase.idle = true := by
  unfold State.idlePhase; split <;> rfl

/-! ### The updates that keep it -/

/-- FG goes to a phase of its operation, past the check in EXECUTE, with no return due. -/
theorem State.ControlOk.goto {ph : Phase} (hs : s.ControlOk) (hph : s.fgph ≠ .halted)
    (hr : s.returning = false) (hfits : phaseFits ph s.req = true) (hidle : ph.idle = false)
    (hne : ph ≠ .halted) (hi : ph.inEngine = true → ph ≠ .xCheck → s.initd = true) :
    (s.goto ph).ControlOk where
  port    := hs.port
  fits    := hfits
  off     := by rintro rfl; cases hidle
  ready   := by rintro rfl; cases hidle
  engine  := hi
  en      := hs.en
  ien     := hs.ien
  pending := hs.pending
  halted  := by simp [hs.not_halted hph, hne]
  returns := by simp [hr]

/-- FG goes to a phase of EXECUTE past its check. -/
theorem State.ControlOk.goto_engine {ph : Phase} {bytes : List Byte} {wl rl : Nat}
    (hs : s.ControlOk) (hreq : s.req = some (.execute bytes wl rl)) (hi : s.initd = true)
    (hr : s.returning = false) (hph : ph.inEngine = true) : (s.goto ph).ControlOk := by
  refine hs.goto (hs.ne_halted hreq) hr (by rw [hreq]; exact hph)
    (Phase.idle_of_inEngine hph) ?_ fun _ _ => hi
  rintro rfl; cases hph

/-- FG goes from a phase of EXECUTE past its check to another, beside an update of registers that
the invariant does not read. -/
theorem State.ControlOk.move_engine {ph : Phase} {bytes : List Byte} {wl rl : Nat}
    (hs : s.ControlOk) (hreq : s.req = some (.execute bytes wl rl)) (hph : s.fgph = ph)
    (hin : ph.inEngine = true) (hx : ph ≠ .xCheck) (hin' : t.fgph.inEngine = true)
    (hc : t.control = (s.goto t.fgph).control) : t.ControlOk := by
  subst hph
  refine (hs.goto_engine hreq (hs.engine hin hx) (hs.not_returning fun hmem => ?_) hin').congr hc
  simp only [List.mem_cons, List.not_mem_nil, or_false] at hmem
  obtain h | h | h := hmem
  · exact hx h
  all_goals rw [h] at hin; cases hin

/-- FG goes to a phase of CAPTURE. -/
theorem State.ControlOk.goto_capture {ph : Phase} (hs : s.ControlOk)
    (hreq : s.req = some .capture) (hr : s.returning = false) (hph : ph.inCapture = true) :
    (s.goto ph).ControlOk := by
  refine hs.goto (hs.ne_halted hreq) hr (by rw [hreq]; exact hph)
    (Phase.idle_of_inCapture hph) ?_ ?_
  · rintro rfl; cases hph
  · simp [Phase.inEngine_of_inCapture hph]

/-- The pending return goes to the idle phase of `INITD` (R142). -/
theorem State.ControlOk.returnNow (hs : s.ControlOk) (hph : s.fgph ≠ .halted) :
    s.returnNow.ControlOk where
  port    := hs.port
  fits    := by simp [phaseFits, s.idlePhase_idle]
  off     := by simp [State.idlePhase]
  ready   := by simp [State.idlePhase]
  engine  := by simp [Phase.inEngine_of_idle s.idlePhase_idle]
  en      := hs.en
  ien     := hs.ien
  pending := hs.pending
  halted  := by simp [hs.not_halted hph, Phase.ne_halted_of_idle s.idlePhase_idle]
  returns := nofun

theorem State.ControlOk.ret (hs : s.ControlOk) (hph : s.fgph ≠ .halted)
    (hr : s.returning = false) : s.ret.ControlOk :=
  (hs.returnNow hph).congr (by simp [State.control, hr])

/-- A check or a head finds the operation ended, and its return is due. -/
theorem State.ControlOk.returnNext (hs : s.ControlOk)
    (hph : s.fgph ∈ [.xCheck, .cLineHead, .cPairHeadFA]) : s.returnNext.ControlOk where
  port    := hs.port
  fits    := hs.fits
  off     := hs.off
  ready   := hs.ready
  engine  := hs.engine
  en      := hs.en
  ien     := hs.ien
  pending := hs.pending
  halted  := hs.halted
  returns := fun _ => hph

/-- FG takes up EXECUTE or CAPTURE at its first phase (R141). -/
theorem State.ControlOk.start {r : Request} {ph : Phase} (hs : s.ControlOk)
    (hidle : s.fgph.idle = true) (hfits : phaseFits ph (some r) = true)
    (hph : ph = .xCheck ∨ ph = .cInit) : (s.start r ph).ControlOk where
  port    := hs.port
  fits    := hfits
  off     := by obtain rfl | rfl := hph <;> nofun
  ready   := by obtain rfl | rfl := hph <;> nofun
  engine  := by obtain rfl | rfl := hph <;> simp [Phase.inEngine]
  en      := hs.en
  ien     := hs.ien
  pending := hs.pending
  halted  := by
    rw [State.start_halted, hs.not_halted (Phase.ne_halted_of_idle hidle)]
    obtain rfl | rfl := hph <;> simp
  returns := by simp [hs.not_returning_of_idle hidle]

/-- A request that waits in the idle phase for its one step (log 9). -/
theorem State.ControlOk.wait {r : Request} (hs : s.ControlOk)
    (hfits : phaseFits s.fgph (some r) = true) : ({ s with req := some r } : State).ControlOk where
  port    := hs.port
  fits    := hfits
  off     := hs.off
  ready   := hs.ready
  engine  := hs.engine
  en      := hs.en
  ien     := hs.ien
  pending := hs.pending
  halted  := hs.halted
  returns := hs.returns

/-- INIT brings up `INITD`, `EN` and `IEN` together and returns to `Ready` (R140). -/
theorem State.ControlOk.init (hs : s.ControlOk) (hidle : s.fgph.idle = true) (p : Byte) :
    (s.cmdCfgEn p).setInitd.ret.ControlOk where
  port    := hs.port
  fits    := by simp [phaseFits, State.idlePhase, Phase.idle]
  off     := by simp [State.idlePhase]
  ready   := fun _ => rfl
  engine  := fun _ _ => rfl
  en      := rfl
  ien     := rfl
  pending := fun _ => rfl
  halted  := by
    simp [State.idlePhase, hs.not_halted (Phase.ne_halted_of_idle hidle)]
  returns := by simp [hs.not_returning_of_idle hidle]

/-- HALT (R153). -/
theorem State.ControlOk.halt (hs : s.ControlOk) (hidle : s.fgph.idle = true) :
    ({ s with halted := true, fgph := .halted, req := none } : State).ControlOk where
  port    := hs.port
  fits    := rfl
  off     := nofun
  ready   := nofun
  engine  := nofun
  en      := hs.en
  ien     := hs.ien
  pending := hs.pending
  halted  := by simp
  returns := by simp [hs.not_returning_of_idle hidle]

/-! ### The agents keep it -/

theorem FgStep.controlOk {r : Request} (hs : s.ControlOk) (hreq : s.req = some r)
    (h : FgStep s r t) : t.ControlOk := by
  have hh := hs.ne_halted hreq
  cases h with
  | stay => exact hs
  | initTwice | checkOverrun | notInitialized | loadOverrun | copyOverrun | overrunA | overrunB =>
    exact hs.congr (by simp [State.control])
  | returnNow => exact hs.returnNow hh
  | init p hidle => exact hs.init hidle p
  | halt hidle => exact hs.halt hidle
  | startExecute hidle => exact hs.start hidle rfl (.inl rfl)
  | startCapture hidle => exact hs.start hidle rfl (.inr rfl)
  | admitted _ hr hi => exact hs.goto_engine hreq hi hr rfl
  | reject _ hr =>
    have hu : ((s.setRes rejectedCode).setRbytes []).ControlOk :=
      hs.congr (by simp [State.control])
    exact hu.ret (by simpa using hh) (by simpa using hr)
  | rejectNext hph =>
    exact (hs.returnNext (by simp [hph])).congr (by simp [State.control])
  | loadByte hph | loadWl hph | loadRl hph | armTs hph | armWc hph | armRc hph | armSta hph
  | started hph | timedOut hph | ended hph | copy hph =>
    exact hs.move_engine hreq hph rfl nofun rfl (by simp [State.control])
  | polled => exact hs.congr (by simp [State.control])
  | timeout hph =>
    have hu : ((s.cmdSetSto.setRes timeoutCode).setRbytes []).ControlOk :=
      hs.congr (by simp [State.control])
    exact hu.ret (by simpa using hh) (hu.not_returning (by simp [hph]))
  | copied hph =>
    have hu : (s.setRbytes (s.rbytes.take s.rl)).ControlOk := hs.congr (by simp [State.control])
    exact hu.ret hh (hu.not_returning (by simp [hph]))
  | clearPix hph =>
    have hu : (s.setPix 0).ControlOk := hs.congr (by simp [State.control])
    exact hu.goto_capture hreq (hu.not_returning (by simp [hph])) rfl
  | storeA hph _ hph' | storeB hph _ hph' =>
    have hr := hs.not_returning (by simp [hph])
    exact (hs.goto_capture hreq hr hph').congr (by simp [State.control])
  | follow hph hr hph' =>
    refine hs.goto_capture hreq ?_ hph'
    by_cases hhead : s.fgph ∈ [.cLineHead, .cPairHeadFA]
    · exact hr hhead
    · refine hs.not_returning fun hmem => ?_
      obtain hx | hx := List.mem_cons.1 hmem
      · rw [hx] at hph; cases hph
      · exact hhead hx
  | frameEnded hph => exact hs.returnNext (List.mem_cons_of_mem _ hph)

theorem ArmStep.controlOk {i : Instr} (hs : s.ControlOk) (h : ArmStep s i t) : t.ControlOk := by
  have hsi : t.si = true → s.en = true := by
    obtain hsi | hsi := h.si
    · rw [hsi]; exact hs.pending
    · simp [hsi]
  rw [h.frame]
  exact { hs with pending := hsi }

theorem State.ControlOk.accept (hs : s.ControlOk) (hacc : s.accepting = true) (r : Request) :
    (s.accept r).ControlOk := by
  obtain ⟨hidle, -, -⟩ := State.accepting_iff.1 hacc
  cases r with
  | init p => exact hs.wait hidle
  | execute bytes wl rl => exact hs.start hidle rfl (.inl rfl)
  | capture => exact hs.start hidle rfl (.inr rfl)
  | halt => exact hs.wait hidle

theorem State.ControlOk.ctrlStep (hs : s.ControlOk) (c : CtrlMove) :
    (ctrlStep c s).ControlOk := by
  have hsi : (Machine.ctrlStep c s).si = true → s.en = true := by
    obtain hsi | ⟨hen, -⟩ := ctrlStep_si c s
    · rw [hsi]; exact hs.pending
    · exact fun _ => hen
  rw [ctrlStep_frame]
  exact { hs with pending := hsi }

theorem State.ControlOk.perform {m : Move} (hs : s.ControlOk) (h : perform m s = .next t) :
    t.ControlOk :=
  perform_keeps hs (fun r hacc => hs.accept hacc r) (fun _ hreq h => h.controlOk hs hreq)
    (fun _ h => ArmStep.controlOk (s := s.cmdRdSts) (hs.congr rfl) h) hs.ctrlStep
    (fun _ _ _ _ => hs.congr rfl) h

end Sys2Proof.Machine

namespace Sys2Proof

open Sys2Proof.Machine

/-- Settles O58: with no word at the port a step is a move of an agent, and each keeps it. -/
theorem stepKeepsTheControlConsistent : Obligations.StepKeepsTheControlConsistent := by
  intro s t hs h
  rw [step_of_port hs.port] at h
  obtain ⟨sc, n, ha⟩ := afterMove_eq s
  exact State.ControlOk.perform (hs.congr (by rw [ha]; rfl)) h

end Sys2Proof

/-! ## The bounds (O59)

Again one rule for each update that a bound reads; the other updates go by `BoundsOk.congr`. -/

namespace Sys2Proof.Machine

variable {s t : State}

/-- The registers that `BoundsOk` reads. -/
def State.bounded (s : State) :
    Params × Nat × Nat × Nat × Nat × Nat × Phase × Nat × Option Request × Byte :=
  (s.cfg, s.wl, s.rl, s.wc, s.rc, s.pix, s.fgph, s.k, s.req, s.res)

theorem State.BoundsOk.congr (hs : s.BoundsOk) (h : t.bounded = s.bounded) : t.BoundsOk := by
  simp only [State.bounded, Prod.mk.injEq] at h
  obtain ⟨hcfg, hwl, hrl, hwc, hrc, hpix, hph, hk, hreq, hres⟩ := h
  constructor
  · rw [hcfg]; exact hs.polls
  · rw [hcfg, hwl]; exact hs.wl
  · rw [hcfg, hrl]; exact hs.rl
  · rw [hcfg, hwc]; exact hs.wc
  · rw [hcfg, hrc]; exact hs.rc
  · rw [hcfg, hpix]; exact hs.pix
  · rw [hcfg, hph, hk]; exact hs.k
  · rw [hcfg, hph, hreq]; exact hs.loaded
  · rw [hres]; exact hs.res

/-! ### The updates that keep it -/

theorem State.BoundsOk.setWl {n : Nat} (hs : s.BoundsOk) (h : n ≤ s.cfg.wbufSize) :
    (s.setWl n).BoundsOk := { hs with wl := h }

theorem State.BoundsOk.setRl {n : Nat} (hs : s.BoundsOk) (h : n ≤ s.cfg.rbufSize) :
    (s.setRl n).BoundsOk := { hs with rl := h }

theorem State.BoundsOk.setWc {n : Nat} (hs : s.BoundsOk) (h : n ≤ s.cfg.wbufSize) :
    (s.setWc n).BoundsOk := { hs with wc := h }

theorem State.BoundsOk.setRc {n : Nat} (hs : s.BoundsOk) (h : n ≤ s.cfg.rbufSize) :
    (s.setRc n).BoundsOk := { hs with rc := h }

theorem State.BoundsOk.setPix {n : Nat} (hs : s.BoundsOk) (h : n ≤ s.cfg.planeSize) :
    (s.setPix n).BoundsOk := { hs with pix := h }

theorem State.BoundsOk.setK {n : Nat} (hs : s.BoundsOk)
    (h : s.fgph = .xWaitStart → n < s.cfg.startTimeoutPolls) : (s.setK n).BoundsOk :=
  { hs with k := h }

theorem State.BoundsOk.setRes {v : Byte} (hs : s.BoundsOk)
    (h : v ∈ [0x00, 0x03, 0x04, 0x05, 0x06, 0x07]) : (s.setRes v).BoundsOk :=
  { hs with res := h }

/-- A phase where EXECUTE's arguments need not be within the buffers, and no poll is counted. -/
theorem State.BoundsOk.goto_outside {ph : Phase} (hs : s.BoundsOk)
    (hph : ph.inEngine = true → ph = .xCheck) : (s.goto ph).BoundsOk :=
  { hs with
    k := by rintro rfl; cases hph rfl
    loaded := fun _ _ _ _ hin hx => absurd (hph hin) hx }

/-- From one phase of EXECUTE past its check to another. -/
theorem State.BoundsOk.goto_engine {ph ph' : Phase} (hs : s.BoundsOk) (hph : s.fgph = ph)
    (hin : ph.inEngine = true) (hx : ph ≠ .xCheck)
    (hk : ph' = .xWaitStart → s.k < s.cfg.startTimeoutPolls) : (s.goto ph').BoundsOk :=
  { hs with
    k := hk
    loaded := fun bytes wl rl hreq _ _ => hs.loaded bytes wl rl hreq (hph ▸ hin) (hph ▸ hx) }

/-- The check has admitted the request (R143). -/
theorem State.BoundsOk.admitted {bytes : List Byte} {wl rl : Nat} {b0 : Byte} (hs : s.BoundsOk)
    (hreq : s.req = some (.execute bytes wl rl))
    (ha : admissible s.cfg bytes wl rl b0 = true) : (s.goto (.xLoad 0)).BoundsOk :=
  { hs with
    k := nofun
    loaded := by
      rintro bytes' wl' rl' hreq' - -
      obtain ⟨rfl, rfl, rfl⟩ : bytes = bytes' ∧ wl = wl' ∧ rl = rl' := by
        simpa using hreq.symm.trans hreq'
      simp only [admissible, Bool.and_eq_true, decide_eq_true_eq] at ha
      obtain ⟨⟨⟨⟨hlen, hwl⟩, hrl⟩, -⟩, -⟩ := ha
      exact ⟨hlen, hwl, hrl⟩ }

/-- A request that is not one of EXECUTE past its check. -/
theorem State.BoundsOk.setReq {r : Option Request} {ph : Phase} (hs : s.BoundsOk)
    (hph : ph.inEngine = true → ph = .xCheck) :
    ({ s with req := r, fgph := ph } : State).BoundsOk :=
  { hs with
    k := by rintro rfl; cases hph rfl
    loaded := fun _ _ _ _ hin hx => absurd (hph hin) hx }

theorem State.BoundsOk.ret (hs : s.BoundsOk) : s.ret.BoundsOk :=
  hs.setReq (by simp [Phase.inEngine_of_idle s.idlePhase_idle])

/-! ### The agents keep it -/

/-- A terminal state has a code that EXECUTE returns (R96, R151). -/
theorem TxState.code_of_terminal {v : TxState} (h : v.terminal = true) :
    v.code ∈ ([0x00, 0x03, 0x04, 0x05, 0x06, 0x07] : List Byte) := by
  cases v <;> simp_all [TxState.terminal, TxState.code]

theorem FgStep.boundsOk {r : Request} (hs : s.BoundsOk) (hreq : s.req = some r)
    (h : FgStep s r t) : t.BoundsOk := by
  have loaded {bytes wl rl ph} (hreq : s.req = some (.execute bytes wl rl)) (hph : s.fgph = ph)
      (hin : ph.inEngine = true) (hx : ph ≠ .xCheck) :
      bytes.length ≤ s.cfg.wbufSize ∧ wl ≤ s.cfg.wbufSize ∧ rl ≤ s.cfg.rbufSize :=
    hs.loaded _ _ _ hreq (hph ▸ hin) (hph ▸ hx)
  cases h with
  | stay => exact hs
  | initTwice | checkOverrun | notInitialized | loadOverrun | copyOverrun | overrunA | overrunB
  | frameEnded =>
    exact hs.congr (by simp [State.bounded])
  | returnNow => exact hs.ret.congr (by simp [State.bounded])
  | init p =>
    have hu : (s.cmdCfgEn p).setInitd.BoundsOk := hs.congr (by simp [State.bounded])
    exact hu.ret
  | halt => exact (hs.setReq (r := none) (ph := .halted) nofun).congr (by simp [State.bounded])
  | startExecute => exact hs.setReq fun _ => rfl
  | startCapture => exact hs.setReq nofun
  | admitted _ _ _ ha => exact hs.admitted hreq ha
  | reject =>
    have hu : ((s.setRes rejectedCode).setRbytes []).BoundsOk :=
      (hs.setRes (v := rejectedCode) (by decide)).congr (by simp [State.bounded])
    exact hu.ret
  | rejectNext =>
    exact (hs.setRes (v := rejectedCode) (by decide)).congr (by simp [State.bounded])
  | @loadByte bytes _ _ i _ hph hi =>
    have hu : (s.putByte .wb i bytes[i]).BoundsOk := hs.congr (by simp [State.bounded])
    exact hu.goto_engine hph rfl nofun nofun
  | loadWl hph =>
    obtain ⟨-, hwl, -⟩ := loaded hreq hph rfl nofun
    exact (hs.setWl hwl).goto_engine hph rfl nofun nofun
  | loadRl hph =>
    obtain ⟨-, -, hrl⟩ := loaded hreq hph rfl nofun
    exact (hs.setRl hrl).goto_engine hph rfl nofun nofun
  | armTs hph =>
    have hu : (s.setTs .idle).BoundsOk := hs.congr (by simp [State.bounded])
    exact hu.goto_engine hph rfl nofun nofun
  | armWc hph => exact (hs.setWc (Nat.zero_le _)).goto_engine hph rfl nofun nofun
  | armRc hph => exact (hs.setRc (Nat.zero_le _)).goto_engine hph rfl nofun nofun
  | armSta hph =>
    have hu : (s.setK 0).cmdSetSta.BoundsOk :=
      (hs.setK (n := 0) fun _ => hs.polls).congr (by simp [State.bounded])
    exact hu.goto_engine hph rfl nofun fun _ => hs.polls
  | started hph => exact hs.goto_engine hph rfl nofun nofun
  | polled _ _ hk => exact hs.setK fun _ => hk
  | timedOut hph =>
    have hu := (hs.goto_engine (ph' := .xTimeout) hph rfl nofun nofun).setK (n := s.k + 1) nofun
    exact hu.congr (by simp [State.bounded])
  | timeout =>
    have hu : ((s.cmdSetSto.setRes timeoutCode).setRbytes []).BoundsOk :=
      (hs.setRes (v := timeoutCode) (by decide)).congr (by simp [State.bounded])
    exact hu.ret
  | ended hph hts =>
    exact (hs.setRes (TxState.code_of_terminal hts)).goto_engine hph rfl nofun nofun
  | @copy _ _ _ j b hph =>
    have hu : (s.setRbytes (s.rbytes.take j ++ [b])).BoundsOk := hs.congr (by simp [State.bounded])
    exact hu.goto_engine hph rfl nofun nofun
  | copied =>
    have hu : (s.setRbytes (s.rbytes.take s.rl)).BoundsOk := hs.congr (by simp [State.bounded])
    exact hu.ret
  | clearPix => exact (hs.setPix (Nat.zero_le _)).goto_outside nofun
  | follow _ _ hph' => exact hs.goto_outside (by simp [Phase.inEngine_of_inCapture hph'])
  | @storeA v _ _ _ _ hph' =>
    have hu : (s.putByte .a s.pix v).BoundsOk := hs.congr (by simp [State.bounded])
    exact hu.goto_outside (by simp [Phase.inEngine_of_inCapture hph'])
  | @storeB v _ _ _ hb hph' =>
    have hu : (s.putByte .b s.pix v).BoundsOk := hs.congr (by simp [State.bounded])
    have hpix : s.pix + 1 ≤ s.cfg.planeSize := State.lt_capacity_of_byteAt hb
    exact (hu.setPix hpix).goto_outside (by simp [Phase.inEngine_of_inCapture hph'])

/-- `WC` goes one past an element of `WB` at most (R30). -/
theorem ArmStep.wc_le {i : Instr} (h : ArmStep s i t) (hwc : s.wc ≤ s.cfg.wbufSize) :
    t.wc ≤ s.cfg.wbufSize := by
  have next {n : Nat} {b : Byte} (hb : s.byteAt .wb n = some b) : n + 1 ≤ s.cfg.wbufSize :=
    State.lt_capacity_of_byteAt hb
  cases h with
  | startSent hb | repstartSent hb | slawAck hb | dataTxAckSends _ hb => simpa using next hb
  | startSentOverrun => simp
  | _ => simpa using hwc

/-- `RC` goes one past an element of `RB` at most (R31). -/
theorem ArmStep.rc_le {i : Instr} (h : ArmStep s i t) (hrc : s.rc ≤ s.cfg.rbufSize) :
    t.rc ≤ s.cfg.rbufSize := by
  have next {b : Byte} (hb : s.byteAt .rb s.rc = some b) : s.rc + 1 ≤ s.cfg.rbufSize :=
    State.lt_capacity_of_byteAt hb
  cases h with
  | dataRxAckMore _ hb | dataRxAckLast _ hb | dataRxNack hb => simpa using next hb
  | repstartSent | repstartSentOverrun => simp
  | _ => simpa using hrc

theorem ArmStep.boundsOk {i : Instr} (hs : s.BoundsOk) (h : ArmStep s i t) : t.BoundsOk := by
  have hwc := h.wc_le hs.wc
  have hrc := h.rc_le hs.rc
  rw [h.frame]
  exact { hs with wc := hwc, rc := hrc }

theorem State.BoundsOk.accept (hs : s.BoundsOk) (hacc : s.accepting = true) (r : Request) :
    (s.accept r).BoundsOk := by
  obtain ⟨hidle, -, -⟩ := State.accepting_iff.1 hacc
  have hwait : s.fgph.inEngine = true → s.fgph = .xCheck := by
    simp [Phase.inEngine_of_idle hidle]
  cases r with
  | init | halt => exact hs.setReq hwait
  | execute => exact hs.setReq fun _ => rfl
  | capture => exact hs.setReq nofun

theorem State.BoundsOk.ctrlStep (hs : s.BoundsOk) (c : CtrlMove) : (ctrlStep c s).BoundsOk := by
  rw [ctrlStep_frame]; exact hs.congr rfl

theorem State.BoundsOk.perform {m : Move} (hs : s.BoundsOk) (h : perform m s = .next t) :
    t.BoundsOk :=
  perform_keeps hs (fun r hacc => hs.accept hacc r) (fun _ hreq h => h.boundsOk hs hreq)
    (fun _ h => ArmStep.boundsOk (s := s.cmdRdSts) (hs.congr rfl) h) hs.ctrlStep
    (fun _ _ _ _ => hs.congr rfl) h

end Sys2Proof.Machine

namespace Sys2Proof

open Sys2Proof.Machine

/-- Settles O59: a command writes no register that has a bound, and each agent's move keeps them. -/
theorem stepKeepsTheBounds : Obligations.StepKeepsTheBounds := by
  intro s t hs h
  obtain ⟨w, i, -, hi, h⟩ | ⟨w, e, -, -, h⟩ | ⟨-, h⟩ := step_cases h
  · rw [command_frame (decodeCmd_isCommand hi) h]; exact hs.congr rfl
  · cases h; exact hs.congr rfl
  · obtain ⟨sc, n, ha⟩ := afterMove_eq s
    exact State.BoundsOk.perform (hs.congr (by rw [ha]; rfl)) h

end Sys2Proof

/-! ## The arrays (O57, O9, O10, O51, O37)

A move writes at most one element of one array, that element exists, and the move is its owner's:
`perform_mem` says so once. -/

namespace Sys2Proof.Machine

variable {s t : State} {sp : Space} {i : Nat}

/-! ### The elements -/

/-- A buffer lists every index below its size. -/
theorem bufferWf_read {n : Nat} {l : List Host.Cell} (h : bufferWf n l) (hi : i < n) :
    ∃ b, cellsRead l i = some b := by
  rw [← Option.isSome_iff_exists, cellsRead_isSome, h]
  exact List.mem_range.2 hi

/-- In canonical form every index below the capacity is an element (R66). -/
theorem Memory.byte_of_wf {p : Params} {m : Memory} (h : m.wf p) (hi : i < sp.capacity p) :
    ∃ b, m.byte sp i = some b := by
  obtain ⟨hwb, hrb, -, -⟩ := h
  cases sp with
  | wb =>
    obtain ⟨b, hb⟩ := bufferWf_read hwb hi
    exact ⟨b, by simp [Memory.byte, Memory.cells, hb]⟩
  | rb =>
    obtain ⟨b, hb⟩ := bufferWf_read hrb hi
    exact ⟨b, by simp [Memory.byte, Memory.cells, hb]⟩
  | a | b =>
    unfold Memory.byte
    split
    · exact ⟨_, rfl⟩
    · exact ⟨0x00, rfl⟩

theorem State.byteAt_of_capacity_le (h : sp.capacity s.cfg ≤ i) : s.byteAt sp i = none := by
  simp [State.byteAt, h]

theorem State.byteAt_of_lt_capacity (h : i < sp.capacity s.cfg) :
    s.byteAt sp i = s.mem.byte sp i := by
  simp [State.byteAt, h]

theorem State.byteAt_putByte_same {v : Byte} (h : i < sp.capacity s.cfg) :
    (s.putByte sp i v).byteAt sp i = some v := by
  rw [State.byteAt_of_lt_capacity (s := s.putByte sp i v) h, State.putByte_mem,
    Memory.byte_put_same]

theorem State.byteAt_putByte_other {sp' : Space} {j : Nat} (v : Byte) (h : sp' ≠ sp ∨ j ≠ i) :
    (s.putByte sp i v).byteAt sp' j = s.byteAt sp' j := by
  simp [State.byteAt, Memory.byte_put_other _ v h]

/-! ### The moves that write an array -/

/-- The move `m` is the one that owns element `i` of the array in the state `s` (R61, R62, R63). -/
def Owns (m : Move) (s : State) (sp : Space) (i : Nat) : Prop :=
  (sp = .wb ∧ m = .fg ∧ s.fgph = .xLoad i)
  ∨ (sp = .rb ∧ m = .isr ∧ i = s.rc)
  ∨ (sp = .a ∧ m = .fg ∧ i = s.pix ∧ ∃ v, s.fgph = .cSampleA (.store v))
  ∨ (sp = .b ∧ m = .fg ∧ i = s.pix ∧ ∃ v, s.fgph = .cSampleB (.store v))

/-- The move `m` leaves the arrays, or writes one element that it owns and that exists. -/
def MemStep (m : Move) (s t : State) : Prop :=
  t.mem = s.mem
  ∨ ∃ sp i v, Owns m s sp i ∧ i < sp.capacity s.cfg ∧ t.mem = s.mem.put sp i v

/-- Of the arms only the two of a received byte write an array: `RB` at `RC` (R130, R132). -/
theorem ArmStep.mem {a : Instr} (h : ArmStep s a t) : MemStep .isr s t := by
  have store {b : Byte} (hb : s.byteAt .rb s.rc = some b) (ht : t.mem = s.mem.put .rb s.rc s.dat) :
      MemStep .isr s t :=
    .inr ⟨.rb, s.rc, s.dat, .inr (.inl ⟨rfl, rfl, rfl⟩), State.lt_capacity_of_byteAt hb, ht⟩
  cases h with
  | dataRxAckMore _ hb | dataRxAckLast _ hb | dataRxNack hb => exact store hb (by simp)
  | _ => left; simp

/-- Of FG's steps only the load steps and the two store steps write an array (R144, R178, R179). -/
theorem FgStep.mem {r : Request} (h : FgStep s r t) : MemStep .fg s t := by
  cases h with
  | @loadByte bytes _ _ i _ hph hi hb =>
    exact .inr ⟨.wb, i, bytes[i], .inl ⟨rfl, rfl, hph⟩, State.lt_capacity_of_byteAt hb, by simp⟩
  | @storeA v _ _ hph hb =>
    exact .inr ⟨.a, s.pix, v, .inr (.inr (.inl ⟨rfl, rfl, rfl, v, hph⟩)),
      State.lt_capacity_of_byteAt hb, by simp⟩
  | @storeB v _ _ hph hb =>
    exact .inr ⟨.b, s.pix, v, .inr (.inr (.inr ⟨rfl, rfl, rfl, v, hph⟩)),
      State.lt_capacity_of_byteAt hb, by simp⟩
  | _ => left; simp

/-- A move writes at most one element, as its owner; the host, CTRL and SENSOR write none. -/
theorem perform_mem {m : Move} (h : perform m s = .next t) : MemStep m s t := by
  cases m with
  | op code args => cases h; rw [hostRequest_frame]; exact .inl rfl
  | fg =>
    obtain rfl | ⟨r, -, -, h⟩ := FgStep.of_fgStep h
    · exact .inl rfl
    · exact h.mem
  | isr =>
    obtain rfl | ⟨-, a, h⟩ := ArmStep.of_isrStep h
    · exact .inl rfl
    · exact h.mem
  | ctrl c => cases h; rw [ctrlStep_frame]; exact .inl rfl
  | sensor => cases h; exact .inl rfl

/-- No move changes the parameters (R8 to R12). -/
theorem perform_cfg {m : Move} (h : perform m s = .next t) : t.cfg = s.cfg := by
  refine perform_keeps (P := fun u => u.cfg = s.cfg) rfl (fun r _ => ?_) (fun r _ h => ?_)
    (fun a h => ?_) (fun c => ?_) (fun _ _ _ _ => rfl) h
  · rw [State.accept_frame]
  · rw [h.frame]
  · rw [h.frame]; rfl
  · rw [ctrlStep_frame]

/-- A move keeps the canonical form (log 18). -/
theorem perform_keeps_wf {m : Move} (hs : s.mem.wf s.cfg) (h : perform m s = .next t) :
    t.mem.wf t.cfg := by
  rw [perform_cfg h]
  obtain hmem | ⟨sp, i, v, -, hi, hmem⟩ := perform_mem h
  · rw [hmem]; exact hs
  · rw [hmem]; exact Memory.put_wf hs hi v

/-! ### The phases of EXECUTE that access a buffer -/

variable {bytes : List Byte} {wl rl : Nat}

theorem exec_execute_xCheck (hph : s.fgph = .xCheck) (hr : s.returning = false) :
    exec (.execute bytes wl rl) s = execXCheck bytes wl rl s := by
  simp [exec, execExecute, hph, hr]

theorem exec_execute_xLoad (hph : s.fgph = .xLoad i) :
    exec (.execute bytes wl rl) s = execXLoad bytes wl rl i s := by
  simp [exec, execExecute, hph]

theorem exec_execute_xCopy (hph : s.fgph = .xCopy i) :
    exec (.execute bytes wl rl) s = execXCopy i s := by
  simp [exec, execExecute, hph]

end Sys2Proof.Machine

namespace Sys2Proof

open Sys2Proof.Machine

/-- Settles O57: a command writes no array, and a move writes an element that exists if any. -/
theorem stepKeepsTheMemoryCanonical : Obligations.StepKeepsTheMemoryCanonical := by
  intro s t hs h
  obtain ⟨w, i, -, hi, h⟩ | ⟨w, e, -, -, h⟩ | ⟨-, h⟩ := step_cases h
  · rw [command_frame (decodeCmd_isCommand hi) h]; exact hs
  · cases h; exact hs
  · obtain ⟨sc, n, ha⟩ := afterMove_eq s
    exact perform_keeps_wf (by rw [ha]; exact hs) h

/-- Settles O9: the canonical form gives the elements below the capacity, and there are no more. -/
theorem elementsAreThoseBelowCapacity : Obligations.ElementsAreThoseBelowCapacity := by
  intro s sp i hwf
  refine ⟨fun hnone => ?_, State.byteAt_of_capacity_le⟩
  by_contra hlt
  have hi : i < sp.capacity s.cfg := not_le.1 hlt
  obtain ⟨b, hb⟩ := Memory.byte_of_wf hwf hi
  rw [State.byteAt_of_lt_capacity hi, hb] at hnone
  cases hnone

/-- Settles O10: the read after the write, and the reads of the other elements. -/
theorem writeChangesOnlyTheOneElement : Obligations.WriteChangesOnlyTheOneElement :=
  fun _ _ _ v hi => ⟨State.byteAt_putByte_same hi, fun _ _ => State.byteAt_putByte_other v⟩

/-- Settles O51: the element that reads otherwise is the one that the move has written. -/
theorem arraysAreWrittenByTheirOwnersOnly : Obligations.ArraysAreWrittenByTheirOwnersOnly := by
  intro m s t sp i h hne
  have hcfg := perform_cfg h
  obtain hmem | ⟨sp', i', v, howns, -, hmem⟩ := perform_mem h
  · exact absurd (State.byteAt_congr hcfg hmem sp i) hne
  · by_cases hwritten : sp = sp' ∧ i = i'
    · obtain ⟨rfl, rfl⟩ := hwritten
      exact howns
    · have hput : t.byteAt sp i = (s.putByte sp' i' v).byteAt sp i :=
        State.byteAt_congr (s := s.putByte sp' i' v) hcfg hmem sp i
      rw [hput, State.byteAt_putByte_other v (not_and_or.1 hwritten)] at hne
      exact absurd rfl hne

/-- Settles O37: beyond the capacity no element reads, so the load or the store raises. -/
theorem engineAccessBeyondABufferFaults : Obligations.EngineAccessBeyondABufferFaults := by
  intro s bytes wl rl i _
  refine ⟨?_, ?_, ?_⟩
  · rintro hph hr hinit rfl hsize
    have hb : s.byteAt .wb 0 = none := State.byteAt_of_capacity_le hsize.le
    rw [exec_execute_xCheck hph hr, execXCheck, if_pos hinit]
    exact State.load_of_none hb
  · intro hph hi hsize
    have hb : s.byteAt .wb i = none := State.byteAt_of_capacity_le hsize
    rw [exec_execute_xLoad hph, execXLoad, dif_pos hi]
    exact State.store_of_none hb
  · intro hph hi hsize
    have hb : s.byteAt .rb i = none := State.byteAt_of_capacity_le hsize
    rw [exec_execute_xCopy hph, execXCopy, if_pos hi]
    exact State.load_of_none hb

end Sys2Proof

/-! ## The encodings (O1 to O5)

The status decoder is the lookup in a table of pairs, and R89 makes the codes of that table
distinct: so the lookup answers an arm exactly where the table holds the pair. The command and the
foreground decoders have fixed tables. -/

namespace Sys2Proof

/-! ### Status codes -/

/-- The table of R87: each mapped code with its arm. -/
def statusTable (m : StatusMap) : List (Sigma fun _ : Byte => Instr) :=
  [⟨m.startSent, .startSent⟩, ⟨m.repstartSent, .repstartSent⟩, ⟨m.slawAck, .slawAck⟩,
   ⟨m.slawNack, .slawNack⟩, ⟨m.dataTxAck, .dataTxAck⟩, ⟨m.dataTxNack, .dataTxNack⟩,
   ⟨m.arbLost, .arbLost⟩, ⟨m.slarAck, .slarAck⟩, ⟨m.slarNack, .slarNack⟩,
   ⟨m.dataRxAck, .dataRxAck⟩, ⟨m.dataRxNack, .dataRxNack⟩]

theorem statusTable_keys (m : StatusMap) : (statusTable m).keys = m.codes := rfl

/-- R89: no code stands twice in the table. -/
theorem statusTable_nodupKeys {m : StatusMap} (hm : m.wf) : (statusTable m).NodupKeys := hm

/-- A lookup takes the pair at the head or goes on, as an `if` of the decoder does. -/
theorem dlookup_cons_getD (c k : Byte) (i d : Instr) (l : List (Sigma fun _ : Byte => Instr)) :
    ((⟨k, i⟩ :: l).dlookup c).getD d = if c = k then i else (l.dlookup c).getD d := by
  by_cases h : c = k
  · subst h; simp
  · simp [h]

/-- R88: the decoder looks the code up, and answers `UNRECOGNIZED` where the table has none. -/
theorem decodeStatus_eq_dlookup (m : StatusMap) (c : Byte) :
    decodeStatus m c = ((statusTable m).dlookup c).getD (.unrecognized c) := by
  simp only [statusTable, dlookup_cons_getD, List.dlookup_nil, Option.getD_none, decodeStatus]

theorem decodeStatus_of_mem {m : StatusMap} {c : Byte} {i : Instr} (hm : m.wf)
    (h : ⟨c, i⟩ ∈ statusTable m) : decodeStatus m c = i := by
  have hlookup : (statusTable m).dlookup c = some i := List.mem_dlookup (statusTable_nodupKeys hm) h
  rw [decodeStatus_eq_dlookup, hlookup, Option.getD_some]

theorem decodeStatus_of_not_mem {m : StatusMap} {c : Byte} (h : c ∉ m.codes) :
    decodeStatus m c = .unrecognized c := by
  have hlookup : (statusTable m).dlookup c = none :=
    List.dlookup_eq_none.2 (by rwa [statusTable_keys])
  rw [decodeStatus_eq_dlookup, hlookup, Option.getD_none]

/-- R88, R89: the decoder answers `i` where the table pairs the code with it, and `UNRECOGNIZED` with
the code where the map has no such code. -/
theorem decodeStatus_eq_iff {m : StatusMap} (hm : m.wf) (c : Byte) (i : Instr) :
    decodeStatus m c = i ↔ ⟨c, i⟩ ∈ statusTable m ∨ c ∉ m.codes ∧ i = .unrecognized c := by
  constructor
  · rintro rfl
    by_cases hc : c ∈ m.codes
    · rw [← statusTable_keys] at hc
      obtain ⟨i, hi⟩ := List.exists_of_mem_keys hc
      rw [decodeStatus_of_mem hm hi]
      exact .inl hi
    · exact .inr ⟨hc, decodeStatus_of_not_mem hc⟩
  · rintro (h | ⟨hc, rfl⟩)
    · exact decodeStatus_of_mem hm h
    · exact decodeStatus_of_not_mem hc

/-! ### Command words -/

@[simp] theorem cmdId_cmdWord (id : BitVec 4) (b : Byte) : cmdId (cmdWord id b) = id :=
  (Laws.Unreserved.cmdWord_fields id b).1

@[simp] theorem cmdRsv_cmdWord (id : BitVec 4) (b : Byte) : cmdRsv (cmdWord id b) = 0 :=
  (Laws.Unreserved.cmdWord_fields id b).2.1

@[simp] theorem cmdOpnd_cmdWord (id : BitVec 4) (b : Byte) : cmdOpnd (cmdWord id b) = b :=
  (Laws.Unreserved.cmdWord_fields id b).2.2

/-- A word whose `rsv` is 0 is put together again from its other two fields. -/
theorem cmdWord_cmdId_cmdOpnd {w : CmdWord} (h : cmdRsv w = 0) :
    cmdWord (cmdId w) (cmdOpnd w) = w := by
  have hw : cmdId w ++ cmdRsv w ++ cmdOpnd w = w := by
    simp only [cmdId, cmdRsv, cmdOpnd]
    rw [BitVec.extractLsb'_append_extractLsb'_eq_extractLsb' (show 12 = 8 + 4 from rfl),
      BitVec.extractLsb'_append_extractLsb'_eq_extractLsb' (show 8 = 0 + 8 from rfl)]
    exact BitVec.extractLsb'_eq_self
  rw [h] at hw
  exact hw

theorem bareCommand_ok_iff {w : CmdWord} {i j : Instr} :
    bareCommand w i = .ok j ↔ cmdOpnd w = 0 ∧ i = j := by
  simp [bareCommand, ite_eq_iff]

theorem cmdId_of_toNat_eq {w : CmdWord} {n : Nat} (h : (cmdId w).toNat = n) :
    cmdId w = BitVec.ofNat 4 n := by
  rw [← h, BitVec.ofNat_toNat, BitVec.setWidth_eq]

/-- The command decoder reads a word whose `rsv` is 0 by its id, as the encoder writes it (R92). -/
theorem decodeCmd_ok {w : CmdWord} {i : Instr} (h : decodeCmd w = .ok i) (m : StatusMap) :
    cmdRsv w = 0 ∧ encode m i = .cmd (cmdWord (cmdId w) (cmdOpnd w)) := by
  have bare {j : Instr} {n : Nat} (hid : (cmdId w).toNat = n) (h : bareCommand w j = .ok i)
      (henc : encode m j = .cmd (cmdWord (BitVec.ofNat 4 n) 0)) :
      encode m i = .cmd (cmdWord (cmdId w) (cmdOpnd w)) := by
    obtain ⟨hopnd, rfl⟩ := bareCommand_ok_iff.1 h
    rw [henc, hopnd, cmdId_of_toNat_eq hid]
  unfold decodeCmd at h
  split at h
  · cases h
  next hrsv =>
    refine ⟨not_not.1 hrsv, ?_⟩
    split at h
    case h_7 hid | h_10 hid => cases h; rw [cmdId_of_toNat_eq hid]; rfl
    case h_11 => cases h
    all_goals next hid => exact bare hid h rfl

/-! ### Foreground operations -/

theorem decodeFgop_reserved {op : BitVec 4} (args : FgArgs) (h : op = 0 ∨ 5 ≤ op.toNat) :
    decodeFgop op args = .error .reservedOp := by
  have hn : op.toNat = 0 ∨ 5 ≤ op.toNat := h.imp_left (by rintro rfl; rfl)
  unfold decodeFgop
  split
  case h_5 => rfl
  all_goals omega

/-- A request that decodes to no operation changes nothing (R95, R200). -/
theorem hostRequest_of_error {op : BitVec 4} {args : FgArgs} {e : DecodeError}
    (h : decodeFgop op args = .error e) (s : Machine.State) : Machine.hostRequest op args s = s := by
  simp only [Machine.hostRequest, h]

/-! ### The statements -/

/-- Settles O1: an arm stands in the status table beside the code that encodes it, and the fields of
a command word and the arguments of a request come out as they went in. -/
theorem decodeOfEncodeIsIdentity : Obligations.DecodeOfEncodeIsIdentity := by
  intro m i hm hi
  cases i with
  | startSent | repstartSent | slawAck | slawNack | dataTxAck | dataTxNack | arbLost | slarAck
  | slarNack | dataRxAck | dataRxNack =>
    exact congrArg Except.ok (decodeStatus_of_mem hm (by simp [statusTable]))
  | unrecognized c =>
    have hc : c ∉ m.codes := by simpa [Instr.wellFormed] using hi
    exact congrArg Except.ok (decodeStatus_of_not_mem hc)
  | clrInt | setSta | clrSta | setSto | setAa | clrAa | wrDat | rdDat | rdSts | cfgEn =>
    simp [encode, decode, decodeCmd, bareCommand]
  | init | execute | capture | halt => rfl

/-- Settles O2: a word that decodes has `rsv` 0, so its id and its operand give it back. -/
theorem decodedCommandEncodesBack : Obligations.DecodedCommandEncodesBack := by
  intro m w i h
  obtain ⟨hrsv, henc⟩ := decodeCmd_ok h m
  rw [henc, cmdWord_cmdId_cmdOpnd hrsv]

/-- Settles O4: each tag stands once in the status table, and `UNRECOGNIZED` nowhere. -/
theorem statusDecoderFollowsTheMap : Obligations.StatusDecoderFollowsTheMap := by
  intro m hm c
  simp only [decodeStatus_eq_iff hm]
  simp [statusTable]

/-- Settles O3: closed words, so the decoders are evaluated. -/
theorem wordsFromTheTablesDecode : Obligations.WordsFromTheTablesDecode := by
  unfold Obligations.WordsFromTheTablesDecode
  decide

/-- Settles O5: no row of the table has the code, and a request that does not decode is dropped. -/
theorem reservedOperationIsRefused : Obligations.ReservedOperationIsRefused := by
  intro op args s h
  have hdec : decodeFgop op args = .error .reservedOp := decodeFgop_reserved args h
  exact ⟨hdec, congrArg Host.Outcome.next (hostRequest_of_error hdec s)⟩

end Sys2Proof

/-! ## The arms of the handler (O6, O11 to O25, O46)

`ArmStep` lists what an arm can do, and each outcome it lists is the arm's answer
(`ArmStep.exec_eq`). So a statement about one arm names the outcome that its guards select, and a
statement about all of them is a case analysis over the list. -/

namespace Sys2Proof.Machine

variable {s t u : State} {i : Instr} {sp : Space} {a : Nat}

/-! ### From the guards of an arm to its answer -/

/-- The other direction of `ArmStep.of_exec`: the guards of a listed outcome select it. -/
theorem ArmStep.exec_eq (h : ArmStep s i t) : exec i s = .next t := by
  cases h with
  | startSent hb | repstartSent hb | slawAck hb => exact State.load_of_some hb
  | startSentOverrun hb | repstartSentOverrun hb | slawAckOverrun hb =>
    exact State.load_of_none hb
  | slawNack | dataTxNack | arbLost | slarNack | unrecognized => rfl
  | dataTxAckSends hwc hb => exact (if_pos hwc).trans (State.load_of_some hb)
  | dataTxAckOverrun hwc hb => exact (if_pos hwc).trans (State.load_of_none hb)
  | dataTxAckRestarts hwc hrl => exact (if_neg (not_lt.2 hwc)).trans (if_pos hrl)
  | dataTxAckEnds hwc hrl => exact (if_neg (not_lt.2 hwc)).trans (if_neg (by omega))
  | slarAckOne hrl | slarAckOther hrl => simp [exec, execSlarAck, hrl]
  | dataRxAckUnread hrl => exact if_pos hrl
  | dataRxAckMore hrl hb hrc =>
    refine (if_neg hrl).trans ((State.store_of_some (s := s.cmdRdDat) hb).trans ?_)
    simp [hrc]
  | dataRxAckLast hrl hb hrc =>
    refine (if_neg hrl).trans ((State.store_of_some (s := s.cmdRdDat) hb).trans ?_)
    simp [not_lt.2 hrc]
  | dataRxAckOverrun hrl hb =>
    exact (if_neg hrl).trans (State.store_of_none (s := s.cmdRdDat) hb)
  | dataRxNack hb =>
    simp only [exec, execDataRxNack]
    exact State.store_of_some (s := s.cmdRdDat) hb
  | dataRxNackOverrun hb =>
    simp only [exec, execDataRxNack]
    exact State.store_of_none (s := s.cmdRdDat) hb

/-- The answer of an arm, written out as another expression of the same state. -/
theorem ArmStep.exec_eq_of_eq (h : ArmStep s i t) (ht : t = u) : exec i s = .next u :=
  ht ▸ h.exec_eq

/-- In canonical form every element below the capacity can be read (R66). -/
theorem State.byteAt_of_wf (h : s.mem.wf s.cfg) (ha : a < sp.capacity s.cfg) :
    ∃ b, s.byteAt sp a = some b := by
  rw [State.byteAt_of_lt_capacity ha]
  exact Memory.byte_of_wf h ha

/-- The words of the commands without operand, as R92 writes them. -/
theorem commandWords :
    cmdWord 0#4 0#8 = 0x0000#16 ∧ cmdWord 1#4 0#8 = 0x1000#16 ∧ cmdWord 2#4 0#8 = 0x2000#16
    ∧ cmdWord 3#4 0#8 = 0x3000#16 ∧ cmdWord 4#4 0#8 = 0x4000#16 ∧ cmdWord 5#4 0#8 = 0x5000#16
    ∧ cmdWord 7#4 0#8 = 0x7000#16 := by
  decide

/-- `RD_STS` leaves its record and nothing else (R162). -/
theorem State.cmdRdSts_eq (s : State) :
    s.cmdRdSts = { s with cmdLog := s.cmdLog ++ [readBack 0x8000 s.sts] } := rfl

/-! ### The invocation and the step -/

/-- With `IRQ = 1` and no fault the handler records `RD_STS` and runs the arm of the code (R110). -/
theorem isrStep_of_enabled (hsi : s.si = true) (hen : s.en = true) (hien : s.ien = true)
    (hf : s.fault = none) :
    isrStep s = exec (decodeStatus s.cfg.statusMap s.sts)
      { s with cmdLog := s.cmdLog ++ [readBack 0x8000 s.sts] } := by
  have henabled : s.isrEnabled = true := by simp [State.isrEnabled, State.irq, hsi, hen, hien, hf]
  rw [isrStep, if_pos henabled, State.cmdRdSts_eq]

/-- With an empty port the step performs the first move of the script. -/
theorem step_of_script {m : Move} {rest : List Move} (hport : s.cmdPort = none)
    (hs : s.script = m :: rest) : step s = perform m { s with script := rest } := by
  rw [step_of_port hport]
  simp only [nextMove, afterMove, hs]

end Sys2Proof.Machine

namespace Sys2Proof

open Sys2Proof.Machine

/-- The handler runs an arm on the code that the status table pairs with it (R88, R110). -/
theorem runsOnCode_of_mem {i : Instr} {code : StatusMap → Byte}
    (h : ∀ m, ⟨code m, i⟩ ∈ statusTable m) : RunsOnCode i code := by
  intro s hm hsi hen hien hf hsts
  have hdec : decodeStatus s.cfg.statusMap s.sts = i := decodeStatus_of_mem hm (hsts ▸ h _)
  rw [isrStep_of_enabled hsi hen hien hf, hdec]

/-- Settles O6: the three places a step fetches from, each with what it decodes to. -/
theorem stepRunsTheDecodedOperation : Obligations.StepRunsTheDecodedOperation := by
  refine ⟨?_, ?_, ?_⟩
  · rintro s rest i hport hs hsi hen hien hf rfl
    rw [step_of_script hport hs]
    exact isrStep_of_enabled (s := { s with script := rest }) hsi hen hien hf
  · intro s rest r hport hs hf hr
    rw [step_of_script hport hs]
    simp only [perform, fgStep, hr, hf]
  · intro s w i hport hdec
    simp only [step, advance, hport, portStep, hdec]

/-! ### The arms one by one -/

/-- Settles O11: a write buffer of two bytes has an element 0. -/
theorem startSentSendsTheFirstByte : Obligations.StartSentSendsTheFirstByte := by
  refine ⟨runsOnCode_of_mem (by simp [statusTable]), fun s hwf hsize => ?_⟩
  have hcap : 0 < Space.capacity s.cfg .wb := show 0 < s.cfg.wbufSize by omega
  obtain ⟨b, hb⟩ := State.byteAt_of_wf hwf hcap
  refine ⟨b, hb, (ArmStep.startSent hb).exec_eq_of_eq ?_⟩
  simp [State.eq_iff_fields, commandWords]

/-- Settles O12: the element `WB[WC]` exists exactly below the size of the buffer. -/
theorem repstartSentSendsTheNextByte : Obligations.RepstartSentSendsTheNextByte := by
  refine ⟨runsOnCode_of_mem (by simp [statusTable]), fun s hwf => ⟨fun hwc => ?_, fun hwc => ?_⟩⟩
  · obtain ⟨b, hb⟩ := State.byteAt_of_wf (sp := .wb) hwf hwc
    refine ⟨b, hb, (ArmStep.repstartSent hb).exec_eq_of_eq ?_⟩
    simp [State.eq_iff_fields, commandWords]
  · exact (ArmStep.repstartSentOverrun (State.byteAt_of_capacity_le hwc)).exec_eq

/-- Settles O13: the element `WB[WC]` exists exactly below the size of the buffer. -/
theorem slawAckSendsTheNextByte : Obligations.SlawAckSendsTheNextByte := by
  refine ⟨runsOnCode_of_mem (by simp [statusTable]), fun s hwf => ⟨fun hwc => ?_, fun hwc => ?_⟩⟩
  · obtain ⟨b, hb⟩ := State.byteAt_of_wf (sp := .wb) hwf hwc
    refine ⟨b, hb, (ArmStep.slawAck hb).exec_eq_of_eq ?_⟩
    simp [State.eq_iff_fields, commandWords]
  · exact (ArmStep.slawAckOverrun (State.byteAt_of_capacity_le hwc)).exec_eq

/-- Settles O14: the four outcomes of the arm, each under its own guards. -/
theorem dataTxAckContinuesOrEndsTheWrite : Obligations.DataTxAckContinuesOrEndsTheWrite := by
  refine ⟨runsOnCode_of_mem (by simp [statusTable]), fun s hwf => ⟨?_, ?_, ?_, ?_⟩⟩
  · intro hwl hwc
    obtain ⟨b, hb⟩ := State.byteAt_of_wf (sp := .wb) hwf hwc
    refine ⟨b, hb, (ArmStep.dataTxAckSends hwl hb).exec_eq_of_eq ?_⟩
    simp [State.eq_iff_fields, commandWords]
  · intro hwl hwc
    exact (ArmStep.dataTxAckOverrun hwl (State.byteAt_of_capacity_le hwc)).exec_eq
  · intro hwl hrl
    refine (ArmStep.dataTxAckRestarts hwl hrl).exec_eq_of_eq ?_
    simp [State.eq_iff_fields, commandWords]
  · intro hwl hrl
    refine (ArmStep.dataTxAckEnds hwl hrl).exec_eq_of_eq ?_
    simp [State.eq_iff_fields, commandWords]

/-- Settles O15: four arms with one outcome each. -/
theorem refusalArmsEndTheTransaction : Obligations.RefusalArmsEndTheTransaction := by
  refine ⟨runsOnCode_of_mem (by simp [statusTable]), runsOnCode_of_mem (by simp [statusTable]),
    runsOnCode_of_mem (by simp [statusTable]), runsOnCode_of_mem (by simp [statusTable]),
    fun s => ⟨ArmStep.slawNack.exec_eq_of_eq ?_, ArmStep.dataTxNack.exec_eq_of_eq ?_,
      ArmStep.arbLost.exec_eq_of_eq ?_, ArmStep.slarNack.exec_eq_of_eq ?_⟩⟩
  all_goals simp [State.eq_iff_fields, commandWords]

/-- Settles O16: a code outside the map decodes to the arm, which has one outcome. -/
theorem unrecognizedOnlyClearsTheInterrupt : Obligations.UnrecognizedOnlyClearsTheInterrupt := by
  refine ⟨fun s hsi hen hien hf hsts => ?_, fun code s => ?_⟩
  · rw [isrStep_of_enabled hsi hen hien hf, decodeStatus_of_not_mem hsts]
  · refine (ArmStep.unrecognized code).exec_eq_of_eq ?_
    simp [State.eq_iff_fields, commandWords]

/-- Settles O17: the two outcomes of the arm. -/
theorem slarAckArmsTheAcknowledge : Obligations.SlarAckArmsTheAcknowledge := by
  refine ⟨runsOnCode_of_mem (by simp [statusTable]), fun s => ⟨fun hrl => ?_, fun hrl => ?_⟩⟩
  · refine (ArmStep.slarAckOne hrl).exec_eq_of_eq ?_
    simp [State.eq_iff_fields, commandWords]
  · refine (ArmStep.slarAckOther hrl).exec_eq_of_eq ?_
    simp [State.eq_iff_fields, commandWords]

/-- A received byte that is stored: `AA` follows the comparison after the advance (R130). -/
theorem exec_dataRxAck_of_byteAt {s : State} {b : Byte} (hrl : s.rl ≠ 0)
    (hb : s.byteAt .rb s.rc = some b) :
    exec .dataRxAck s = .next { s.putByte .rb s.rc s.dat with
      rc := s.rc + 1, si := false
      aa := decide (s.rc + 1 < s.rl - 1)
      cmdLog := s.cmdLog ++ [readBack 0x7000 s.dat,
        sent (if s.rc + 1 < s.rl - 1 then 0x4000 else 0x5000), sent 0x0000] } := by
  by_cases hrc : s.rc + 1 < s.rl - 1
  · refine (ArmStep.dataRxAckMore hrl hb hrc).exec_eq_of_eq ?_
    simp [State.eq_iff_fields, commandWords, hrc]
  · refine (ArmStep.dataRxAckLast hrl hb (not_lt.1 hrc)).exec_eq_of_eq ?_
    simp [State.eq_iff_fields, commandWords, hrc]

/-- The last byte, stored: the transaction ends with the STOP (R132). -/
theorem exec_dataRxNack_of_byteAt {s : State} {b : Byte} (hb : s.byteAt .rb s.rc = some b) :
    exec .dataRxNack s = .next { s.putByte .rb s.rc s.dat with
      rc := s.rc + 1, sto := true, si := false, ts := .ack
      cmdLog := s.cmdLog ++ [readBack 0x7000 s.dat, sent 0x3000, sent 0x0000] } := by
  refine (ArmStep.dataRxNack hb).exec_eq_of_eq ?_
  simp [State.eq_iff_fields, commandWords]

/-- Settles O18: the length is checked first, and `RB[RC]` exists below the size of the buffer. -/
theorem dataRxAckStoresAndArms : Obligations.DataRxAckStoresAndArms := by
  refine ⟨runsOnCode_of_mem (by simp [statusTable]), fun s hwf => ⟨?_, ?_, ?_⟩⟩
  · exact fun hrl => (ArmStep.dataRxAckUnread hrl).exec_eq
  · intro hrl hrc
    exact (ArmStep.dataRxAckOverrun hrl (State.byteAt_of_capacity_le hrc)).exec_eq
  · intro hrl hrc
    obtain ⟨b, hb⟩ := State.byteAt_of_wf (sp := .rb) hwf hrc
    exact exec_dataRxAck_of_byteAt hrl hb

/-- Settles O19: the element `RB[RC]` exists exactly below the size of the buffer. -/
theorem dataRxNackStoresAndCompletes : Obligations.DataRxNackStoresAndCompletes := by
  refine ⟨runsOnCode_of_mem (by simp [statusTable]), fun s hwf => ⟨fun hrc => ?_, fun hrc => ?_⟩⟩
  · obtain ⟨b, hb⟩ := State.byteAt_of_wf (sp := .rb) hwf hrc
    exact exec_dataRxNack_of_byteAt hb
  · exact (ArmStep.dataRxNackOverrun (State.byteAt_of_capacity_le hrc)).exec_eq

/-! ### The arms together -/

/-- Of the command words only that of `CLR_INT` is 0 (R92). -/
theorem cmdWord_eq_zero_iff {id : BitVec 4} {b : Byte} :
    cmdWord id b = 0#16 ↔ id = 0#4 ∧ b = 0#8 := by
  refine ⟨fun h => ⟨?_, ?_⟩, ?_⟩
  · exact (cmdId_cmdWord id b).symm.trans (congrArg cmdId h)
  · exact (cmdOpnd_cmdWord id b).symm.trans (congrArg cmdOpnd h)
  · rintro ⟨rfl, rfl⟩; rfl

/-- Settles O20: the commands of each arm that comes to its end. -/
theorem armsClearTheInterruptOnceAndLast : Obligations.ArmsClearTheInterruptOnceAndLast := by
  intro i s t hi hs h ht
  cases ArmStep.of_exec hi h with
  | startSentOverrun | repstartSentOverrun | slawAckOverrun | dataTxAckOverrun
  | dataRxAckUnread | dataRxAckOverrun | dataRxNackOverrun => cases ht
  | @startSent b | @repstartSent b =>
    exact ⟨rfl, [sent (cmdWord 0x6 b), sent (cmdWord 0x2 0)],
      by simp [commandWords], by simp [cmdWord_eq_zero_iff]⟩
  | @slawAck b | @dataTxAckSends b =>
    exact ⟨rfl, [sent (cmdWord 0x6 b)], by simp [commandWords], by simp [cmdWord_eq_zero_iff]⟩
  | slawNack | dataTxAckEnds | dataTxNack | slarNack =>
    exact ⟨rfl, [sent 0x3000], by simp [commandWords], by simp⟩
  | dataTxAckRestarts => exact ⟨rfl, [sent 0x1000], by simp [commandWords], by simp⟩
  | arbLost | unrecognized => exact ⟨rfl, [], by simp [commandWords], by simp⟩
  | slarAckOne => exact ⟨rfl, [sent 0x5000], by simp [commandWords], by simp⟩
  | slarAckOther => exact ⟨rfl, [sent 0x4000], by simp [commandWords], by simp⟩
  | dataRxAckMore =>
    exact ⟨rfl, [readBack 0x7000 s.dat, sent 0x4000], by simp [commandWords], by simp⟩
  | dataRxAckLast =>
    exact ⟨rfl, [readBack 0x7000 s.dat, sent 0x5000], by simp [commandWords], by simp⟩
  | dataRxNack =>
    exact ⟨rfl, [readBack 0x7000 s.dat, sent 0x3000], by simp [commandWords], by simp⟩

/-- Settles O21: the arms that read `WB` fault before any command, those that store to `RB` after
`RD_DAT`. -/
theorem faultedArmLeavesTheInterruptPending : Obligations.FaultedArmLeavesTheInterruptPending := by
  intro i s t hi hs h ht
  cases ArmStep.of_exec hi h with
  | startSentOverrun | repstartSentOverrun | slawAckOverrun | dataTxAckOverrun
  | dataRxAckUnread =>
    exact ⟨rfl, rfl, rfl, rfl, rfl, rfl, rfl, [], by simp, by simp⟩
  | dataRxAckOverrun | dataRxNackOverrun =>
    exact ⟨rfl, rfl, rfl, rfl, rfl, rfl, rfl, [readBack 0x7000 s.dat],
      by simp [commandWords], by simp⟩
  | _ => simp [hs] at ht

/-- The state with other values of the three registers that no arm reads (R112). -/
def Machine.State.withControl (s : State) (ts : TxState) (ph : Phase) (b : Bool) : State :=
  { s with ts := ts, fgph := ph, initd := b }

/-- The guards of an outcome and what it writes mention none of the three registers; an outcome
that writes `TS` writes it over the other value. -/
theorem Machine.ArmStep.withControl {i : Instr} {s t : State} (ts : TxState) (ph : Phase) (b : Bool)
    (h : ArmStep s i t) :
    ArmStep (s.withControl ts ph b) i (t.withControl ts ph b)
    ∨ ArmStep (s.withControl ts ph b) i (t.withControl t.ts ph b) := by
  cases h with
  | startSent hb => exact .inr (.startSent hb)
  | startSentOverrun hb => exact .inl (.startSentOverrun hb)
  | repstartSent hb => exact .inl (.repstartSent hb)
  | repstartSentOverrun hb => exact .inl (.repstartSentOverrun hb)
  | slawAck hb => exact .inl (.slawAck hb)
  | slawAckOverrun hb => exact .inl (.slawAckOverrun hb)
  | slawNack => exact .inr .slawNack
  | dataTxAckSends hwc hb => exact .inl (.dataTxAckSends hwc hb)
  | dataTxAckOverrun hwc hb => exact .inl (.dataTxAckOverrun hwc hb)
  | dataTxAckRestarts hwc hrl => exact .inl (.dataTxAckRestarts hwc hrl)
  | dataTxAckEnds hwc hrl => exact .inr (.dataTxAckEnds hwc hrl)
  | dataTxNack => exact .inr .dataTxNack
  | arbLost => exact .inr .arbLost
  | slarAckOne hrl => exact .inl (.slarAckOne hrl)
  | slarAckOther hrl => exact .inl (.slarAckOther hrl)
  | slarNack => exact .inr .slarNack
  | dataRxAckUnread hrl => exact .inl (.dataRxAckUnread hrl)
  | dataRxAckMore hrl hb hrc => exact .inl (.dataRxAckMore hrl hb hrc)
  | dataRxAckLast hrl hb hrc => exact .inl (.dataRxAckLast hrl hb hrc)
  | dataRxAckOverrun hrl hb => exact .inl (.dataRxAckOverrun hrl hb)
  | dataRxNack hb => exact .inr (.dataRxNack hb)
  | dataRxNackOverrun hb => exact .inl (.dataRxNackOverrun hb)
  | unrecognized c => exact .inl (.unrecognized c)

/-- Settles O22: an arm takes the same outcome whatever stands in the three registers. -/
theorem armsDoNotReadTheTransactionState : Obligations.ArmsDoNotReadTheTransactionState := by
  intro i s t ts ph b hi h
  exact ((ArmStep.of_exec hi h).withControl ts ph b).imp ArmStep.exec_eq ArmStep.exec_eq

/-- Settles O23: the arms that write `TS`, each with the value it writes. -/
theorem pendingAndAckHaveTheirArms : Obligations.PendingAndAckHaveTheirArms := by
  intro i s t hi h hne
  cases ArmStep.of_exec hi h with
  | startSent => simp
  | slawNack | dataTxNack | arbLost | slarNack | dataRxNack => simp
  | dataTxAckEnds hwc hrl => simp [hwc, hrl]
  | _ => simp at hne

/-! ### What the arms leave alone -/

/-- The registers of R116, R126 and R133, each with the arms that write it. -/
theorem Machine.ArmStep.registers {i : Instr} {s t : State} (h : ArmStep s i t) :
    (i ∉ [.startSent, .slawNack, .dataTxAck, .dataTxNack, .arbLost, .slarNack, .dataRxNack] →
      t.ts = s.ts)
    ∧ (i ∉ [.startSent, .repstartSent, .slawAck, .dataTxAck] → t.wc = s.wc ∧ t.dat = s.dat)
    ∧ (i ∉ [.repstartSent, .dataRxAck, .dataRxNack] → t.rc = s.rc)
    ∧ (i ∉ [.startSent, .repstartSent, .dataTxAck] → t.sta = s.sta)
    ∧ (i ∉ [.slawNack, .dataTxAck, .dataTxNack, .slarNack, .dataRxNack] → t.sto = s.sto)
    ∧ (i ∉ [.slarAck, .dataRxAck] → t.aa = s.aa) := by
  cases h <;> simp

/-- The arms of a received byte are the two that write an array. -/
theorem Machine.ArmStep.mem_of_not_received {i : Instr} {s t : State} (h : ArmStep s i t)
    (hi : ¬ (i = .dataRxAck ∨ i = .dataRxNack)) : t.mem = s.mem := by
  cases h with
  | dataRxAckMore | dataRxAckLast | dataRxNack => simp at hi
  | _ => simp

/-- An arm keeps every element but `RB[RC]`. -/
theorem Machine.ArmStep.byteAt_other {i : Instr} {s t : State} {sp : Space} {a : Nat}
    (h : ArmStep s i t) (ha : ¬ (sp = .rb ∧ a = s.rc)) : t.byteAt sp a = s.byteAt sp a := by
  have hcfg : t.cfg = s.cfg := by rw [h.frame]
  obtain hmem | ⟨sp', a', v, howns, -, hmem⟩ := h.mem
  · exact State.byteAt_congr hcfg hmem sp a
  · obtain ⟨rfl, rfl⟩ : sp' = .rb ∧ a' = s.rc := by simpa [Owns] using howns
    have hput : t.byteAt sp a = (s.putByte .rb s.rc v).byteAt sp a :=
      State.byteAt_congr (s := s.putByte .rb s.rc v) hcfg hmem sp a
    rw [hput, State.byteAt_putByte_other v (not_and_or.1 ha)]

/-- Settles O24: the frame, the registers and the one element. -/
theorem armsFrame : Obligations.ArmsFrame := by
  intro i s t hi h
  have hstep : ArmStep s i t := .of_exec hi h
  obtain ⟨hts, hwc, hrc, hsta, hsto, haa⟩ := hstep.registers
  refine ⟨hstep.frame, hts, hwc, hrc, hsta, hsto, haa, fun sp a ha => ?_⟩
  by_cases hrx : i = .dataRxAck ∨ i = .dataRxNack
  · exact hstep.byteAt_other fun hel => ha ⟨hrx, hel⟩
  · exact State.byteAt_congr (by rw [hstep.frame]) (hstep.mem_of_not_received hrx) sp a

/-- Settles O25: an invocation is `RD_STS` and an arm, whose frame has none of FG's registers. -/
theorem invocationLeavesTheForegroundAlone : Obligations.InvocationLeavesTheForegroundAlone := by
  intro s t h
  have hnone : ¬ (s.si = true ∧ s.en = true ∧ s.ien = true ∧ s.fault = none) → t = s := by
    intro hoff
    obtain ⟨he, -⟩ | ⟨-, h⟩ := isrStep_cases h
    · exact absurd (by simpa [State.isrEnabled, State.irq, and_assoc] using he) hoff
    · cases h; rfl
  obtain rfl | ⟨-, i, hstep⟩ := ArmStep.of_isrStep h
  · simp
  · refine ⟨?_, ?_, ?_, ?_, ?_, ?_, ?_, ?_, ?_, ?_, ?_, ?_, ?_, ?_, ?_, hnone⟩
    all_goals rw [hstep.frame]; rfl

/-! ### The STOP -/

/-- With `STO` set every row of WBC but the two stops is closed (R205). -/
theorem stop_of_wbcMay {s : State} {c : CtrlMove} (hsto : s.sto = true) (h : s.wbcMay c = true) :
    ∃ onBus, c = .stop onBus := by
  obtain ⟨r, henabled, hoffers⟩ := Machine.State.wbcMay_iff.1 h
  cases r with
  | stop => exact ⟨true, by simpa [WbcRow.offers] using hoffers⟩
  | idleStop => exact ⟨false, by simpa [WbcRow.offers] using hoffers⟩
  | start | address | dataOut | repStart | dataIn =>
    simp [WbcRow.enabled, State.owning, hsto] at henabled

/-- Settles O46: each of the four arms that comes to its end has sent `SET_STO`. -/
theorem stopFollowsTheTerminalArms : Obligations.StopFollowsTheTerminalArms := by
  intro i s t hi hs h ht
  have harm : i.isArm = true := by
    simp only [List.mem_cons, List.not_mem_nil, or_false] at hi
    rcases hi with rfl | rfl | rfl | rfl <;> rfl
  have hsto : t.sto = true := by
    cases ArmStep.of_exec harm h with
    | slawNack | slarNack | dataTxNack | dataRxNack => rfl
    | dataRxNackOverrun => simp at ht
    | _ => simp at hi
  exact ⟨hsto, fun c => stop_of_wbcMay hsto⟩

end Sys2Proof

/-! ## Whole phases of a transaction (O53, O54)

Each arm takes one byte of the phase: what the bytes so far have left in the state is the invariant
of the induction. -/

namespace Sys2Proof

open Sys2Proof.Machine

variable {s t : State} {n a : Nat} {b : Byte}

/-! ### The write phase -/

/-- A run is the run of its first part, then of the rest. -/
theorem execSeq_append_of_next {is js : List Instr} (h : execSeq is s = .next t) :
    execSeq (is ++ js) s = execSeq js t := by
  induction is generalizing s with
  | nil => cases h; rfl
  | cons i is ih =>
    simp only [List.cons_append, execSeq] at h ⊢
    cases hi : exec i s with
    | next u => rw [hi] at h; exact ih h
    | fault f => rw [hi] at h; cases h
    | refused r => rw [hi] at h; cases h

theorem execSeq_cons_of_next {i : Instr} {is : List Instr} (h : exec i s = .next t) :
    execSeq (i :: is) s = execSeq is t := by simp only [execSeq, h]

/-- A command of the record is a byte sent exactly where its id is that of `WR_DAT` (R92, R160). -/
theorem sentBytes_of_cmdLog {w : CmdWord} {r : Option Byte}
    (h : t.cmdLog = s.cmdLog ++ [{ word := w, ret := r }]) :
    t.sentBytes = s.sentBytes ++ if cmdId w = 6 then [cmdOpnd w] else [] := by
  simp only [Machine.State.sentBytes, h, List.filterMap_append, List.filterMap_cons,
    List.filterMap_nil]
  split <;> simp_all

@[simp] theorem sentBytes_cmdWrDat (s : State) (b : Byte) :
    (s.cmdWrDat b).sentBytes = s.sentBytes ++ [b] := by
  simp [sentBytes_of_cmdLog (s.cmdWrDat_cmdLog b)]

@[simp] theorem sentBytes_cmdClrInt (s : State) : s.cmdClrInt.sentBytes = s.sentBytes := by
  simp [sentBytes_of_cmdLog s.cmdClrInt_cmdLog]

@[simp] theorem sentBytes_cmdClrSta (s : State) : s.cmdClrSta.sentBytes = s.sentBytes := by
  simp [sentBytes_of_cmdLog s.cmdClrSta_cmdLog]

@[simp] theorem sentBytes_cmdSetSto (s : State) : s.cmdSetSto.sentBytes = s.sentBytes := by
  simp [sentBytes_of_cmdLog s.cmdSetSto_cmdLog]

@[simp] theorem sentBytes_setWc (s : State) (n : Nat) : (s.setWc n).sentBytes = s.sentBytes := rfl

@[simp] theorem sentBytes_setTs (s : State) (v : TxState) :
    (s.setTs v).sentBytes = s.sentBytes := rfl

/-- `t` stands in the write phase that began in `s`, with the first `n` bytes of `WB` sent. -/
structure WritePhase (s t : State) (n : Nat) : Prop where
  cfg   : t.cfg = s.cfg
  mem   : t.mem = s.mem
  wl    : t.wl = s.wl
  rl    : t.rl = s.rl
  fault : t.fault = s.fault
  ts    : t.ts = .pending
  wc    : t.wc = n
  sent  : t.sentBytes = s.sentBytes ++ (List.range n).filterMap (s.byteAt .wb)

theorem WritePhase.byteAt (h : WritePhase s t n) (hb : s.byteAt .wb n = some b) :
    t.byteAt .wb t.wc = some b := by
  rw [State.byteAt_congr h.cfg h.mem, h.wc, hb]

/-- START_SENT begins the phase, with the first byte sent (R115). -/
theorem WritePhase.start (hb : s.byteAt .wb 0 = some b) :
    ∃ t, exec .startSent s = .next t ∧ WritePhase s t 1 := by
  refine ⟨_, (ArmStep.startSent hb).exec_eq, ?_⟩
  constructor <;> simp [hb]

/-- One more byte sent, and the cursor moved on: the outcome that SLAW_ACK and DATA_TX_ACK share. -/
theorem WritePhase.send (h : WritePhase s t n) (hb : s.byteAt .wb n = some b) :
    WritePhase s ((t.cmdWrDat b).setWc (t.wc + 1)).cmdClrInt (n + 1) := by
  obtain ⟨hcfg, hmem, hwl, hrl, hfault, hts, hwc, hsent⟩ := h
  constructor <;> simp [*, List.range_succ]

/-- DATA_TX_ACK goes on through the bytes up to `WL` (R123). -/
theorem WritePhase.dataTxAcks (hwb : ∀ a, a < s.wl → ∃ b, s.byteAt .wb a = some b) (k : Nat)
    (h : WritePhase s t n) (hk : n + k ≤ s.wl) :
    ∃ u, execSeq (List.replicate k .dataTxAck) t = .next u ∧ WritePhase s u (n + k) := by
  induction k generalizing t n with
  | zero => exact ⟨t, rfl, h⟩
  | succ k ih =>
    obtain ⟨b, hb⟩ := hwb n (by omega)
    have hwc : t.wc < t.wl := by rw [h.wc, h.wl]; omega
    obtain ⟨u, hu, hphase⟩ := ih (h.send hb) (by omega)
    rw [List.replicate_succ,
      execSeq_cons_of_next (ArmStep.dataTxAckSends hwc (h.byteAt hb)).exec_eq]
    exact ⟨u, hu, by rwa [Nat.add_right_comm] at hphase⟩

/-- The write phase up to any count of bytes: two whatever `WL` is, then those below it (R120). -/
theorem WritePhase.of_arms (hwf : s.mem.wf s.cfg) (hsize : 2 ≤ s.cfg.wbufSize)
    (hwl : s.wl ≤ s.cfg.wbufSize) (hn : 2 + n ≤ max s.wl 2) :
    ∃ t, execSeq (.startSent :: .slawAck :: List.replicate n .dataTxAck) s = .next t
      ∧ WritePhase s t (2 + n) := by
  have hwb : ∀ a, a < s.cfg.wbufSize → ∃ b, s.byteAt .wb a = some b :=
    fun a ha => State.byteAt_of_wf (sp := .wb) hwf ha
  obtain ⟨b0, hb0⟩ := hwb 0 (by omega)
  obtain ⟨b1, hb1⟩ := hwb 1 (by omega)
  obtain ⟨t1, hstart, hphase⟩ := WritePhase.start hb0
  rw [execSeq_cons_of_next hstart,
    execSeq_cons_of_next (ArmStep.slawAck (hphase.byteAt hb1)).exec_eq]
  cases n with
  | zero => exact ⟨_, rfl, hphase.send hb1⟩
  | succ n =>
    exact (hphase.send hb1).dataTxAcks (fun a ha => hwb a (by omega)) (n + 1) (by omega)

/-- Settles O53: the bytes go out one an arm, and the DATA_TX_ACK after the last ends the phase. -/
theorem writePhaseSendsTheBytesAndEndsInAck : Obligations.WritePhaseSendsTheBytesAndEndsInAck := by
  intro s hwf hsize hwl hrl
  have hprefix {n : Nat} (hn : 2 + n ≤ max s.wl 2) := WritePhase.of_arms hwf hsize hwl hn
  refine ⟨fun n hn => ?_, ?_⟩
  · obtain ⟨t, ht, hphase⟩ := hprefix (show 2 + n ≤ max s.wl 2 by omega)
    exact ⟨t, ht, hphase.ts⟩
  · obtain ⟨n, hn⟩ : ∃ n, max s.wl 2 = 2 + n := Nat.exists_eq_add_of_le (le_max_right _ _)
    obtain ⟨t, ht, hphase⟩ := hprefix hn.ge
    have hend : exec .dataTxAck t = .next (t.cmdSetSto.cmdClrInt.setTs .ack) :=
      (ArmStep.dataTxAckEnds (by rw [hphase.wl, hphase.wc]; omega) (hphase.rl.trans hrl)).exec_eq
    refine ⟨t.cmdSetSto.cmdClrInt.setTs .ack, ?_, rfl, rfl, by simp [hphase.fault], ?_⟩
    · rw [hn, show 2 + n - 1 = n + 1 by omega, List.replicate_succ', ← List.cons_append,
        ← List.cons_append, execSeq_append_of_next ht, execSeq_cons_of_next hend, execSeq]
    · simp [hphase.sent, hn]

/-! ### The read phase -/

/-- `t` is reached from `s` by receiving `vs` to the end of a transaction: the bytes stand in `RB`
from the cursor on, and every other element reads as before. -/
structure Received (s : State) (vs : List Byte) (t : State) : Prop where
  ts     : t.ts = .ack
  sto    : t.sto = true
  rc     : t.rc = s.rc + vs.length
  fault  : t.fault = s.fault
  stored : ∀ i, i < vs.length → t.byteAt .rb (s.rc + i) = vs[i]?
  others : ∀ sp a, ¬ (sp = .rb ∧ s.rc ≤ a ∧ a < s.rc + vs.length) → t.byteAt sp a = s.byteAt sp a

/-- The last byte alone (R132). -/
theorem Received.last {v : Byte} (hb : s.byteAt .rb s.rc = some b) :
    ∃ t, receiveSeq [v] s = .next t ∧ Received s [v] t := by
  have hlt := State.lt_capacity_of_byteAt hb
  refine ⟨_, exec_dataRxNack_of_byteAt (s := { s with dat := v }) hb, rfl, rfl, rfl, rfl, ?_, ?_⟩
  · intro i hi
    obtain rfl : i = 0 := by simpa using hi
    exact State.byteAt_putByte_same hlt
  · intro sp a ha
    refine State.byteAt_putByte_other (s := s) (i := s.rc) v (not_and_or.1 fun hel => ha ?_)
    exact ⟨hel.1, hel.2.ge, by simp [hel.2]⟩

/-- One byte stored at the cursor, then the rest from the next element on. -/
theorem Received.cons {u : State} {v : Byte} {vs : List Byte} (hcap : s.rc < s.cfg.rbufSize)
    (hcfg : u.cfg = s.cfg) (hmem : u.mem = s.mem.put .rb s.rc v) (hrc : u.rc = s.rc + 1)
    (hfault : u.fault = s.fault) (h : Received u vs t) : Received s (v :: vs) t := by
  have hput (sp : Space) (a : Nat) : u.byteAt sp a = (s.putByte .rb s.rc v).byteAt sp a :=
    State.byteAt_congr (s := s.putByte .rb s.rc v) hcfg hmem sp a
  refine ⟨h.ts, h.sto, ?_, h.fault.trans hfault, ?_, ?_⟩
  · rw [h.rc, hrc, List.length_cons]; omega
  · intro i hi
    cases i with
    | zero =>
      rw [Nat.add_zero, h.others .rb s.rc (by omega), hput, State.byteAt_putByte_same hcap]; rfl
    | succ i =>
      have hi' : i < vs.length := by simpa using hi
      rw [← Nat.add_assoc, Nat.add_right_comm, ← hrc, List.getElem?_cons_succ]
      exact h.stored i hi'
  · intro sp a ha
    rw [List.length_cons] at ha
    have hu : u.byteAt sp a = s.byteAt sp a := by
      rw [hput]
      exact State.byteAt_putByte_other v (not_and_or.1 fun hel => ha ⟨hel.1, by omega, by omega⟩)
    rw [← hu]
    exact h.others sp a fun hel => ha ⟨hel.1, by omega, by omega⟩

/-- A received byte that is not the last, as far as the rest of the phase depends on it (R130). -/
theorem exec_dataRxAck_of_received (v : Byte) (hrl : s.rl ≠ 0) (hb : s.byteAt .rb s.rc = some b) :
    ∃ u, exec .dataRxAck { s with dat := v } = .next u ∧ u.cfg = s.cfg ∧ u.rl = s.rl
      ∧ u.mem = s.mem.put .rb s.rc v ∧ u.rc = s.rc + 1 ∧ u.fault = s.fault :=
  ⟨_, exec_dataRxAck_of_byteAt (s := { s with dat := v }) hrl hb, rfl, rfl, rfl, rfl, rfl⟩

/-- A read phase from any cursor, with room for the bytes and a read length that counts them. -/
theorem Received.of_receiveSeq (vs : List Byte) (hne : vs ≠ []) (hwf : s.mem.wf s.cfg)
    (hrl : s.rl = s.rc + vs.length) (hsize : s.rl ≤ s.cfg.rbufSize) :
    ∃ t, receiveSeq vs s = .next t ∧ Received s vs t := by
  induction vs generalizing s with
  | nil => exact absurd rfl hne
  | cons v vs ih =>
    rw [List.length_cons] at hrl
    have hcap : s.rc < s.cfg.rbufSize := by omega
    obtain ⟨b, hb⟩ := State.byteAt_of_wf (sp := .rb) hwf hcap
    cases vs with
    | nil => exact Received.last hb
    | cons w vs =>
      obtain ⟨u, hu, hcfg, hurl, hmem, hrc, hfault⟩ :=
        exec_dataRxAck_of_received v (show s.rl ≠ 0 by omega) hb
      have huwf : u.mem.wf u.cfg := by
        rw [hcfg, hmem]; exact Memory.put_wf (sp := .rb) hwf hcap v
      obtain ⟨t, ht, hrest⟩ := ih (by simp) huwf (by omega) (by rw [hurl, hcfg]; exact hsize)
      simp only [receiveSeq, hu]
      exact ⟨t, ht, .cons hcap hcfg hmem hrc hfault hrest⟩

/-- Settles O54: the read phase whose cursor starts at 0. -/
theorem readPhaseStoresTheBytesAndEndsInAck : Obligations.ReadPhaseStoresTheBytesAndEndsInAck := by
  intro s vs hwf hne hrl hsize hrc
  obtain ⟨t, ht, hrx⟩ := Received.of_receiveSeq vs hne hwf (by omega) hsize
  obtain ⟨hts, hsto, htrc, hfault, hstored, hothers⟩ := hrx
  rw [hrc, Nat.zero_add] at htrc hothers
  refine ⟨t, ht, hts, hsto, htrc.trans hrl.symm, hfault, fun i hi => ?_, fun sp i hi => ?_⟩
  · simpa [hrc] using hstored i (hrl ▸ hi)
  · exact hothers sp i fun h => hi ⟨h.1, hrl ▸ h.2.2⟩

end Sys2Proof

/-! ## The controller commands and the foreground operations (O26 to O36, O38, O55, O60)

A foreground operation answers in an idle phase, in its own phases, and in no other. EXECUTE
has one equation for each phase: what it answers there under each guard. Its frame reads off `FgStep`
what a step of it can write. -/

namespace Sys2Proof.Machine

variable {s t : State} {bytes : List Byte} {wl rl : Nat} {r : Request}

/-! ### Requests -/

theorem Phase.idle_iff {ph : Phase} : ph.idle = true ↔ ph = .off ∨ ph = .ready := by
  cases ph <;> simp [Phase.idle]

/-- A foreground operation is what its own request asks for (R94). -/
theorem Request.ofInstr_instr (r : Request) : Request.ofInstr r.instr = some r := by
  cases r <;> rfl

/-- FG takes up a request that it accepts (R141). -/
theorem hostRequest_of_accepting {op : BitVec 4} {args : FgArgs} (hacc : s.accepting = true)
    (hdec : decodeFgop op args = .ok r.instr) : hostRequest op args s = s.accept r := by
  simp only [hostRequest, hdec, Request.ofInstr_instr, hacc, if_true]

/-- A request that FG does not accept changes nothing (R200). -/
theorem hostRequest_of_not_accepting (op : BitVec 4) (args : FgArgs)
    (hacc : ¬ s.accepting = true) : hostRequest op args s = s := by
  obtain h | ⟨_, h, -⟩ := hostRequest_cases op args s
  · exact h
  · exact absurd h hacc

/-- Outside the idle phases and its own phases an operation does nothing (log 24). -/
theorem exec_instr_of_foreign_phase (hidle : s.fgph.idle = false)
    (hfits : phaseFits s.fgph (some r) = false) : exec r.instr s = .next s := by
  cases r with
  | init | halt => simp only [Request.instr, exec, execInit, execHalt, hidle]
  | execute bytes wl rl =>
    simp only [Request.instr, exec, execExecute]
    cases hph : s.fgph with
    | off | ready => simp [hph, Phase.idle] at hidle
    | xCheck | xLoad | xArmTS | xArmWC | xArmRC | xArmSta | xWaitStart | xTimeout | xWaitTerm
    | xCopy => simp [hph, phaseFits, Phase.inEngine] at hfits
    | _ => rfl
  | capture =>
    simp only [Request.instr, exec, execCapture]
    cases hph : s.fgph with
    | off | ready => simp [hph, Phase.idle] at hidle
    | cInit | cWaitFrameEnd | cWaitFrameStart | cLineHead | cWaitLineStart | cPairHeadLA
    | cPairHeadFA | cSampleA | cSampleB | cWaitLineEnd =>
      simp [hph, phaseFits, Phase.inCapture] at hfits
    | _ => rfl

/-! ### INIT and HALT -/

theorem exec_init_of_idle (p : Byte) (hph : s.fgph.idle = true) (hi : s.initd = false) :
    exec (.init p) s = .next (s.cmdCfgEn p).setInitd.ret := by
  simp [exec, execInit, hph, hi]

theorem exec_init_twice (p : Byte) (hph : s.fgph.idle = true) (hi : s.initd = true) :
    exec (.init p) s = .next (s.raise (.initTwice (.init p))) := by
  simp [exec, execInit, hph, hi]

theorem exec_halt_of_idle (hph : s.fgph.idle = true) :
    exec .halt s = .next { s with halted := true, fgph := .halted, req := none } := by
  simp [exec, execHalt, hph]

/-- INIT returns, or faults, or is out of place. -/
theorem exec_init_cases {p : Byte} (h : exec (.init p) s = .next t) :
    t = s ∨ t = (s.cmdCfgEn p).setInitd.ret ∨ t = s.raise (.initTwice (.init p)) := by
  cases hph : s.fgph.idle with
  | false =>
    cases h.symm.trans (exec_instr_of_foreign_phase (r := .init p) hph hph)
    exact .inl rfl
  | true =>
    cases hi : s.initd with
    | false => rw [exec_init_of_idle p hph hi] at h; cases h; exact .inr (.inl rfl)
    | true => rw [exec_init_twice p hph hi] at h; cases h; exact .inr (.inr rfl)

/-- HALT halts, or is out of place. -/
theorem exec_halt_cases (h : exec .halt s = .next t) :
    t = s ∨ t = { s with halted := true, fgph := .halted, req := none } := by
  cases hph : s.fgph.idle with
  | false =>
    cases h.symm.trans (exec_instr_of_foreign_phase (r := .halt) hph hph)
    exact .inl rfl
  | true => rw [exec_halt_of_idle hph] at h; cases h; exact .inr rfl

/-- In `Halted` no operation has a step (R153). -/
theorem fgStep_of_halted (hph : s.fgph = .halted) : fgStep s = .next s := by
  unfold fgStep
  split
  next r _ _ =>
    exact exec_instr_of_foreign_phase (by rw [hph]; rfl) (by rw [hph]; cases r <;> rfl)
  next => rfl
  next => rfl

/-! ### The check of EXECUTE (R143) -/

/-- The admission check, as R143 writes it. -/
theorem admissible_iff {p : Params} {b0 : Byte} :
    admissible p bytes wl rl b0 = true ↔
      bytes.length ≤ p.wbufSize ∧ wl ≤ p.wbufSize ∧ rl ≤ p.rbufSize
        ∧ ¬ (rl = 0 ∧ b0.getLsbD 0 = true)
        ∧ ¬ (0 < rl ∧ b0.getLsbD 0 = false ∧ p.wbufSize ≤ max wl 2) := by
  unfold admissible readIntent restartIndex
  simp only [Bool.and_eq_true, Bool.not_eq_true', ← Bool.not_eq_true, decide_eq_true_eq, and_assoc]

theorem exec_execute_of_idle (hph : s.fgph.idle = true) :
    exec (.execute bytes wl rl) s = .next (s.start (.execute bytes wl rl) .xCheck) := by
  obtain h | h := Phase.idle_iff.1 hph
  all_goals simp only [exec, execExecute, h]

theorem exec_execute_of_returning (hph : s.fgph = .xCheck) (hr : s.returning = true) :
    exec (.execute bytes wl rl) s = .next s.returnNow := by
  simp [exec, execExecute, hph, hr]

theorem execXCheck_of_not_initd (hi : s.initd = false) :
    execXCheck bytes wl rl s = .next (s.raise (.notInitialized (.execute bytes wl rl))) := by
  simp [execXCheck, hi]

theorem execXCheck_cons (b0 : Byte) (hi : s.initd = true) :
    execXCheck (b0 :: bytes) wl rl s = execXVerdict (b0 :: bytes) wl rl State.ret s b0 := by
  simp [execXCheck, hi]

/-- Without bytes the verdict is on `WB[0]`, and a rejection returns in the next step (log 10). -/
theorem execXCheck_nil {b0 : Byte} (hi : s.initd = true) (hb : s.byteAt .wb 0 = some b0) :
    execXCheck [] wl rl s = execXVerdict [] wl rl State.returnNext s b0 := by
  rw [execXCheck, if_pos hi]
  exact State.load_of_some hb

/-! ### The other phases of EXECUTE (R144 to R150) -/

theorem exec_execute_xArmTS (hph : s.fgph = .xArmTS) :
    exec (.execute bytes wl rl) s = .next ((s.setTs .idle).goto .xArmWC) := by
  simp only [exec, execExecute, hph]

theorem exec_execute_xArmWC (hph : s.fgph = .xArmWC) :
    exec (.execute bytes wl rl) s = .next ((s.setWc 0).goto .xArmRC) := by
  simp only [exec, execExecute, hph]

theorem exec_execute_xArmRC (hph : s.fgph = .xArmRC) :
    exec (.execute bytes wl rl) s = .next ((s.setRc 0).goto .xArmSta) := by
  simp only [exec, execExecute, hph]

theorem exec_execute_xArmSta (hph : s.fgph = .xArmSta) :
    exec (.execute bytes wl rl) s = .next ((s.setK 0).cmdSetSta.goto .xWaitStart) := by
  simp only [exec, execExecute, hph]

/-- A poll that finds the transaction begun. -/
theorem exec_execute_started (hph : s.fgph = .xWaitStart) (hts : s.ts = .pending) :
    exec (.execute bytes wl rl) s = .next (s.goto .xWaitTerm) := by
  simp only [exec, execExecute, hph, execXWaitStart, hts, if_true]

/-- A poll that goes on waiting. -/
theorem exec_execute_polled (hph : s.fgph = .xWaitStart) (hts : s.ts ≠ .pending)
    (hk : s.k + 1 < s.cfg.startTimeoutPolls) :
    exec (.execute bytes wl rl) s = .next (s.setK (s.k + 1)) := by
  simp [exec, execExecute, hph, execXWaitStart, hts, hk.not_ge]

/-- The poll that reaches the bound. -/
theorem exec_execute_timedOut (hph : s.fgph = .xWaitStart) (hts : s.ts ≠ .pending)
    (hk : s.cfg.startTimeoutPolls ≤ s.k + 1) :
    exec (.execute bytes wl rl) s = .next ((s.setK (s.k + 1)).goto .xTimeout) := by
  simp [exec, execExecute, hph, execXWaitStart, hts, hk]

theorem exec_execute_xTimeout (hph : s.fgph = .xTimeout) :
    exec (.execute bytes wl rl) s
      = .next { s.cmdSetSto with
          res := timeoutCode, rbytes := [], fgph := s.idlePhase, req := none } := by
  simp only [exec, execExecute, hph, execXTimeout]; rfl

theorem exec_execute_xWaitTerm (hph : s.fgph = .xWaitTerm) :
    exec (.execute bytes wl rl) s = execXWaitTerm s := by
  simp only [exec, execExecute, hph]

theorem TxState.terminal_iff {v : TxState} :
    v.terminal = true ↔ v ∈ [.ack, .nack, .slaNack, .arbitrationLoss] := by
  cases v <;> simp [TxState.terminal]

theorem TxState.not_terminal_iff {v : TxState} :
    ¬ v.terminal = true ↔ v ∈ [.idle, .pending] := by
  cases v <;> simp [TxState.terminal]

/-! ### What a step of EXECUTE writes -/

/-- The registers a step of EXECUTE can write. -/
theorem FgStep.execute_frame (h : FgStep s (.execute bytes wl rl) t) :
    t = { s with
      ts := t.ts, wl := t.wl, rl := t.rl, wc := t.wc, rc := t.rc, mem := t.mem, k := t.k
      res := t.res, rbytes := t.rbytes, fgph := t.fgph, req := t.req, returning := t.returning
      sta := t.sta, sto := t.sto, fault := t.fault, cmdLog := t.cmdLog } := by
  rw [State.eq_iff_fields]
  cases h <;> simp

/-- The registers that one phase of EXECUTE writes (R144 to R148), each with the phase. -/
theorem FgStep.execute_registers (h : FgStep s (.execute bytes wl rl) t) :
    (s.fgph ≠ .xArmTS → t.ts = s.ts)
    ∧ (s.fgph ≠ .xArmWC → t.wc = s.wc) ∧ (s.fgph ≠ .xArmRC → t.rc = s.rc)
    ∧ (s.fgph ≠ .xArmSta → t.sta = s.sta) ∧ (s.fgph ≠ .xTimeout → t.sto = s.sto)
    ∧ ((∀ i, s.fgph ≠ .xLoad i) → t.wl = s.wl ∧ t.rl = s.rl) := by
  cases h with
  | armTs hph | armWc hph | armRc hph | armSta hph | timeout hph | loadWl hph | loadRl hph =>
    simp [hph]
  | _ => simp

/-- A step of EXECUTE leaves the arrays, or is the load step `i`, which writes `WB[i]` (R144). -/
theorem FgStep.execute_mem (h : FgStep s (.execute bytes wl rl) t) :
    t.mem = s.mem
    ∨ ∃ i v, s.fgph = .xLoad i ∧ i < bytes.length ∧ t.mem = s.mem.put .wb i v := by
  cases h with
  | @loadByte _ _ _ i _ hph hi => exact .inr ⟨i, bytes[i], hph, hi, by simp⟩
  | _ => left; simp

/-- Under the bounds every element that a step of EXECUTE accesses exists, so `NotInitialized` is
the one fault left (R143). -/
theorem FgStep.execute_fault (hwf : s.mem.wf s.cfg) (hsize : 0 < s.cfg.wbufSize)
    (hs : s.BoundsOk) (hreq : s.req = some (.execute bytes wl rl))
    (h : FgStep s (.execute bytes wl rl) t) :
    t.fault = s.fault
    ∨ s.fgph = .xCheck ∧ t.fault = some (.notInitialized (.execute bytes wl rl)) := by
  have element {sp : Space} {i : Nat} (hi : i < sp.capacity s.cfg) : s.byteAt sp i ≠ none := by
    obtain ⟨b, hb⟩ := State.byteAt_of_wf hwf hi
    simp [hb]
  cases h with
  | checkOverrun _ _ _ hb => exact absurd hb (element hsize)
  | loadOverrun hph hi hb =>
    obtain ⟨hlen, -, -⟩ := hs.loaded _ _ _ hreq (by rw [hph]; rfl) (by simp [hph])
    exact absurd hb (element (sp := .wb) (hi.trans_le hlen))
  | copyOverrun _ hj hb => exact absurd hb (element (sp := .rb) (hj.trans_le hs.rl))
  | notInitialized hph => exact .inr ⟨hph, rfl⟩
  | _ => left; simp

/-- The one access of DATA_TX_ACK is below `WL` (R123). -/
theorem ArmStep.dataTxAck_fault (hwf : s.mem.wf s.cfg) (hs : s.BoundsOk)
    (h : ArmStep s .dataTxAck t) : t.fault = s.fault := by
  cases h with
  | dataTxAckOverrun hwc hb =>
    obtain ⟨b, hb'⟩ := State.byteAt_of_wf (sp := .wb) hwf (hwc.trans_le hs.wl)
    rw [hb'] at hb; cases hb
  | _ => simp

end Sys2Proof.Machine

namespace Sys2Proof

open Sys2Proof.Machine

/-! ### The commands -/

/-- Settles O26: each command is its own action, with its word recorded. -/
theorem commandsDoTheirOneAction : Obligations.CommandsDoTheirOneAction :=
  fun _ _ => ⟨rfl, rfl, rfl, rfl, rfl, rfl, rfl, rfl, rfl, rfl⟩

/-- Settles O27: the registers each command writes, none of them an array. -/
theorem commandsFrame : Obligations.CommandsFrame := by
  intro i s t hi h
  have hframe := command_frame hi h
  refine ⟨hframe, State.byteAt_congr (by rw [hframe]) (by rw [hframe]), ?_⟩
  cases i with
  | clrInt | setSta | clrSta | setSto | setAa | clrAa | wrDat | rdDat | rdSts | cfgEn =>
    cases h; simp
  | _ => cases hi

/-! ### INIT, HALT and requests -/

/-- Settles O28: the two outcomes of INIT in an idle phase. -/
theorem initEnablesTheController : Obligations.InitEnablesTheController := by
  refine ⟨fun _ => rfl, fun p s hph => ⟨fun hi => ?_, exec_init_twice p hph⟩⟩
  exact exec_init_of_idle p hph hi

/-- Settles O29: `Halted` is no idle phase and no phase of an operation. -/
theorem haltStopsTheForeground : Obligations.HaltStopsTheForeground := by
  refine ⟨fun _ => rfl, fun s => exec_halt_of_idle, fun s hph => ?_⟩
  have hacc : ¬ s.accepting = true := by simp [State.accepting, hph, Phase.idle]
  refine ⟨fgStep_of_halted hph, fun op args => ?_, ?_, .inr hph, ?_⟩
  · exact congrArg Host.Outcome.next (hostRequest_of_not_accepting op args hacc)
  · simp [State.isrEnabled, State.irq, and_assoc]
  · rintro hhalted ⟨-, -, hrunning⟩
    simp [hhalted] at hrunning

/-- Settles O30: the outcomes of INIT and of HALT, and none writes an array. -/
theorem initAndHaltFrame : Obligations.InitAndHaltFrame := by
  rintro i s t (⟨p, rfl⟩ | rfl) h
  · obtain rfl | rfl | rfl := exec_init_cases h
    all_goals exact ⟨rfl, fun _ _ => rfl, nofun, fun _ => rfl⟩
  · obtain rfl | rfl := exec_halt_cases h
    all_goals exact ⟨rfl, fun _ _ => rfl, fun _ => ⟨rfl, rfl, rfl, rfl, rfl, rfl⟩, (absurd rfl ·)⟩

/-- Settles O31: the condition is that of acceptance, and the four codes decode. -/
theorem requestsAreAcceptedOnlyWhenIdle : Obligations.RequestsAreAcceptedOnlyWhenIdle := by
  intro s args
  rw [← Phase.idle_iff, ← State.accepting_iff]
  refine ⟨fun hacc => ?_, fun hacc op => ?_⟩
  · have accepted {op : BitVec 4} {r : Request} (hdec : decodeFgop op args = .ok r.instr) :
        perform (.op op args) s = .next (s.accept r) :=
      congrArg Host.Outcome.next (hostRequest_of_accepting hacc hdec)
    exact ⟨accepted (r := .init _) rfl, accepted (r := .execute _ _ _) rfl,
      accepted (r := .capture) rfl, accepted (r := .halt) rfl⟩
  · exact congrArg Host.Outcome.next (hostRequest_of_not_accepting op args hacc)

/-- Settles O32: the first steps of EXECUTE and CAPTURE, and the phases that are none of theirs. -/
theorem foregroundOperationOutsideItsPhases :
    Obligations.ForegroundOperationOutsideItsPhases := by
  intro s p bytes wl rl
  refine ⟨fun hidle => ⟨exec_execute_of_idle hidle, ?_⟩, fun hidle => ?_⟩
  · obtain hph | hph := Phase.idle_iff.1 hidle
    all_goals simp only [exec, execCapture, hph]; rfl
  · exact ⟨exec_instr_of_foreign_phase (r := .init p) hidle hidle,
      exec_instr_of_foreign_phase (r := .halt) hidle hidle,
      exec_instr_of_foreign_phase (r := .execute bytes wl rl) hidle,
      exec_instr_of_foreign_phase (r := .capture) hidle⟩

/-! ### EXECUTE -/

/-- Settles O33: the verdict on the first byte, given or read from `WB[0]`. -/
theorem executeChecksTheRequest : Obligations.ExecuteChecksTheRequest := by
  refine ⟨fun _ => rfl, fun s bytes wl rl hph => ⟨?_, ?_, exec_execute_of_returning hph⟩⟩
  · intro hr hi
    rw [exec_execute_xCheck hph hr, execXCheck_of_not_initd hi]; rfl
  · intro b0 hr hi hb0
    have hready : s.idlePhase = .ready := State.idlePhase_of_initd hi
    rw [exec_execute_xCheck hph hr]
    simp only [← admissible_iff]
    cases bytes with
    | nil =>
      have hwb : s.byteAt .wb 0 = some b0 := by simpa using hb0
      rw [execXCheck_nil hi hwb]; rfl
    | cons b bytes =>
      obtain rfl : b = b0 := by simpa using hb0
      rw [execXCheck_cons b hi, if_neg (List.cons_ne_nil b bytes), ← hready]; rfl

/-- Settles O34: the three kinds of load step, the arm steps and the START. -/
theorem executeLoadsArmsAndStarts : Obligations.ExecuteLoadsArmsAndStarts := by
  intro s bytes wl rl i
  refine ⟨?_, ?_, ?_, exec_execute_xArmTS, exec_execute_xArmWC, exec_execute_xArmRC,
    exec_execute_xArmSta⟩
  · intro hph b hb hwf hsize
    obtain ⟨hi, rfl⟩ := List.getElem?_eq_some_iff.1 hb
    obtain ⟨b', hb'⟩ := State.byteAt_of_wf (sp := .wb) hwf hsize
    rw [exec_execute_xLoad hph, execXLoad, dif_pos hi]
    exact State.store_of_some hb'
  · rintro hph rfl
    rw [exec_execute_xLoad hph, execXLoad, dif_neg (lt_irrefl _), if_pos rfl]; rfl
  · intro hph hi
    rw [exec_execute_xLoad hph, execXLoad, dif_neg hi.not_gt, if_neg hi.ne']; rfl

/-- Settles O35: the three outcomes of a poll, and the timeout. -/
theorem executePollsForTheStart : Obligations.ExecutePollsForTheStart := by
  intro s bytes wl rl
  exact ⟨exec_execute_started, exec_execute_polled, exec_execute_timedOut, exec_execute_xTimeout⟩

/-- Settles O36: a terminal value ends the wait, and `RL` the copy. -/
theorem executeWaitsAndReturnsTheBytes : Obligations.ExecuteWaitsAndReturnsTheBytes := by
  intro s bytes wl rl j
  refine ⟨?_, ?_, ?_, ?_⟩
  · intro hph hts
    rw [exec_execute_xWaitTerm hph, execXWaitTerm, if_neg (TxState.not_terminal_iff.2 hts)]
  · intro hph hts
    rw [exec_execute_xWaitTerm hph, execXWaitTerm, if_pos (TxState.terminal_iff.2 hts)]; rfl
  · intro hph hj b hb
    rw [exec_execute_xCopy hph, execXCopy, if_pos hj]
    exact State.load_of_some hb
  · intro hph hj
    rw [exec_execute_xCopy hph, execXCopy, if_neg hj.not_gt]; rfl

/-- Settles O38: the frame, the registers of single phases and the one element. -/
theorem executeFrame : Obligations.ExecuteFrame := by
  intro s t bytes wl rl h
  have hstep : FgStep s (.execute bytes wl rl) t := .of_execute h
  refine ⟨hstep.execute_frame, fun sp a ha => ?_, hstep.execute_registers⟩
  have hcfg : t.cfg = s.cfg := by rw [hstep.execute_frame]
  obtain hmem | ⟨i, v, hph, hi, hmem⟩ := hstep.execute_mem
  · exact State.byteAt_congr hcfg hmem sp a
  · have hother : sp ≠ .wb ∨ a ≠ i := by
      refine not_and_or.1 ?_
      rintro ⟨rfl, rfl⟩
      exact ha ⟨rfl, hph, hi⟩
    calc t.byteAt sp a
      _ = (s.putByte .wb i v).byteAt sp a :=
        State.byteAt_congr (s := s.putByte .wb i v) hcfg hmem sp a
      _ = s.byteAt sp a := State.byteAt_putByte_other v hother

/-- A run of `n + 1` polls is a run of `n` and one more. -/
theorem pollSeq_succ_of_next {s t u : State} {bytes : List Byte} {wl rl n : Nat}
    (hn : pollSeq bytes wl rl n s = .next t) (h : exec (.execute bytes wl rl) t = .next u) :
    pollSeq bytes wl rl (n + 1) s = .next u := by
  rw [pollSeq, List.replicate_succ', execSeq_append_of_next hn, execSeq_cons_of_next h, execSeq]

/-- Settles O55: below the bound a poll counts, and the one that reaches it ends the wait. -/
theorem timeoutAfterExactlyTheBound : Obligations.TimeoutAfterExactlyTheBound := by
  intro s bytes wl rl hph hk hts hbound
  have waiting (n : Nat) (hn : n < s.cfg.startTimeoutPolls) :
      pollSeq bytes wl rl n s = .next (s.setK n) := by
    induction n with
    | zero =>
      have hs : s.setK 0 = s := by rw [← hk]; rfl
      rw [hs]; rfl
    | succ n ih =>
      exact pollSeq_succ_of_next (ih (by omega)) (exec_execute_polled (s := s.setK n) hph hts hn)
  refine ⟨waiting, ?_⟩
  obtain ⟨n, hn⟩ : ∃ n, s.cfg.startTimeoutPolls = n + 1 := ⟨_, (Nat.sub_add_cancel hbound).symm⟩
  rw [hn]
  exact pollSeq_succ_of_next (waiting n (by omega))
    (exec_execute_timedOut (s := s.setK n) hph hts hn.le)

/-- Settles O60: every access lies within its buffer. -/
theorem engineAndDataTxAckNeverOverrun : Obligations.EngineAndDataTxAckNeverOverrun := by
  intro s t hwf hsize hs
  refine ⟨fun bytes wl rl hreq hf h => ?_, fun h => ?_⟩
  · obtain rfl | ⟨r, hr, -, hstep⟩ := FgStep.of_fgStep h
    · exact .inl hf
    · obtain rfl : r = .execute bytes wl rl := Option.some.inj (hr.symm.trans hreq)
      rw [← hf]
      exact hstep.execute_fault hwf (by omega) hs hreq
  · exact ArmStep.dataTxAck_fault hwf hs (.of_dataTxAck h)

end Sys2Proof


/-! ## CAPTURE (O39 to O43)

CAPTURE has one equation for each phase, and `sample()` one for each sub-step, in both poll orders;
each says where FG goes as one `goto`, the phase it stands at where it waits. -/

namespace Sys2Proof.Machine

variable {s t : State}

/-! ### The frame, line and pair heads (R171 to R176, R180, R181) -/

/-- A poll that waits leaves FG at the phase it stands at. -/
theorem State.goto_self {ph : Phase} (hph : s.fgph = ph) : s.goto ph = s := by
  subst hph; rfl

/-- A poll goes to one phase or to another. -/
theorem next_goto_ite (c : Prop) [Decidable c] (s : State) (ph ph' : Phase) :
    (.next (s.goto (if c then ph else ph')) : Out)
      = if c then .next (s.goto ph) else .next (s.goto ph') :=
  apply_ite (fun ph => (.next (s.goto ph) : Out)) c ph ph'

/-- The first sub-step, by the poll order (R177). -/
theorem Sub.first_eq (o : PollOrder) :
    Sub.first o = if o = .lowThenHigh then .waitLow else .waitHigh := by
  cases o <;> rfl

theorem exec_capture_cInit (hph : s.fgph = .cInit) :
    exec .capture s = .next ((s.setPix 0).goto .cWaitFrameEnd) := by
  simp only [exec, execCapture, hph]

theorem exec_capture_cWaitFrameEnd (hph : s.fgph = .cWaitFrameEnd) :
    exec .capture s = .next (s.goto (if s.fa then .cWaitFrameEnd else .cWaitFrameStart)) := by
  simp only [exec, execCapture, hph, next_goto_ite, State.goto_self hph]

theorem exec_capture_cWaitFrameStart (hph : s.fgph = .cWaitFrameStart) :
    exec .capture s = .next (s.goto (if s.fa then .cLineHead else .cWaitFrameStart)) := by
  simp only [exec, execCapture, hph, next_goto_ite, State.goto_self hph]

theorem exec_capture_cLineHead (hph : s.fgph = .cLineHead) (hr : s.returning = false) :
    exec .capture s = if s.fa then .next (s.goto .cWaitLineStart) else .next s.returnNext := by
  simp only [exec, execCapture, hph, hr, Bool.false_eq_true, if_false]

theorem exec_capture_cWaitLineStart (hph : s.fgph = .cWaitLineStart) :
    exec .capture s = .next (s.goto (if s.la then .cPairHeadLA else .cLineHead)) := by
  simp only [exec, execCapture, hph, next_goto_ite]

theorem exec_capture_cPairHeadLA (hph : s.fgph = .cPairHeadLA) :
    exec .capture s = .next (s.goto (if s.la then .cPairHeadFA else .cWaitLineEnd)) := by
  simp only [exec, execCapture, hph, next_goto_ite]

theorem exec_capture_cPairHeadFA (hph : s.fgph = .cPairHeadFA) (hr : s.returning = false) :
    exec .capture s = if s.fa then .next (s.goto (.cSampleA (Sub.first s.cfg.pollOrder)))
      else .next s.returnNext := by
  simp only [exec, execCapture, hph, hr, Bool.false_eq_true, if_false]

theorem exec_capture_cWaitLineEnd (hph : s.fgph = .cWaitLineEnd) :
    exec .capture s = .next (s.goto (if s.la then .cWaitLineEnd else .cLineHead)) := by
  simp only [exec, execCapture, hph, next_goto_ite, State.goto_self hph]

/-- A head whose return is due returns (R142, log 10). -/
theorem exec_capture_of_returning (hph : s.fgph = .cLineHead ∨ s.fgph = .cPairHeadFA)
    (hr : s.returning = true) : exec .capture s = .next s.returnNow := by
  obtain hph | hph := hph
  all_goals simp only [exec, execCapture, hph, hr, if_true]

theorem exec_capture_cSampleA {sub : Sub} (hph : s.fgph = .cSampleA sub) :
    exec .capture s = execCSampleA sub s := by
  simp only [exec, execCapture, hph]

theorem exec_capture_cSampleB {sub : Sub} (hph : s.fgph = .cSampleB sub) :
    exec .capture s = execCSampleB sub s := by
  simp only [exec, execCapture, hph]

/-! ### The sub-steps of `sample()` (R177) -/

section SampleStep
variable {at_ : Sub → Phase} {after : Phase} {put : Byte → Phase → Out}

theorem sampleStep_waitLow (hph : s.fgph = at_ .waitLow) :
    sampleStep .waitLow at_ after put s = .next (s.goto (if s.pclk then at_ .waitLow
      else if s.cfg.pollOrder = .lowThenHigh then at_ .waitHigh else after)) := by
  rw [next_goto_ite, State.goto_self hph]
  cases ho : s.cfg.pollOrder <;> simp [sampleStep, ho]

theorem sampleStep_waitHigh (hph : s.fgph = at_ .waitHigh) :
    sampleStep .waitHigh at_ after put s
      = .next (s.goto (if s.pclk then at_ .readD else at_ .waitHigh)) := by
  rw [next_goto_ite, State.goto_self hph]
  cases ho : s.cfg.pollOrder <;> simp only [sampleStep, ho]

theorem sampleStep_readD :
    sampleStep .readD at_ after put s = .next (s.goto (at_ (.store s.d))) := by
  cases ho : s.cfg.pollOrder <;> simp only [sampleStep, ho]

theorem sampleStep_store (v : Byte) :
    sampleStep (.store v) at_ after put s
      = put v (if s.cfg.pollOrder = .lowThenHigh then after else at_ .waitLow) := by
  cases ho : s.cfg.pollOrder <;> simp [sampleStep, ho]

end SampleStep

/-! ### The store steps (R178, R179) -/

section Store
variable {v b : Byte}

theorem exec_capture_storeA (hph : s.fgph = .cSampleA (.store v))
    (hb : s.byteAt .a s.pix = some b) :
    exec .capture s = .next ((s.putByte .a s.pix v).goto
      (if s.cfg.pollOrder = .lowThenHigh then .cSampleB (Sub.first s.cfg.pollOrder)
        else .cSampleA .waitLow)) := by
  rw [exec_capture_cSampleA hph, execCSampleA, sampleStep_store, State.store_of_some hb]

theorem exec_capture_storeB (hph : s.fgph = .cSampleB (.store v))
    (hb : s.byteAt .b s.pix = some b) :
    exec .capture s = .next (((s.putByte .b s.pix v).setPix (s.pix + 1)).goto
      (if s.cfg.pollOrder = .lowThenHigh then .cPairHeadLA else .cSampleB .waitLow)) := by
  rw [exec_capture_cSampleB hph, execCSampleB, sampleStep_store, State.store_of_some hb]; rfl

theorem exec_capture_overrunA (hph : s.fgph = .cSampleA (.store v))
    (hb : s.byteAt .a s.pix = none) :
    exec .capture s = .next (s.raise (.planeOverflow .a s.pix)) := by
  rw [exec_capture_cSampleA hph, execCSampleA, sampleStep_store, State.store_of_none hb]; rfl

theorem exec_capture_overrunB (hph : s.fgph = .cSampleB (.store v))
    (hb : s.byteAt .b s.pix = none) :
    exec .capture s = .next (s.raise (.planeOverflow .b s.pix)) := by
  rw [exec_capture_cSampleB hph, execCSampleB, sampleStep_store, State.store_of_none hb]; rfl

end Store

/-! ### What a step of CAPTURE writes -/

/-- The registers a step of CAPTURE can write (R170). -/
theorem FgStep.capture_frame (h : FgStep s .capture t) :
    t = { s with
      mem := t.mem, fgph := t.fgph, req := t.req, returning := t.returning, pix := t.pix
      fault := t.fault } := by
  rw [State.eq_iff_fields]
  cases h <;> simp

/-- A step of CAPTURE leaves the arrays, or is a store step, which writes its plane at `PIX` (R178,
R179). -/
theorem FgStep.capture_mem (h : FgStep s .capture t) :
    t.mem = s.mem
    ∨ ∃ sp v, ((sp = .a ∧ ∃ w, s.fgph = .cSampleA (.store w))
        ∨ (sp = .b ∧ ∃ w, s.fgph = .cSampleB (.store w))) ∧ t.mem = s.mem.put sp s.pix v := by
  cases h with
  | @storeA v _ _ hph => exact .inr ⟨.a, v, .inl ⟨rfl, v, hph⟩, by simp⟩
  | @storeB v _ _ hph => exact .inr ⟨.b, v, .inr ⟨rfl, v, hph⟩, by simp⟩
  | _ => left; simp

/-- After one element has been written every other element reads as before. -/
theorem State.byteAt_of_mem_put {sp sp' : Space} {i j : Nat} {v : Byte} (hcfg : t.cfg = s.cfg)
    (hmem : t.mem = s.mem.put sp i v) (h : sp' ≠ sp ∨ j ≠ i) :
    t.byteAt sp' j = s.byteAt sp' j :=
  (State.byteAt_congr (s := s.putByte sp i v) hcfg hmem sp' j).trans
    (State.byteAt_putByte_other v h)

/-! ### The frame and line signals within a pair (R184) -/

/-- The state with other levels of `FA` and `LA`. -/
def State.withLines (s : State) (fa la : Bool) : State := { s with fa := fa, la := la }

section Lines
variable {fa la : Bool}

/-- A store reads neither signal. -/
theorem State.store_withLines {sp : Space} {i : Nat} {v : Byte} {code : Option Byte}
    {k : State → Out}
    (hk : ∀ u, k u = .next t → k (u.withLines fa la) = .next (t.withLines fa la))
    (h : s.store sp i v code k = .next t) :
    (s.withLines fa la).store sp i v code k = .next (t.withLines fa la) := by
  obtain ⟨b, hb, h⟩ | ⟨hb, h⟩ := State.store_cases h
  · exact (State.store_of_some (s := s.withLines fa la) hb).trans (hk _ h)
  · cases h; exact State.store_of_none (s := s.withLines fa la) hb

/-- No sub-step of `sample()` reads either signal. -/
theorem sampleStep_withLines {sub : Sub} {at_ : Sub → Phase} {after : Phase}
    {put put' : Byte → Phase → Out} (hph : s.fgph = at_ sub)
    (hput : ∀ v ph, put v ph = .next t → put' v ph = .next (t.withLines fa la))
    (h : sampleStep sub at_ after put s = .next t) :
    sampleStep sub at_ after put' (s.withLines fa la) = .next (t.withLines fa la) := by
  cases sub with
  | waitLow => rw [sampleStep_waitLow hph] at h; cases h; exact sampleStep_waitLow hph
  | waitHigh => rw [sampleStep_waitHigh hph] at h; cases h; exact sampleStep_waitHigh hph
  | readD => rw [sampleStep_readD] at h; cases h; exact sampleStep_readD
  | store v => rw [sampleStep_store] at h ⊢; exact hput _ _ h

theorem execCSampleA_withLines {sub : Sub} (hph : s.fgph = .cSampleA sub)
    (h : execCSampleA sub s = .next t) :
    execCSampleA sub (s.withLines fa la) = .next (t.withLines fa la) :=
  sampleStep_withLines hph
    (fun _ _ => State.store_withLines fun _ hu => by cases hu; rfl) h

theorem execCSampleB_withLines {sub : Sub} (hph : s.fgph = .cSampleB sub)
    (h : execCSampleB sub s = .next t) :
    execCSampleB sub (s.withLines fa la) = .next (t.withLines fa la) :=
  sampleStep_withLines hph
    (fun _ _ => State.store_withLines fun _ hu => by cases hu; rfl) h

end Lines

end Sys2Proof.Machine

namespace Sys2Proof

open Sys2Proof.Machine

/-- Settles O41: below the plane size the element exists and is written, beyond it there is none. -/
theorem samplesGoToThePlanes : Obligations.SamplesGoToThePlanes := by
  intro s v hwf
  refine ⟨fun hph hpix => ?_, fun hph hpix => ?_, fun hph hpix => ?_, fun hph hpix => ?_⟩
  · obtain ⟨b, hb⟩ := State.byteAt_of_wf (sp := .a) hwf hpix
    rw [exec_capture_storeA hph hb]
    cases ho : s.cfg.pollOrder <;> rfl
  · obtain ⟨b, hb⟩ := State.byteAt_of_wf (sp := .b) hwf hpix
    exact exec_capture_storeB hph hb
  · exact exec_capture_overrunA hph (State.byteAt_of_capacity_le hpix)
  · exact exec_capture_overrunB hph (State.byteAt_of_capacity_le hpix)

/-- Settles O42: the frame, and the one element of a store step. -/
theorem captureFrame : Obligations.CaptureFrame := by
  intro s t h
  have hstep : FgStep s .capture t := .of_capture h
  refine ⟨hstep.capture_frame, fun sp a hother => ?_⟩
  have hcfg : t.cfg = s.cfg := by rw [hstep.capture_frame]
  obtain hmem | ⟨sp', v, hstore, hmem⟩ := hstep.capture_mem
  · exact State.byteAt_congr hcfg hmem sp a
  · refine State.byteAt_of_mem_put hcfg hmem (not_and_or.1 ?_)
    rintro ⟨rfl, rfl⟩
    exact hother ⟨rfl, hstore⟩

/-- Settles O43: within a pair the step is one of `sample()`, which polls `PCLK` alone. -/
theorem pairInProgressIgnoresLineAndFrame : Obligations.PairInProgressIgnoresLineAndFrame := by
  rintro s t sub fa la (hph | hph) h
  · rw [exec_capture_cSampleA hph] at h
    exact (exec_capture_cSampleA (s := s.withLines fa la) hph).trans
      (execCSampleA_withLines hph h)
  · rw [exec_capture_cSampleB hph] at h
    exact (exec_capture_cSampleB (s := s.withLines fa la) hph).trans
      (execCSampleB_withLines hph h)

/-- Settles O39: the equations of the heads, and the return where it is due. -/
theorem captureFollowsFrameAndLines : Obligations.CaptureFollowsFrameAndLines := by
  intro s
  refine ⟨exec_capture_cInit, exec_capture_cWaitFrameEnd, exec_capture_cWaitFrameStart,
    exec_capture_cLineHead, exec_capture_cWaitLineStart, exec_capture_cPairHeadLA, ?_,
    exec_capture_cWaitLineEnd, exec_capture_of_returning⟩
  intro hph hr
  rw [exec_capture_cPairHeadFA hph hr, Sub.first_eq]; rfl

/-- Settles O40: the equations of `sample()` at the two samples. -/
theorem sampleReadsDataAtTheRisingEdge : Obligations.SampleReadsDataAtTheRisingEdge := by
  intro s
  refine ⟨fun hph => ?_, fun hph => ?_, fun hph => ?_, fun hph => ?_, fun hph => ?_, fun hph => ?_⟩
  · exact (exec_capture_cSampleA hph).trans (sampleStep_waitHigh hph)
  · exact (exec_capture_cSampleB hph).trans (sampleStep_waitHigh hph)
  · exact (exec_capture_cSampleA hph).trans sampleStep_readD
  · exact (exec_capture_cSampleB hph).trans sampleStep_readD
  · rw [exec_capture_cSampleA hph, execCSampleA, sampleStep_waitLow hph]
    cases ho : s.cfg.pollOrder <;> rfl
  · exact (exec_capture_cSampleB hph).trans (sampleStep_waitLow hph)

end Sys2Proof


/-! ## A next state for every step, and the environment (O7, O44, O45)

Every meaning is a composition of the model's shared operations: an overrun is a next state
(`IsNext.load`, `IsNext.store`), and so is what each branch after them answers. The environment's
agents have one equation for each move. -/

namespace Sys2Proof.Machine

variable {s : State}

/-! ### Outcomes that are next states -/

/-- The outcome is a next state: neither a fault of the machine nor a refusal. -/
def IsNext (o : Out) : Prop := ∃ t, o = .next t

theorem IsNext.next (t : State) : IsNext (.next t) := ⟨t, rfl⟩

theorem IsNext.ite {c : Prop} [Decidable c] {o o' : Out} (h : IsNext o) (h' : IsNext o') :
    IsNext (if c then o else o') := by
  split
  · exact h
  · exact h'

/-- A load answers what its continuation answers, or takes the overrun (R66). -/
theorem IsNext.load {sp : Space} {i : Nat} {code : Option Byte} {k : Byte → Out}
    (hk : ∀ b, IsNext (k b)) : IsNext (s.load sp i code k) := by
  obtain ⟨b, -, h⟩ | ⟨-, h⟩ := State.load_cases (k := k) (s := s) (sp := sp) (i := i) rfl
  · exact h ▸ hk b
  · exact ⟨_, h⟩

/-- A store answers what its continuation answers, or takes the overrun (R66). -/
theorem IsNext.store {sp : Space} {i : Nat} {v : Byte} {code : Option Byte} {k : State → Out}
    (hk : ∀ u, IsNext (k u)) : IsNext (s.store sp i v code k) := by
  obtain ⟨b, -, h⟩ | ⟨-, h⟩ := State.store_cases (k := k) (s := s) (sp := sp) (i := i) rfl
  · exact h ▸ hk _
  · exact ⟨_, h⟩

/-! ### The operations -/

theorem IsNext.execDataTxAck (s : State) : IsNext (execDataTxAck s) :=
  .ite (.load fun _ => .next _) (.ite (.next _) (.next _))

theorem IsNext.execDataRxAck (s : State) : IsNext (execDataRxAck s) :=
  .ite (.next _) (.store fun _ => .next _)

theorem IsNext.execInit (p : Byte) (s : State) : IsNext (execInit p s) := by
  unfold Machine.execInit
  split
  · exact .ite (.next _) (.next _)
  · exact .next _

theorem IsNext.execHalt (s : State) : IsNext (execHalt s) := by
  unfold Machine.execHalt
  split <;> exact .next _

section Execute
variable {bytes : List Byte} {wl rl : Nat}

theorem IsNext.execXCheck : IsNext (execXCheck bytes wl rl s) := by
  have verdict (leave : State → State) (b0 : Byte) :
      IsNext (execXVerdict bytes wl rl leave s b0) := .ite (.next _) (.next _)
  refine .ite ?_ (.next _)
  cases bytes with
  | nil => exact .load (verdict _)
  | cons b0 _ => exact verdict _ b0

theorem IsNext.execXLoad {i : Nat} : IsNext (execXLoad bytes wl rl i s) := by
  unfold Machine.execXLoad
  split
  · exact .store fun _ => .next _
  · exact .ite (.next _) (.next _)

theorem IsNext.execExecute : IsNext (execExecute bytes wl rl s) := by
  unfold Machine.execExecute
  cases s.fgph with
  | xCheck => exact .ite (.next _) .execXCheck
  | xLoad i => exact .execXLoad
  | xWaitStart => exact .ite (.next _) (.ite (.next _) (.next _))
  | xWaitTerm => exact .ite (.next _) (.next _)
  | xCopy j => exact .ite (.load fun _ => .next _) (.next _)
  | _ => exact .next _

end Execute

/-- A sub-step of `sample()` answers as its store does, or goes on (R177). -/
theorem IsNext.sampleStep {sub : Sub} {at_ : Sub → Phase} {after : Phase}
    {put : Byte → Phase → Out} (hput : ∀ v ph, IsNext (put v ph)) :
    IsNext (sampleStep sub at_ after put s) := by
  obtain h | ⟨ph, -, h⟩ | ⟨v, ph, -, -, h⟩ :=
    sampleStep_cases (s := s) (sub := sub) (at_ := at_) (after := after) (put := put) rfl
  · exact ⟨_, h⟩
  · exact ⟨_, h⟩
  · exact h ▸ hput v ph

theorem IsNext.execCapture (s : State) : IsNext (execCapture s) := by
  unfold Machine.execCapture
  cases s.fgph with
  | cLineHead | cPairHeadFA => exact .ite (.next _) (.ite (.next _) (.next _))
  | cWaitFrameEnd | cWaitFrameStart | cWaitLineStart | cPairHeadLA | cWaitLineEnd =>
    exact .ite (.next _) (.next _)
  | cSampleA | cSampleB => exact .sampleStep fun _ _ => .store fun _ => .next _
  | _ => exact .next _

/-- Every operation answers a next state in every state. -/
theorem IsNext.exec (i : Instr) (s : State) : IsNext (exec i s) := by
  cases i with
  | startSent | repstartSent | slawAck => exact .load fun _ => .next _
  | dataTxAck => exact .execDataTxAck s
  | dataRxAck => exact .execDataRxAck s
  | dataRxNack => exact .store (v := s.dat) fun _ => .next _
  | init p => exact .execInit p s
  | execute => exact .execExecute
  | capture => exact .execCapture s
  | halt => exact .execHalt s
  | _ => exact .next _

/-! ### The agents -/

theorem IsNext.fgStep (s : State) : IsNext (fgStep s) := by
  obtain ⟨r, -, -, h⟩ | h := fgStep_cases (s := s) rfl
  · exact h ▸ .exec r.instr s
  · exact ⟨s, h⟩

/-- Every move answers a next state: FG and the handler run an operation or do nothing, and the
others' steps are functions on states. -/
theorem IsNext.perform (m : Move) (s : State) : IsNext (perform m s) := by
  cases m with
  | op | ctrl | sensor => exact .next _
  | fg => exact .fgStep s
  | isr => exact .ite (.exec _ _) (.next _)

/-! ### The base controller (R203, R204) -/

theorem State.ctrlFree_iff : s.ctrlFree = true ↔ s.en = true ∧ s.si = false := by
  simp [State.ctrlFree]

/-- Every move of CTRL needs `EN = 1` and `SI = 0` (R203). -/
theorem State.ctrlFree_of_ctrlMay {c : CtrlMove} (h : s.ctrlMay c = true) :
    s.ctrlFree = true := by
  cases c with
  | report => exact h
  | stop => exact (Bool.and_eq_true_iff.1 h).1

/-- A step that CTRL may not take changes nothing (log 12). -/
theorem ctrlStep_of_not_ctrlMay {c : CtrlMove} (h : ¬ s.ctrlMay c = true) : ctrlStep c s = s :=
  if_neg h

theorem ctrlStep_report (hfree : s.ctrlFree = true) (sts : Byte) (dat : Option Byte)
    (entry : BusEvent) :
    ctrlStep (.report sts dat entry) s = { s with
      sts := sts, dat := dat.getD s.dat, buslog := s.buslog ++ [entry], si := true
      last := sts, cph := ownershipAfter s.cfg.statusMap sts s.cph } :=
  if_pos hfree

theorem ctrlStep_stop (hfree : s.ctrlFree = true) (hsto : s.sto = true) (onBus : Bool) :
    ctrlStep (.stop onBus) s = { s with
      sto := false, buslog := if onBus then s.buslog ++ [.stop] else s.buslog, cph := .free } :=
  if_pos (Bool.and_eq_true_iff.2 ⟨hfree, hsto⟩)

/-! ### The well-behaved controller (R205) -/

/-- Of WBC's rows only the two that need `STO = 1` offer a stop. -/
theorem WbcRow.sto_of_offers_stop {r : WbcRow} {onBus : Bool} (henabled : r.enabled s = true)
    (hoffers : r.offers s (.stop onBus) = true) : s.sto = true := by
  cases r with
  | stop | idleStop =>
    simp only [WbcRow.enabled, Bool.and_eq_true] at henabled
    exact henabled.2.1
  | address => cases hr : readIntent s.dat <;> simp [WbcRow.offers, addressChoices, hr] at hoffers
  | start | dataOut | repStart | dataIn => simp [WbcRow.offers, dataOutChoices] at hoffers

end Sys2Proof.Machine

namespace Sys2Proof

open Sys2Proof.Machine

/-- Settles O7: the command at the port, a reserved word there, or the next move; each answers a next
state. -/
theorem everyStepHasANextState : Obligations.EveryStepHasANextState := by
  intro s
  obtain ⟨w, i, -, -, h⟩ | ⟨w, e, -, -, h⟩ | ⟨-, h⟩ := step_cases (s := s) rfl
  · exact h ▸ IsNext.exec i _
  · exact ⟨_, h⟩
  · exact h ▸ IsNext.perform _ _

/-- Settles O45: every row of WBC needs what a report needs, and a row that offers a stop needs
`STO = 1` besides. -/
theorem wellBehavedControllerIsABaseController :
    Obligations.WellBehavedControllerIsABaseController := by
  intro s c h
  obtain ⟨r, henabled, hoffers⟩ := Machine.State.wbcMay_iff.1 h
  have hfree : s.ctrlFree = true := WbcRow.ctrlFree_of_enabled henabled
  cases c with
  | report => exact hfree
  | stop =>
    exact Bool.and_eq_true_iff.2 ⟨hfree, WbcRow.sto_of_offers_stop henabled hoffers⟩

/-- Settles O44: CTRL's moves that are barred, its two steps, and SENSOR's. -/
theorem environmentStepsAsTheRulesSay : Obligations.EnvironmentStepsAsTheRulesSay := by
  refine ⟨fun s c hbarred => ?_, fun s hen hsi => ?_, fun _ _ _ _ _ => rfl⟩
  · refine congrArg Host.Outcome.next (ctrlStep_of_not_ctrlMay fun hmay => ?_)
    obtain ⟨hen, hsi⟩ := State.ctrlFree_iff.1 (State.ctrlFree_of_ctrlMay hmay)
    simp [hen, hsi] at hbarred
  · have hfree : s.ctrlFree = true := State.ctrlFree_iff.2 ⟨hen, hsi⟩
    refine ⟨fun sts dat entry => congrArg Host.Outcome.next (ctrlStep_report hfree sts dat entry),
      fun hsto => congrArg Host.Outcome.next (ctrlStep_stop hfree hsto true),
      fun hsto => congrArg Host.Outcome.next (ctrlStep_stop hfree hsto false),
      fun hsto onBus => congrArg Host.Outcome.next (ctrlStep_of_not_ctrlMay ?_)⟩
    simp [State.ctrlMay, hsto]

end Sys2Proof


/-! ## The state after reset (O8, O56)

At reset the planes list no element and the controller is off; the rest is read off the record
`State.reset`. -/

namespace Sys2Proof.Machine

/-! ### The registers -/

/-- The planes read as zero at reset (R39). -/
theorem State.reset_byteAt_plane {sp : Space} {i : Nat} (hsp : sp = .a ∨ sp = .b)
    (hi : i < State.reset.cfg.planeSize) : State.reset.byteAt sp i = some 0x00 := by
  obtain rfl | rfl := hsp <;> exact State.byteAt_of_lt_capacity hi

/-- A controller that is off takes no step (R203). -/
theorem State.ctrlMay_eq_false_of_disabled {s : State} (hen : s.en = false) (c : CtrlMove) :
    s.ctrlMay c = false := by
  refine Bool.eq_false_iff.2 fun hmay => ?_
  obtain ⟨hon, -⟩ := State.ctrlFree_iff.1 (State.ctrlFree_of_ctrlMay hmay)
  simp [hen] at hon

/-! ### The invariants -/

theorem State.reset_controlOk : State.reset.ControlOk where
  port    := rfl
  fits    := rfl
  off     := fun _ => rfl
  ready   := nofun
  engine  := nofun
  en      := rfl
  ien     := rfl
  pending := nofun
  halted  := ⟨nofun, nofun⟩
  returns := nofun

theorem State.reset_boundsOk : State.reset.BoundsOk where
  polls  := by decide
  wl     := Nat.zero_le _
  rl     := Nat.zero_le _
  wc     := Nat.zero_le _
  rc     := Nat.zero_le _
  pix    := Nat.zero_le _
  k      := nofun
  loaded := nofun
  res    := List.mem_cons_self

end Sys2Proof.Machine

namespace Sys2Proof

open Sys2Proof.Machine

/-- Settles O8: the registers are fields of `State.reset`, the planes read as zero, and with `EN = 0`
neither the handler nor CTRL moves. -/
theorem resetStateIsAsSpecified : Obligations.ResetStateIsAsSpecified := by
  have hplanes : ∀ i, i < State.reset.cfg.planeSize →
      State.reset.byteAt .a i = some 0x00 ∧ State.reset.byteAt .b i = some 0x00 := fun _ hi =>
    ⟨State.reset_byteAt_plane (.inl rfl) hi, State.reset_byteAt_plane (.inr rfl) hi⟩
  have hctrl : ∀ c, State.reset.ctrlMay c = false := State.ctrlMay_eq_false_of_disabled rfl
  exact ⟨rfl, rfl, rfl, rfl, rfl, rfl, rfl, rfl, rfl, rfl, rfl, hplanes, rfl, rfl, rfl, rfl, rfl, rfl,
    rfl, rfl, rfl, rfl, rfl, hctrl⟩

/-- Settles O56: the memory's form and the two invariants, each shown of `State.reset`. -/
theorem resetMeetsTheInvariants : Obligations.ResetMeetsTheInvariants :=
  ⟨Memory.reset_wf, State.reset_controlOk, State.reset_boundsOk⟩

end Sys2Proof
